-- ==== Sys2Proof/Word.lean ====
section
/-! DEFINITION. The word types of the block and the byte arithmetic of 00_scope R13 and R14. -/

namespace Sys2Proof

/-- A byte, an unsigned value 0..255, bit 7 the most significant (R13). -/
abbrev Byte := BitVec 8

/-- A request word (R54). -/
abbrev Word := BitVec 32

/-- `u8(x)`, x mod 256 with the result in 0..255 for every integer, negative ones included (R14). -/
def u8 (x : Int) : Byte := BitVec.ofInt 8 x

end Sys2Proof
end

