-- ==== Sys2Proof/Config.lean ====
section
/-! DEFINITION. What is fixed for every run: the constants of 00_scope R12, the frame-buffer size of decision D19, the
values of the configuration fields (10_state R26), and the free values, which have no body. -/

namespace Sys2Proof

/-- `SHAPE`, the panel shape (R10, R11). -/
inductive Shape where
  | s128x32
  | s128x64
  | s96x16
  deriving DecidableEq, Repr

/-- `POWER`, the power mode (R10, R26). -/
inductive Power where
  | internalPump
  | externalVcc
  deriving DecidableEq, Repr

/-- `ACK_POLICY`, what a NACK does to a driver operation (R10, R89). -/
inductive AckPolicy where
  | ignore
  | abort
  deriving DecidableEq, Repr

/-- `HIGH_SCL`, `HIGH_SDA`: how the master sets a line high (R10, R67). -/
inductive HighMode where
  | release
  | drive
  deriving DecidableEq, Repr

/-- `BUF_BASE`: where the caller buffer's index starts (R10, R40). -/
inductive BufBase where
  | withOffset
  | fromZero
  deriving DecidableEq, Repr

/-- The configuration registers, the fields of the word `CFG` (R26). Every field has only its legal values, so a word
that R27 refuses has no value of this type. -/
structure Cfg where
  addr7     : BitVec 7
  shape     : Shape
  power     : Power
  ackPolicy : AckPolicy
  highScl   : HighMode
  highSda   : HighMode
  bufBase   : BufBase
  deriving DecidableEq, Repr

namespace Config

/-- `CTRL_CMD`, the control byte of a command transfer (R12, R61). -/
def ctrlCmd : Byte := 0x00#8

/-- `CTRL_DATA`, the control byte of a data transfer (R12, R61). -/
def ctrlData : Byte := 0x40#8

/-- `CELL_W`, the width of a character cell in pixels (R12). -/
def cellW : Nat := 6

/-- `CELL_H`, the height of a character cell in pixels (R12). -/
def cellH : Nat := 8

/-- `GLYPH_W`, the bytes of one glyph (R12, R39). -/
def glyphW : Nat := 5

/-- `RAM_COLS`, columns of the reference slave's frame buffer (R10, D19; log 5). -/
def ramCols : Nat := 128

/-- `RAM_PAGES`, pages of the reference slave's frame buffer (R10, D19; log 5). -/
def ramPages : Nat := 8

/-- FREE VALUE (log 3): glyph-store byte `i` for the bytes the spec does not give (R38, U15, U16). -/
opaque freeGlyph : Nat → Byte

/-- FREE VALUE (log 10, log 14): draw number `n` of a slave whose answer the spec leaves open; true is the drive `LOW`,
an ACK (U2). -/
opaque freeAck : Nat → Bool

/-- FREE VALUE (log 7): what frame-buffer byte `a` of the reference slave holds before anything writes it (R109, U24). -/
opaque freeGddram : Nat → Byte

/-- OPEN (log 6): what `T_SETTLE` has beyond its least value. -/
opaque settleBeyondOne : Nat

/-- `T_SETTLE`, an abstract delay of at least one unit; no rule uses it (R10, R68, U18). -/
def tSettle : Nat := settleBeyondOne + 1

end Config

end Sys2Proof
end

