-- ==== Sys2Proof/Syntax.lean ====
section
/-! DEFINITION. The operations of the block as syntax: one constructor for each row of spec/opcode_table.json, the request
the host issues, and the encoded forms that carry them. -/

namespace Sys2Proof

/-- The source select of `DRAW_GLYPHS` (30_encoding R55): 0 the glyph store, 1 the caller buffer. -/
inductive Source where
  | store
  | buffer
  deriving DecidableEq, Repr

/-- The eleven request words of R55 and the three wire bytes of R60 and R61. -/
inductive Instr where
  | busInit
  | start
  | writeBit (b : Bool)
  | readAck
  | writeByte (v : Byte)
  | stop
  | sendCommand (c : Byte)
  | init
  | setPosition (col row : Byte)
  | drawGlyphs (src : Source) (off n : Byte)
  | clear
  | addressByte (a : BitVec 7)
  | ctrlCmd
  | ctrlData
  deriving DecidableEq, Repr

/-- Which byte of a transfer a wire byte is (R59): the first, the address byte, or the second, the control byte. -/
inductive WireRole where
  | address
  | control
  deriving DecidableEq, Repr

/-- An encoded operation: a request word (R54), or a wire byte with its place in the transfer (R59; log 11). -/
inductive Code where
  | word (w : Word)
  | wire (role : WireRole) (b : Byte)
  deriving DecidableEq, Repr

/-- A request as the host issues it: the operation and the caller buffer's bytes beside it (R54, R42). -/
structure Request where
  op  : Instr
  buf : List Byte
  deriving DecidableEq, Repr

/-- An encoded request waiting to be begun: its code and the caller buffer's bytes beside it (R54, R134). -/
structure Entry where
  code : Code
  buf  : List Byte
  deriving DecidableEq, Repr

end Sys2Proof
end

