-- ==== Sys2Proof/WellFormed.lean ====
section
/-! DEFINITION. What the host may hand the block: legal configuration words (10_state R27), legal request words
(30_encoding R56), legal wire bytes (R60, R61), and requests whose buffer belongs to them (20_memory R42). The operands of
`Instr` have exactly the widths of R55, so each term of it stands for one legal word. -/

namespace Sys2Proof

/-- Whether a configuration word is legal: reserved bits zero and a shape other than 11 (R27). -/
def cfgWordLegal (w : BitVec 16) : Bool :=
  !w.getLsbD 7 && !w.getLsbD 15 && !(w.getLsbD 8 && w.getLsbD 9)

/-- The operations whose three operand bytes are all reserved (R55). -/
def bareOpcodes : List Byte := [0x01#8, 0x02#8, 0x04#8, 0x06#8, 0x11#8, 0x14#8]

/-- Whether a request word has an opcode of the table and zeros in every reserved bit (R55, R56). -/
def requestWordLegal (w : Word) : Bool :=
  let opc := w.extractLsb' 24 8
  if bareOpcodes.contains opc then w.extractLsb' 0 24 == 0#24
  else if opc == 0x03#8 then w.extractLsb' 1 23 == 0#23
  else if opc == 0x05#8 || opc == 0x10#8 then w.extractLsb' 8 16 == 0#16
  else if opc == 0x12#8 then w.extractLsb' 16 8 == 0#8
  else if opc == 0x13#8 then w.extractLsb' 17 7 == 0#7
  else false

/-- Whether a wire byte is one the block sends at its place: an address byte has the write bit 0 (R60), a control byte is
0x00 or 0x40 (R61). -/
def wireByteLegal (role : WireRole) (b : Byte) : Bool :=
  match role with
  | .address => !b.getLsbD 0
  | .control => b == Config.ctrlCmd || b == Config.ctrlData

/-- Whether an encoded operation is one of the tables. -/
def Code.wellFormed (c : Code) : Bool :=
  match c with
  | .word w => requestWordLegal w
  | .wire role b => wireByteLegal role b

/-- Whether an operation takes a caller buffer (R42). -/
def Instr.takesBuffer (i : Instr) : Bool :=
  match i with
  | .drawGlyphs .buffer _ _ => true
  | _ => false

/-- Whether a request carries a buffer only where its operation selects one (R42). -/
def Request.wellFormed (r : Request) : Bool :=
  r.op.takesBuffer || r.buf.isEmpty

end Sys2Proof
end

