-- ==== Sys2Proof/Decode.lean ====
section
/-! DEFINITION. Decoding and encoding: request words (30_encoding R54 to R57), wire bytes (R60, R61) and the configuration
word (10_state R26, R27). Every function is total. -/

namespace Sys2Proof

/-- `OPC = W[31:24]` (R54). -/
def fieldOpc (w : Word) : Byte := w.extractLsb' 24 8

/-- `A = W[23:16]` (R54). -/
def fieldA (w : Word) : Byte := w.extractLsb' 16 8

/-- `B = W[15:8]` (R54). -/
def fieldB (w : Word) : Byte := w.extractLsb' 8 8

/-- `C = W[7:0]` (R54). -/
def fieldC (w : Word) : Byte := w.extractLsb' 0 8

/-- The word with the four fields `OPC || A || B || C` (R54). -/
def packWord (opc a b c : Byte) : Word := opc ++ a ++ b ++ c

/-- The seven bits `x[7:1]` of a byte, reserved in `C` of `WRITE_BIT` and in `A` of `DRAW_GLYPHS` (R55). -/
def highSeven (x : Byte) : BitVec 7 := x.extractLsb' 1 7

/-- The byte `0000000b`. -/
def bitByte (b : Bool) : Byte := if b then 1#8 else 0#8

/-- The source select in bit 0 of `A` (R55). -/
def sourceOf (b : Bool) : Source := if b then .buffer else .store

/-- The bit that selects a source (R55). -/
def sourceBit (s : Source) : Bool :=
  match s with
  | .store => false
  | .buffer => true

/-- `Decode(W)` of R57; none is `Illegal`. -/
def decodeWord (w : Word) : Option Instr :=
  let opc := fieldOpc w
  let a := fieldA w
  let b := fieldB w
  let c := fieldC w
  let bare (i : Instr) : Option Instr := if a = 0#8 ∧ b = 0#8 ∧ c = 0#8 then some i else none
  if opc = 0x01#8 then bare .busInit
  else if opc = 0x02#8 then bare .start
  else if opc = 0x03#8 then
    if a = 0#8 ∧ b = 0#8 ∧ highSeven c = 0#7 then some (.writeBit (c.getLsbD 0)) else none
  else if opc = 0x04#8 then bare .readAck
  else if opc = 0x05#8 then
    if a = 0#8 ∧ b = 0#8 then some (.writeByte c) else none
  else if opc = 0x06#8 then bare .stop
  else if opc = 0x10#8 then
    if a = 0#8 ∧ b = 0#8 then some (.sendCommand c) else none
  else if opc = 0x11#8 then bare .init
  else if opc = 0x12#8 then
    if a = 0#8 then some (.setPosition b c) else none
  else if opc = 0x13#8 then
    if highSeven a = 0#7 then some (.drawGlyphs (sourceOf (a.getLsbD 0)) b c) else none
  else if opc = 0x14#8 then bare .clear
  else none

/-- A wire byte read at its place in the transfer: the address byte has bit 0 clear (R60), the control byte is one of two
values (R61). -/
def decodeWire (role : WireRole) (b : Byte) : Option Instr :=
  match role with
  | .address => if b.getLsbD 0 then none else some (.addressByte (b.extractLsb' 1 7))
  | .control =>
    if b = Config.ctrlCmd then some .ctrlCmd
    else if b = Config.ctrlData then some .ctrlData
    else none

/-- The operation a code stands for; none for a code of no table. -/
def decode (c : Code) : Option Instr :=
  match c with
  | .word w => decodeWord w
  | .wire role b => decodeWire role b

/-- The code of each operation, from the tables of R55, R60 and R61. -/
def encode (i : Instr) : Code :=
  match i with
  | .busInit => .word (packWord 0x01#8 0#8 0#8 0#8)
  | .start => .word (packWord 0x02#8 0#8 0#8 0#8)
  | .writeBit b => .word (packWord 0x03#8 0#8 0#8 (bitByte b))
  | .readAck => .word (packWord 0x04#8 0#8 0#8 0#8)
  | .writeByte v => .word (packWord 0x05#8 0#8 0#8 v)
  | .stop => .word (packWord 0x06#8 0#8 0#8 0#8)
  | .sendCommand c => .word (packWord 0x10#8 0#8 0#8 c)
  | .init => .word (packWord 0x11#8 0#8 0#8 0#8)
  | .setPosition col row => .word (packWord 0x12#8 0#8 col row)
  | .drawGlyphs src off n => .word (packWord 0x13#8 (bitByte (sourceBit src)) off n)
  | .clear => .word (packWord 0x14#8 0#8 0#8 0#8)
  | .addressByte a => .wire .address (a ++ 0#1)
  | .ctrlCmd => .wire .control Config.ctrlCmd
  | .ctrlData => .wire .control Config.ctrlData

/-- The code of a table row's bits: rows of up to 8 bits are wire bytes, the others request words. A wire byte's bits do
not say its place in the transfer: one of the two control values is read as the control byte, any other value as the
address byte (log 11). -/
def codeOfTable (nbits w : Nat) : Code :=
  if nbits ≤ 8 then
    let b := BitVec.ofNat 8 w
    if b = Config.ctrlCmd ∨ b = Config.ctrlData then .wire .control b else .wire .address b
  else .word (BitVec.ofNat 32 w)

/-- The operation the decoder reads from a table row's bits. -/
def decodeTableWord (nbits w : Nat) : Option Instr := decode (codeOfTable nbits w)

/-- The configuration a word `CFG` stands for; none for a word that R27 refuses. -/
def decodeCfg (w : BitVec 16) : Option Cfg :=
  let rest (shape : Shape) : Cfg :=
    { addr7 := w.extractLsb' 0 7
      shape := shape
      power := if w.getLsbD 10 then .externalVcc else .internalPump
      ackPolicy := if w.getLsbD 11 then .abort else .ignore
      highScl := if w.getLsbD 12 then .drive else .release
      highSda := if w.getLsbD 13 then .drive else .release
      bufBase := if w.getLsbD 14 then .fromZero else .withOffset }
  if w.getLsbD 7 ∨ w.getLsbD 15 then none
  else if w.extractLsb' 8 2 = 0#2 then some (rest .s128x32)
  else if w.extractLsb' 8 2 = 1#2 then some (rest .s128x64)
  else if w.extractLsb' 8 2 = 2#2 then some (rest .s96x16)
  else none

/-- The word `CFG` of a configuration (R26). -/
def encodeCfg (c : Cfg) : BitVec 16 :=
  let shape : BitVec 2 :=
    match c.shape with
    | .s128x32 => 0#2
    | .s128x64 => 1#2
    | .s96x16 => 2#2
  0#1 ++ BitVec.ofBool (c.bufBase == .fromZero) ++ BitVec.ofBool (c.highSda == .drive)
    ++ BitVec.ofBool (c.highScl == .drive) ++ BitVec.ofBool (c.ackPolicy == .abort)
    ++ BitVec.ofBool (c.power == .externalVcc) ++ shape ++ 0#1 ++ c.addr7

end Sys2Proof
end

