-- ==== Sys2Proof/Machine/Params.lean ====
section
/-! DEFINITION. The construction parameters of the block beside the configuration word (00_scope R10) and the panel
geometry (R11), with the default init bytes of 42_driver R95. -/

namespace Sys2Proof.Machine

/-- The slave of a run (R10 `SLAVE`, D18): an unconstrained draw, or the reference model of 45_controller_reference. -/
inductive SlaveKind where
  | free
  | reference
  deriving DecidableEq, Repr

/-- The bytes of the sixteen steps of `INIT_SEQ` (R95, R96): each step's opcode, and its argument where it has one. The COM
argument depends on the shape, the charge-pump and pre-charge arguments on the power mode, nothing else (R95). -/
structure InitBytes where
  oscOp        : Byte
  oscArg       : Byte
  muxOp        : Byte
  muxArg       : Byte
  offsetOp     : Byte
  offsetArg    : Byte
  startLine    : Byte
  pumpOp       : Byte
  pumpPump     : Byte
  pumpVcc      : Byte
  modeOp       : Byte
  modeArg      : Byte
  segRemap     : Byte
  scanDir      : Byte
  comOp        : Byte
  com128x32    : Byte
  com128x64    : Byte
  com96x16     : Byte
  contrastOp   : Byte
  contrastArg  : Byte
  prechargeOp  : Byte
  prechargePump : Byte
  prechargeVcc : Byte
  vcomOp       : Byte
  vcomArg      : Byte
  resume       : Byte
  polarity     : Byte
  scrollOff    : Byte
  powerOn      : Byte
  deriving DecidableEq, Repr

/-- The default bytes of R95 and R62 (log 2). -/
def defaultInitBytes : InitBytes where
  oscOp := 0xD5#8
  oscArg := 0x80#8
  muxOp := 0xA8#8
  muxArg := 0x1F#8
  offsetOp := 0xD3#8
  offsetArg := 0x00#8
  startLine := 0x40#8
  pumpOp := 0x8D#8
  pumpPump := 0x14#8
  pumpVcc := 0x10#8
  modeOp := 0x20#8
  modeArg := 0x00#8
  segRemap := 0xA1#8
  scanDir := 0xC8#8
  comOp := 0xDA#8
  com128x32 := 0x02#8
  com128x64 := 0x12#8
  com96x16 := 0x02#8
  contrastOp := 0x81#8
  contrastArg := 0x8F#8
  prechargeOp := 0xD9#8
  prechargePump := 0xF1#8
  prechargeVcc := 0x22#8
  vcomOp := 0xDB#8
  vcomArg := 0x40#8
  resume := 0xA4#8
  polarity := 0xA6#8
  scrollOff := 0x2E#8
  powerOn := 0xAF#8

/-- The COM-pin argument `A_COM` of a shape (R11, R95). -/
def InitBytes.comArg (b : InitBytes) (shape : Shape) : Byte :=
  match shape with
  | .s128x32 => b.com128x32
  | .s128x64 => b.com128x64
  | .s96x16 => b.com96x16

/-- The charge-pump argument of a power mode (R95). -/
def InitBytes.pumpArg (b : InitBytes) (power : Power) : Byte :=
  match power with
  | .internalPump => b.pumpPump
  | .externalVcc => b.pumpVcc

/-- The pre-charge argument of a power mode (R95). -/
def InitBytes.prechargeArg (b : InitBytes) (power : Power) : Byte :=
  match power with
  | .internalPump => b.prechargePump
  | .externalVcc => b.prechargeVcc

/-- `INIT_SEQ(SHAPE, POWER)`: 25 bytes, the sixteen steps in the source's order (R95, R96). -/
def initSeq (b : InitBytes) (shape : Shape) (power : Power) : List Byte :=
  [b.oscOp, b.oscArg, b.muxOp, b.muxArg, b.offsetOp, b.offsetArg, b.startLine,
   b.pumpOp, b.pumpArg power, b.modeOp, b.modeArg, b.segRemap, b.scanDir,
   b.comOp, b.comArg shape, b.contrastOp, b.contrastArg, b.prechargeOp, b.prechargeArg power,
   b.vcomOp, b.vcomArg, b.resume, b.polarity, b.scrollOff, b.powerOn]

/-- The panel width `W` in pixels (R11). -/
def panelWidth (shape : Shape) : Nat :=
  match shape with
  | .s128x32 => 128
  | .s128x64 => 128
  | .s96x16 => 96

/-- The panel height `H` in pixels (R11). -/
def panelHeight (shape : Shape) : Nat :=
  match shape with
  | .s128x32 => 32
  | .s128x64 => 64
  | .s96x16 => 16

/-- The panel's pages `P = H/8` (R11). -/
def panelPages (shape : Shape) : Nat := panelHeight shape / Config.cellH

/-- The number of zero bytes of a clear, `W·H/8` (R11, R105). -/
def clearCount (shape : Shape) : Nat := panelWidth shape * panelPages shape

/-- The columns of the character grid, `W/6` rounded down (R11). -/
def gridCols (shape : Shape) : Nat := panelWidth shape / Config.cellW

/-- The rows of the character grid (R11). -/
def gridRows (shape : Shape) : Nat := panelPages shape

/-- The parameters of a run that the configuration word does not hold (R10). -/
structure Params where
  initBytes  : InitBytes
  cmdColwin  : Byte
  cmdPagewin : Byte
  glyph      : List Byte
  slave      : SlaveKind
  slaveAddr7 : BitVec 7
  deriving DecidableEq, Repr

/-- Glyph-store bytes 0..4, digit '0' (R38). -/
def digitZero : List Byte := [0x3E#8, 0x51#8, 0x49#8, 0x45#8, 0x3E#8]

/-- A glyph store of the reference layout's least size, 106 bytes (R37, R10): bytes 0..4 as R38 gives them, every other
byte a free value (log 3). -/
def referenceGlyph : List Byte :=
  digitZero ++ (List.range 101).map (fun i => Config.freeGlyph (i + 5))

/-- The parameters at their values and defaults of R10, with the reference slave answering at `addr7` (log 2, log 4). -/
def referenceParams (addr7 : BitVec 7) : Params where
  initBytes := defaultInitBytes
  cmdColwin := 0x21#8
  cmdPagewin := 0x22#8
  glyph := referenceGlyph
  slave := .reference
  slaveAddr7 := addr7

/-- The word `CFG` of the reference configuration: address 0x3C, 128x32, internal charge pump, every policy at its R10
value (log 1). -/
def referenceCfgWord : BitVec 16 := 0x003C#16

/-- The reference configuration (log 1). -/
def referenceCfg : Cfg where
  addr7 := 0x3C#7
  shape := .s128x32
  power := .internalPump
  ackPolicy := .ignore
  highScl := .release
  highSda := .release
  bufBase := .withOffset

end Sys2Proof.Machine
end

