-- ==== Sys2Proof/Machine/State.lean ====
section
/-! DEFINITION. The state record `S` of 10_state, every field of it, with the state of the reference slave (45 R108), the
model's own fields (the waiting requests, the running request's buffer, the slave's answers), the reasons a run stops,
and the state at reset (R34, R109). -/

namespace Sys2Proof.Machine

/-- The two bus lines (R16). -/
inductive Line where
  | scl
  | sda
  deriving DecidableEq, Repr

/-- The master's driver of a line (R16, R20). -/
inductive Drive where
  | low
  | high
  | hiz
  deriving DecidableEq, Repr

/-- The slave's driver of a line (R16, R21). -/
inductive SDrive where
  | low
  | hiz
  deriving DecidableEq, Repr

/-- The framing state (R24); `opened` is the spec's `OPEN`. -/
inductive Frame where
  | uninit
  | idle
  | opened
  deriving DecidableEq, Repr

/-- The driver's state machine (R28). -/
inductive DState where
  | uninitialized
  | configuring
  | ready
  deriving DecidableEq, Repr

/-- The status a driver operation returns (R16, R30). -/
inductive Status where
  | ok
  | nack
  deriving DecidableEq, Repr

/-- The result of a request (R55, R86): nothing, the ACK Boolean, or a status. -/
inductive Result where
  | none
  | ack (a : Bool)
  | status (st : Status)
  deriving DecidableEq, Repr

/-- The events of the trace (R31). A level is true when the line is high. -/
inductive Event where
  | edge (l : Line) (v : Bool)
  | settle
  | sample (v : Bool)
  | opBegin (r : Request)
  | opEnd (res : Result)
  deriving DecidableEq, Repr

/-- The bus operations, as `FramingViolation` names them (R122). -/
inductive BusOp where
  | busInit
  | start
  | writeBit
  | readAck
  | writeByte
  | stop
  deriving DecidableEq, Repr

/-- The fault reasons, exactly those of R122. -/
inductive FaultReason where
  | notReady
  | cursorUnset
  | framingViolation (op : BusOp)
  | busNotIdle
  | busContention (l : Line)
  | glyphIndexOutOfRange (i : Nat)
  | bufferIndexOutOfRange (i : Nat)
  deriving DecidableEq, Repr

/-- What the reference slave gives no meaning to (R116). -/
inductive ControllerReason where
  | controlByte (v : Byte)
  | command (v : Byte)
  | argument
  | addressingMode
  deriving DecidableEq, Repr

/-- The refusal reasons, exactly those of R123. -/
inductive RefusalReason where
  | illegalRequest (w : Word)
  | controllerUnmodelled (r : ControllerReason)
  deriving DecidableEq, Repr

/-- The reference slave's receive phase (R108). -/
inductive Phase where
  | waitStart
  | addr
  | ctrl
  | cmdStream
  | dataStream
  | notMe
  deriving DecidableEq, Repr

/-- The reference slave's addressing mode (R108): 0, 1, 2 in this order. -/
inductive AddrMode where
  | horizontal
  | vertical
  | page
  deriving DecidableEq, Repr

/-- A partial command of the reference slave (R108, R112). -/
structure Partial where
  opcode : Byte
  args   : List Byte
  needed : Nat
  deriving DecidableEq, Repr

/-- The reference slave's state `Cst` (R108). The frame buffer is a list of cells at rising addresses, byte (page p,
column c) at address 128·p + c; a cell not listed holds its free value (R109; log 7). -/
structure Controller where
  phase     : Phase
  pending   : Option Partial
  addrMode  : AddrMode
  colStart  : Nat
  colEnd    : Nat
  pageStart : Nat
  pageEnd   : Nat
  col       : Nat
  page      : Nat
  gddram    : List Host.Cell
  displayOn : Bool
  settings  : List (Byte × List Byte)
  deriving DecidableEq, Repr

/-- The state record `S` (R17), and after it the model's own fields. -/
structure State where
  drvScl   : Drive
  drvSda   : Drive
  slScl    : SDrive
  slSda    : SDrive
  clkPhase : Bool
  frame    : Frame
  lastAck  : Option Bool
  cfg      : Cfg
  par      : Params
  dstate   : DState
  curCol   : Option Byte
  curRow   : Option Byte
  opNack   : Bool
  trace    : List Event
  fault    : Option (FaultReason × Nat)
  refused  : Option RefusalReason
  mpc      : Nat
  ctl      : Controller
  /-- The requests the host has issued and the block has not begun, oldest first (R134; log 8). -/
  queue    : List Entry
  /-- The caller buffer of the running request (R42; log 9). -/
  buf      : List Byte
  /-- Answers of the unconstrained slave that are already fixed, next first (U2; log 10). -/
  slaveIn  : List SDrive
  /-- How many answers were drawn from the free value (U2; log 10). -/
  draws    : Nat
  deriving DecidableEq, Repr

/-- The Host faults of a step. -/
inductive Fault where
  /-- Answered by a step, or by any meaning, at a state whose fault mark is set: such a state has no further step (R32,
  R125). Safe: nothing is claimed past the mark. -/
  | stopped (r : FaultReason) (mpc : Nat)
  deriving DecidableEq, Repr

/-- The Host refusals of a step. -/
inductive Refusal where
  /-- Answered by exec's arm of an operation that has no meaning yet; none is left. Safe. -/
  | notModelled (mnemonic : String)
  /-- Answered by a step, or by any meaning, at a state whose refusal mark is set: such a state has no further step (R33,
  R125). Safe: nothing is claimed past the mark. -/
  | stopped (r : RefusalReason)
  /-- Answered by a step whose next entry is a wire byte the block never sends at that place: an address byte with bit 0
  set (R60), a control byte other than 0x00 and 0x40 (R61). Safe (log 11). -/
  | unsentWireByte (role : WireRole) (b : Byte)
  deriving DecidableEq, Repr

/-- The reference slave at its reset (R109). -/
def Controller.reset : Controller where
  phase := .waitStart
  pending := none
  addrMode := .page
  colStart := 0
  colEnd := Config.ramCols - 1
  pageStart := 0
  pageEnd := Config.ramPages - 1
  col := 0
  page := 0
  gddram := []
  displayOn := false
  settings := []

/-- The block right after reset with a given configuration (R34, R135). -/
def State.resetWith (cfg : Cfg) (par : Params) : State where
  drvScl := .hiz
  drvSda := .hiz
  slScl := .hiz
  slSda := .hiz
  clkPhase := true
  frame := .uninit
  lastAck := none
  cfg := cfg
  par := par
  dstate := .uninitialized
  curCol := none
  curRow := none
  opNack := false
  trace := []
  fault := none
  refused := none
  mpc := 0
  ctl := Controller.reset
  queue := []
  buf := []
  slaveIn := []
  draws := 0

/-- Construction from a configuration word (R134): none when the word is refused, and then no run exists (R27). -/
def State.construct (w : BitVec 16) (par : Params) : Option State :=
  (decodeCfg w).map (fun cfg => State.resetWith cfg par)

/-- The machine right after reset, in the reference configuration (R34; log 1, log 4). -/
def State.reset : State := State.resetWith referenceCfg (referenceParams referenceCfg.addr7)

end Sys2Proof.Machine
end

