-- ==== Sys2Proof/Machine/Memory.lean ====
section
/-! DEFINITION. The frame buffer `GDDRAM` of the reference slave (20_memory R35, 45 R108, R117) as a list of cells in one
canonical form, the bytes written since the controller's reset: addresses strictly rising, every address inside the frame
buffer. A byte not listed holds a free value. -/

namespace Sys2Proof.Machine

/-- The size of the frame buffer in bytes, `RAM_COLS · RAM_PAGES` (R35). -/
def gddramSize : Nat := Config.ramCols * Config.ramPages

/-- The address of the byte of page `p`, column `c`. -/
def gddramAddr (p c : Nat) : Nat := p * Config.ramCols + c

/-- Whether (p, c) is a byte of the frame buffer (R108). -/
def gddramHas (p c : Nat) : Bool := decide (p < Config.ramPages) && decide (c < Config.ramCols)

/-- The byte written at an address; none where nothing has written one (log 7). -/
def memRead : List Host.Cell → Nat → Option Byte
  | [], _ => none
  | (b, v) :: rest, a => if a = b then some v else memRead rest a

/-- One byte written, the list kept in its canonical form (R15 `MemWrite`). -/
def memWrite : List Host.Cell → Nat → Byte → List Host.Cell
  | [], a, v => [(a, v)]
  | (b, w) :: rest, a, v =>
    if a < b then (a, v) :: (b, w) :: rest
    else if a = b then (a, v) :: rest
    else (b, w) :: memWrite rest a v

/-- Whether every address of the list is at least `low` and the addresses strictly rise. -/
def memSorted : Nat → List Host.Cell → Bool
  | _, [] => true
  | low, (a, _) :: rest => decide (low ≤ a) && memSorted (a + 1) rest

/-- The canonical form: addresses strictly rising and inside the frame buffer. -/
def memWf (m : List Host.Cell) : Bool :=
  memSorted 0 m && m.all (fun cell => decide (cell.1 < gddramSize))

/-- The byte at an address of the frame buffer: the one written, else the free value it holds from reset (R109, U24; log 7). -/
def gddramByte (m : List Host.Cell) (a : Nat) : Byte := (memRead m a).getD (Config.freeGddram a)

/-- `GDDRAM[p][c]` (R108); none outside the frame buffer. -/
def gddramRead (c : Controller) (p col : Nat) : Option Byte :=
  if gddramHas p col then some (gddramByte c.gddram (gddramAddr p col)) else none

/-- The pixel at column `x` and row `y` of the frame buffer, true where it is set: bit `r` of `GDDRAM[p][x]` is the pixel of
row `8·p + r`, row 0 at the top (R117, R39). -/
def pixel (c : Controller) (x y : Nat) : Option Bool := (gddramRead c (y / 8) x).map (fun v => v.getLsbD (y % 8))

end Sys2Proof.Machine
end

