-- ==== Sys2Proof/Machine/Wire.lean ====
section
/-! DEFINITION. The wire meaning of a trace, read from its edges alone (41_bus R81), and the order of the bits of a byte on
the wire (20_memory R43, 30_encoding R58). -/

namespace Sys2Proof.Machine

/-- The bits of a byte in the order they are sent, most significant first (R43). -/
def bitsMsb (v : Byte) : List Bool :=
  [v.getLsbD 7, v.getLsbD 6, v.getLsbD 5, v.getLsbD 4, v.getLsbD 3, v.getLsbD 2, v.getLsbD 1, v.getLsbD 0]

/-- The byte of eight bits received most significant first (R81). -/
def byteOfBits (bits : List Bool) : Byte :=
  BitVec.ofNat 8 (bits.foldl (fun n b => 2 * n + b.toNat) 0)

/-- The items of `DecodeWire` (R81). The ACK bit of a byte is the level read: false (0) is an ACK. -/
inductive Item where
  | start
  | byte (v : Byte) (ackBit : Bool)
  | stop
  deriving DecidableEq, Repr

/-- What a receiver has read so far: the line levels, whether a start condition is open, and the bits of the byte in
progress, oldest first. -/
structure Receiver where
  scl    : Bool
  sda    : Bool
  active : Bool
  bits   : List Bool
  deriving DecidableEq, Repr

/-- A receiver before any edge: both lines high (R34), no transfer. -/
def receiverInit : Receiver where
  scl := true
  sda := true
  active := false
  bits := []

/-- What a receiver has read after one more event (R81). -/
def hear (r : Receiver) (e : Event) : Receiver :=
  match e with
  | .edge .sda v =>
    if r.scl then { r with sda := v, active := !v, bits := [] } else { r with sda := v }
  | .edge .scl true =>
    if r.active then
      { r with scl := true, bits := if r.bits.length = 8 then [] else r.bits ++ [r.sda] }
    else { r with scl := true }
  | .edge .scl false => { r with scl := false }
  | _ => r

/-- The item an event completes, if it completes one (R81). -/
def itemAt (r : Receiver) (e : Event) : Option Item :=
  match e with
  | .edge .sda v => if r.scl then some (if v then .stop else .start) else none
  | .edge .scl true =>
    if r.active ∧ r.bits.length = 8 then some (.byte (byteOfBits r.bits) r.sda) else none
  | _ => none

/-- What a receiver has read after a list of events. -/
def hearAll (r : Receiver) (es : List Event) : Receiver := es.foldl hear r

/-- The items a receiver reads in a list of events. -/
def decodeFrom : Receiver → List Event → List Item
  | _, [] => []
  | r, e :: es => (itemAt r e).toList ++ decodeFrom (hear r e) es

/-- `DecodeWire(trace)` (R81). -/
def decodeTrace (trace : List Event) : List Item := decodeFrom receiverInit trace

/-- The receiver at the end of a trace. -/
def receiver (trace : List Event) : Receiver := hearAll receiverInit trace

/-- The byte just clocked in, when eight bits of an open transfer have been read and the ninth clock pulse is due (R58,
R110). -/
def pendingByte (r : Receiver) : Option Byte :=
  if r.active ∧ r.bits.length = 8 then some (byteOfBits r.bits) else none

end Sys2Proof.Machine
end

