-- ==== Sys2Proof/Machine/Controller.lean ====
section
/-! DEFINITION. The reference model of the display controller (45_controller_reference): how it answers an ACK slot, and
what it does with each item it reads from the wire. -/

namespace Sys2Proof.Machine

/-- The address byte of a 7-bit address, `addr || 0` (30_encoding R60). -/
def addressByteOf (addr : BitVec 7) : Byte := addr ++ 0#1

/-- The reference slave's drive for a byte just clocked in (R110). None in the phase `WAIT_START`, of which the rule says
nothing. -/
def ackDrive (addr : BitVec 7) (c : Controller) (v : Byte) : Option SDrive :=
  match c.phase with
  | .addr => some (if v = addressByteOf addr then .low else .hiz)
  | .ctrl => some .low
  | .cmdStream => some .low
  | .dataStream => some .low
  | .notMe => some .hiz
  | .waitStart => none

/-- The argument count of an opcode; none for an opcode that is not modelled (R113). -/
def argCount (v : Byte) : Option Nat :=
  if v = 0x21#8 ∨ v = 0x22#8 then some 2
  else if [0x20#8, 0x81#8, 0x8D#8, 0xA8#8, 0xD3#8, 0xD5#8, 0xD9#8, 0xDA#8, 0xDB#8].contains v then some 1
  else if 0x40 ≤ v.toNat ∧ v.toNat ≤ 0x7F then some 0
  else if [0xA0#8, 0xA1#8, 0xA4#8, 0xA5#8, 0xA6#8, 0xA7#8, 0xAE#8, 0xAF#8, 0xC0#8, 0xC8#8, 0x2E#8].contains v then some 0
  else none

/-- The last argument bytes of a command recorded, opcodes strictly rising (R108 `settings`; log 20). -/
def putSetting : List (Byte × List Byte) → Byte → List Byte → List (Byte × List Byte)
  | [], op, args => [(op, args)]
  | (o, old) :: rest, op, args =>
    if op.toNat < o.toNat then (op, args) :: (o, old) :: rest
    else if op = o then (op, args) :: rest
    else (o, old) :: putSetting rest op args

/-- The addressing mode an argument of 0x20 selects; none for a value outside the modes of R108 (R114; log 15). -/
def addrModeOf (m : Byte) : Option AddrMode :=
  if m = 0#8 then some .horizontal
  else if m = 1#8 then some .vertical
  else if m = 2#8 then some .page
  else none

/-- `0x21 s e`, the column window (R114). -/
def setColumns (s e : Byte) (c : Controller) : Except ControllerReason Controller :=
  if s.toNat < Config.ramCols ∧ e.toNat < Config.ramCols ∧ s.toNat ≤ e.toNat then
    .ok { c with colStart := s.toNat, colEnd := e.toNat, col := s.toNat }
  else .error .argument

/-- `0x22 s e`, the page window (R114). -/
def setPages (s e : Byte) (c : Controller) : Except ControllerReason Controller :=
  if s.toNat < Config.ramPages ∧ e.toNat < Config.ramPages ∧ s.toNat ≤ e.toNat then
    .ok { c with pageStart := s.toNat, pageEnd := e.toNat, page := s.toNat }
  else .error .argument

/-- A complete command executed (R114). -/
def executeCommand (op : Byte) (args : List Byte) (c : Controller) : Except ControllerReason Controller :=
  if op = 0x21#8 then setColumns (args.getD 0 0#8) (args.getD 1 0#8) c
  else if op = 0x22#8 then setPages (args.getD 0 0#8) (args.getD 1 0#8) c
  else if op = 0x20#8 then
    match addrModeOf (args.getD 0 0#8) with
    | some m => .ok { c with addrMode := m }
    | none => .error .argument
  else if op = 0xAF#8 then .ok { c with displayOn := true }
  else if op = 0xAE#8 then .ok { c with displayOn := false }
  else .ok { c with settings := putSetting c.settings op args }

/-- A byte of a command stream, parsed across transfers (R112). -/
def commandByte (v : Byte) (c : Controller) : Except ControllerReason Controller :=
  match c.pending with
  | none =>
    match argCount v with
    | none => .error (.command v)
    | some 0 => executeCommand v [] c
    | some n => .ok { c with pending := some { opcode := v, args := [], needed := n } }
  | some p =>
    let args := p.args ++ [v]
    if args.length < p.needed then .ok { c with pending := some { p with args := args } }
    else executeCommand p.opcode args { c with pending := none }

/-- The pointer moved on inside the window, column first (R115). -/
def advancePointer (c : Controller) : Controller :=
  if c.col = c.colEnd then
    { c with col := c.colStart, page := if c.page = c.pageEnd then c.pageStart else c.page + 1 }
  else { c with col := c.col + 1 }

/-- `DataByte(v)` (R115). A pointer outside the frame buffer, which no run reaches, is refused (log 12). -/
def dataByte (v : Byte) (c : Controller) : Except ControllerReason Controller :=
  if c.addrMode ≠ .horizontal then .error .addressingMode
  else if gddramHas c.page c.col then
    .ok (advancePointer { c with gddram := memWrite c.gddram (gddramAddr c.page c.col) v })
  else .error .argument

/-- A start condition read (R111). -/
def controllerStart (c : Controller) : Controller := { c with phase := .addr }

/-- A stop condition read (R111). -/
def controllerStop (c : Controller) : Controller := { c with phase := .waitStart }

/-- A byte read (R111). -/
def controllerByte (addr : BitVec 7) (v : Byte) (c : Controller) : Except ControllerReason Controller :=
  match c.phase with
  | .addr => .ok { c with phase := if v = addressByteOf addr then .ctrl else .notMe }
  | .ctrl =>
    if v = Config.ctrlCmd then .ok { c with phase := .cmdStream }
    else if v = Config.ctrlData then .ok { c with phase := .dataStream }
    else .error (.controlByte v)
  | .cmdStream => commandByte v c
  | .dataStream => dataByte v c
  | .notMe => .ok c
  | .waitStart => .ok c

end Sys2Proof.Machine
end

