-- ==== Sys2Proof/Machine/Ops.lean ====
section
/-! DEFINITION. The named operations every meaning is built from: line levels, events, the marks of a fault and of a refusal
(the one way a run stops, 60_exceptions R124), the slave's side of the bus, the line primitives of 41_bus R66 to R70, and
the frame of a request (42_driver R86). -/

namespace Sys2Proof.Machine

/-! ### How far an operation came -/

/-- The end of a piece of an operation: it went on with a value; a mark was set and the run has no further step (R124); or
the `ABORT` policy closed the transfer and skips the rest of the operation (R88). -/
inductive Flow (α : Type) where
  | ok (a : α) (s : State)
  | halted (s : State)
  | aborted (s : State)
  deriving DecidableEq, Repr

/-- One piece and then the next, which sees its value. -/
def Flow.bind {α β : Type} (r : Flow α) (f : α → State → Flow β) : Flow β :=
  match r with
  | .ok a s => f a s
  | .halted s => .halted s
  | .aborted s => .aborted s

/-- One piece and then the next. -/
def Flow.andThen {α β : Type} (r : Flow α) (f : State → Flow β) : Flow β :=
  match r with
  | .ok _ s => f s
  | .halted s => .halted s
  | .aborted s => .aborted s

/-! ### Lines and events -/

/-- The master's driver of a line (R20). -/
def driver (s : State) (l : Line) : Drive :=
  match l with
  | .scl => s.drvScl
  | .sda => s.drvSda

/-- The slave's driver of a line (R21). -/
def slaveDriver (s : State) (l : Line) : SDrive :=
  match l with
  | .scl => s.slScl
  | .sda => s.slSda

/-- `level(l)` (R22): true is high (log 24). -/
def level (s : State) (l : Line) : Bool := !(driver s l == .low || slaveDriver s l == .low)

/-- `contention(l)` (R22). -/
def contention (s : State) (l : Line) : Bool := driver s l == .high && slaveDriver s l == .low

/-- The driver written, and the clock phase when the line is the clock (R23, R66). -/
def setDriver (l : Line) (m : Drive) (s : State) : State :=
  match l with
  | .scl => { s with drvScl := m, clkPhase := m != .low }
  | .sda => { s with drvSda := m }

/-- `emit(e)` (R15): the event at the end of the trace. -/
def emit (e : Event) (s : State) : State := { s with trace := s.trace ++ [e] }

/-- One micro-step counted (R19). -/
def tick (s : State) : State := { s with mpc := s.mpc + 1 }

/-! ### Stopping -/

/-- `raise Fault(reason)` (R124): the mark with the micro-step at which it is raised, and nothing else. -/
def raise (r : FaultReason) (s : State) : State := { s with fault := some (r, s.mpc) }

/-- A refusal: the mark and nothing else (R124, R33). -/
def refuse (r : RefusalReason) (s : State) : State := { s with refused := some r }

/-- A meaning run only at a state that has a next step: one whose marks are clear (R125). -/
def whenLive (s : State) (k : State → Host.Outcome State Fault Refusal) : Host.Outcome State Fault Refusal :=
  match s.fault, s.refused with
  | some (r, m), _ => .fault (.stopped r m)
  | none, some r => .refused (.stopped r)
  | none, none => k s

/-! ### The slave's side of the bus -/

/-- The three fields the slave's answers read and write: the reference slave's state, the answers already fixed, and the
count of draws. -/
structure Side where
  ctl     : Controller
  slaveIn : List SDrive
  draws   : Nat
  deriving DecidableEq, Repr

/-- The slave's side of a state. -/
def sideOf (s : State) : Side where
  ctl := s.ctl
  slaveIn := s.slaveIn
  draws := s.draws

/-- A state with another slave's side. -/
def withSide (p : Side) (s : State) : State := { s with ctl := p.ctl, slaveIn := p.slaveIn, draws := p.draws }

/-- One draw (R70, U2): the next answer already fixed, else the free value (log 10). -/
def drawAnswer (p : Side) : SDrive × Side :=
  match p.slaveIn with
  | d :: rest => (d, { p with slaveIn := rest })
  | [] => (if Config.freeAck p.draws then .low else .hiz, { p with draws := p.draws + 1 })

/-- What the slave of a run makes of the byte just clocked in, if there is one: the reference slave's state moved on, or
why it refuses (R111). An unconstrained slave keeps no state. -/
def controllerTakes (par : Params) (byte : Option Byte) (c : Controller) : Except ControllerReason Controller :=
  match par.slave, byte with
  | .reference, some v => controllerByte par.slaveAddr7 v c
  | _, _ => .ok c

/-- The drive the reference slave's rule gives for the byte just clocked in (R110); none where the answer is a draw: the
slave is unconstrained, or no byte was just clocked in, or R110 says nothing of the phase (log 14). -/
def controllerDrive (par : Params) (byte : Option Byte) (c : Controller) : Option SDrive :=
  match par.slave, byte with
  | .reference, some v => ackDrive par.slaveAddr7 c v
  | _, _ => none

/-- The slave's answer in an ACK slot, given the byte it has just clocked in, and its side after it has taken that byte. -/
def answerSide (par : Params) (byte : Option Byte) (p : Side) : Except ControllerReason (SDrive × Side) :=
  match controllerTakes par byte p.ctl with
  | .error r => .error r
  | .ok c =>
    match controllerDrive par byte p.ctl with
    | some d => .ok (d, { p with ctl := c })
    | none => .ok (drawAnswer { p with ctl := c })

/-- The slave's answer in an ACK slot at a state, and the state after it has taken the byte. -/
def answerByte (byte : Option Byte) (s : State) : Except ControllerReason (SDrive × State) :=
  match answerSide s.par byte (sideOf s) with
  | .error r => .error r
  | .ok (d, p) => .ok (d, withSide p s)

/-- `SLAVE.ack_drive(DecodeWire(S.trace))` (R70). -/
def slaveAnswer (s : State) : Except ControllerReason (SDrive × State) :=
  answerByte (pendingByte (receiver s.trace)) s

/-- A start or stop condition heard by the slave of a run (R111); a byte is taken at its ACK slot, not here. -/
def controllerHears (k : SlaveKind) (i : Option Item) (c : Controller) : Controller :=
  match k, i with
  | .reference, some .start => controllerStart c
  | .reference, some .stop => controllerStop c
  | _, _ => c

/-- A start or stop condition that an edge makes, told to the slave. -/
def slaveHears (i : Option Item) (s : State) : State :=
  { s with ctl := controllerHears s.par.slave i s.ctl }

/-- `emit(Edge(l, v))`, heard by the slave (log 26). -/
def emitEdge (l : Line) (v : Bool) (s : State) : State :=
  emit (.edge l v) (slaveHears (itemAt (receiver s.trace) (.edge l v)) s)

/-- An edge recorded when the level of the line differs from `old` (R31). -/
def recordEdge (old : Bool) (l : Line) (s : State) : State :=
  if level s l = old then s else emitEdge l (level s l) s

/-! ### Line primitives -/

/-- `SetLine(l, m)` (R66; log 21). -/
def setLine (l : Line) (m : Drive) (s : State) : Flow Unit :=
  let t := setDriver l m s
  if contention t l then .halted (raise (.busContention l) t)
  else .ok () (tick (recordEdge (level s l) l t))

/-- `SetLow(l)` (R67). -/
def setLow (l : Line) (s : State) : Flow Unit := setLine l .low s

/-- What `HIGH_l` makes of setting a line high (R67). -/
def highDrive (cfg : Cfg) (l : Line) : Drive :=
  match (match l with | .scl => cfg.highScl | .sda => cfg.highSda) with
  | .release => .hiz
  | .drive => .high

/-- `SetHigh(l)` (R67). -/
def setHigh (l : Line) (s : State) : Flow Unit := setLine l (highDrive s.cfg l) s

/-- `Settle()` (R68; log 23). -/
def settle (s : State) : Flow Unit := .ok () (tick (emit .settle s))

/-- `SampleSDA()` (R69). -/
def sampleSda (s : State) : Flow Bool := .ok (level s .sda) (tick (emit (.sample (level s .sda)) s))

/-- `AckSlotOpen()` (R70): the master's release and the slave's drive, one micro-step. A byte the reference slave refuses
leaves the state as it was before the micro-step, but for the mark (R124; log 16). -/
def ackSlotOpen (s : State) : Flow Unit :=
  match slaveAnswer s with
  | .error r => .halted (refuse (.controllerUnmodelled r) s)
  | .ok (d, t) => .ok () (tick (recordEdge (level s .sda) .sda { t with drvSda := .hiz, slSda := d }))

/-- `SlaveRelease()` (R70). -/
def slaveRelease (s : State) : Flow Unit :=
  .ok () (tick (recordEdge (level s .sda) .sda { s with slSda := .hiz }))

/-- The slave's side of a rising clock outside an ACK slot: a rise that completes a byte on the wire hands the byte to the
reference slave (R81, R111; log 17). It is no micro-step of its own. -/
def slaveClocked (s : State) : Flow Unit :=
  if level s .scl then .ok () s
  else
    match controllerTakes s.par (pendingByte (receiver s.trace)) s.ctl with
    | .error r => .halted (refuse (.controllerUnmodelled r) s)
    | .ok c => .ok () { s with ctl := c }

/-- `SetHigh(SCL)` outside an ACK slot. -/
def raiseClock (s : State) : Flow Unit := (slaveClocked s).andThen (setHigh .scl)

/-- `S.frame <- f`, a state write and no micro-step (R145). -/
def setFrame (f : Frame) (s : State) : Flow Unit := .ok () { s with frame := f }

/-! ### The frame of a request -/

/-- The request an operation stands for at a state: the caller buffer belongs to it when it selects it (R42; log 25). -/
def requestOf (i : Instr) (s : State) : Request where
  op := i
  buf := if i.takesBuffer then s.buf else []

/-- `OpBegin(r)` (R86). -/
def beginOp (i : Instr) (s : State) : State := emit (.opBegin (requestOf i s)) s

/-- `OpEnd(res)` and `S.mpc <- 0` (R86). -/
def endOp (res : Result) (s : State) : State := { emit (.opEnd res) s with mpc := 0 }

/-- A bus operation as a request: framed without `S.op_nack` (R86). No bus operation aborts. -/
def runBus {α : Type} (i : Instr) (body : State → Flow α) (res : α → Result) (s : State) :
    Host.Outcome State Fault Refusal :=
  whenLive s fun s =>
    match body (beginOp i s) with
    | .ok a t => .next (endOp (res a) t)
    | .halted t => .next t
    | .aborted t => .next t

/-- A driver operation as a request (R86): `S.op_nack` cleared after `OpBegin`, the result at the end, and after an abort
the operation's abort clause and the result `NACK` (R88, R89). -/
def runDriver (i : Instr) (body : State → Flow Unit) (abortClause : State → State) (res : State → Result)
    (s : State) : Host.Outcome State Fault Refusal :=
  whenLive s fun s =>
    match body { beginOp i s with opNack := false } with
    | .ok _ t => .next (endOp (res t) t)
    | .halted t => .next t
    | .aborted t => .next (endOp (.status .nack) (abortClause t))

/-- A framing byte of a transfer put on the wire by itself (R58, R88): no request, so no `OpBegin` and no `OpEnd`; no
operation is in progress after it, so `S.mpc` is 0 (R19; log 11). -/
def runWireByte (body : State → Flow Unit) (s : State) : Host.Outcome State Fault Refusal :=
  whenLive s fun s =>
    match body s with
    | .ok _ t => .next { t with mpc := 0 }
    | .halted t => .next t
    | .aborted t => .next { t with mpc := 0 }

/-! ### The next request -/

/-- The first waiting request begun: it leaves the queue and its buffer is the running request's (R134, R42). -/
def issue (e : Entry) (rest : List Entry) (s : State) : State := { s with queue := rest, buf := e.buf }

/-- A code of no table: an illegal request word sets the refusal mark and nothing else (R56); a wire byte the block never
sends is refused by name (R60, R61; log 11). -/
def unknownCode (c : Code) (s : State) : Host.Outcome State Fault Refusal :=
  match c with
  | .word w => .next (refuse (.illegalRequest w) s)
  | .wire role b => .refused (.unsentWireByte role b)

/-- The next waiting request decoded and run by `run`; with none waiting the block waits (R134, R135; log 8). -/
def nextRequest (run : Instr → State → Host.Outcome State Fault Refusal) (s : State) :
    Host.Outcome State Fault Refusal :=
  match s.queue with
  | [] => .next s
  | e :: rest =>
    match decode e.code with
    | some i => run i (issue e rest s)
    | none => unknownCode e.code s

/-- A code placed in front of the waiting requests, with no caller buffer. -/
def placeNext (c : Code) (s : State) : State := { s with queue := { code := c, buf := [] } :: s.queue }

end Sys2Proof.Machine
end

