-- ==== Sys2Proof/Machine/Operands.lean ====
section
/-! DEFINITION. The operand forms: the window of the glyph at the cursor (42_driver R99) and the bytes of the two stores
(20_memory R35, R40, R41). -/

namespace Sys2Proof.Machine

/-- The block's address byte `AB` (R85). -/
def blockAddressByte (s : State) : Byte := addressByteOf s.cfg.addr7

/-- The column start of a glyph's window, `u8(6·(col − 1))` (R99). -/
def windowStart (col : Byte) : Byte := u8 (6 * ((col.toNat : Int) - 1))

/-- The column end of a glyph's window, `u8(cs + 4)` (R99). -/
def windowEnd (col : Byte) : Byte := u8 (((windowStart col).toNat : Int) + 4)

/-- The page of a glyph's window, `u8(row − 1)` (R99). -/
def windowPage (row : Byte) : Byte := u8 ((row.toNat : Int) - 1)

/-- The cursor column after a glyph, `u8(col + 1)` (R102). -/
def nextColumn (col : Byte) : Byte := u8 ((col.toNat : Int) + 1)

/-- The store index of byte `j` of glyph `k` (R40), on naturals. -/
def glyphIndex (base : BufBase) (src : Source) (off : Byte) (k j : Nat) : Nat :=
  match src, base with
  | .store, _ => off.toNat + 5 * k + j
  | .buffer, .withOffset => off.toNat + 5 * k + j
  | .buffer, .fromZero => 5 * k + j

/-- The bytes of the selected source: the glyph store or the caller buffer (R35). -/
def sourceBytes (src : Source) (s : State) : List Byte :=
  match src with
  | .store => s.par.glyph
  | .buffer => s.buf

/-- The fault of an index off the end of a source (R40). -/
def indexFault (src : Source) (i : Nat) : FaultReason :=
  match src with
  | .store => .glyphIndexOutOfRange i
  | .buffer => .bufferIndexOutOfRange i

/-- `GlyphByte(src, off, k, j)` (R40). -/
def glyphByte (src : Source) (off : Byte) (k j : Nat) (s : State) : Except FaultReason Byte :=
  let i := glyphIndex s.cfg.bufBase src off k j
  match (sourceBytes src s)[i]? with
  | some v => .ok v
  | none => .error (indexFault src i)

end Sys2Proof.Machine
end

