-- ==== Sys2Proof/Machine/Flags.lean ====
section
/-! DEFINITION. The two flags: the result of the latest ACK sample (10_state R25, 41_bus R74) and the accumulated NACK of a
driver operation (10_state R30), with the status made from it. -/

namespace Sys2Proof.Machine

/-- The ACK Boolean of a sample: a low data line is an ACK (R25, R74). -/
def ackOf (v : Bool) : Bool := !v

/-- `S.last_ack <- ack; return ack` (R74). -/
def recordAck (ack : Bool) (s : State) : Flow Bool := .ok ack { s with lastAck := some ack }

/-- `S.op_nack <- true` (R88). -/
def noteNack (s : State) : State := { s with opNack := true }

/-- The status of a driver operation (R30, R86). -/
def statusOf (s : State) : Status := if s.opNack then .nack else .ok

/-- The result of a driver operation that returns a status (R86). -/
def statusResult (s : State) : Result := .status (statusOf s)

/-- The result of a request that returns nothing (R55). -/
def noResult (_ : State) : Result := .none

end Sys2Proof.Machine
end

