-- ==== Sys2Proof/Machine/Bus.lean ====
section
/-! DEFINITION. The six operations of the software I2C bus (41_bus R71 to R76): for each its body, which the driver's
operations run too, and its meaning as a request of the host (42_driver R86). -/

namespace Sys2Proof.Machine

/-- `BUS_INIT` (R71). -/
def busInitBody (s : State) : Flow Unit :=
  if s.frame = .opened then .halted (raise (.framingViolation .busInit) s)
  else
    (setHigh .sda s).andThen settle
      |>.andThen raiseClock |>.andThen settle
      |>.andThen (setFrame .idle)

/-- The framing check of `START`: `FramingViolation` before `BusNotIdle` (R72, R126). -/
def startFault (s : State) : Option FaultReason :=
  if s.frame ≠ .idle then some (.framingViolation .start)
  else if level s .scl = false ∨ level s .sda = false then some .busNotIdle
  else none

/-- `START` (R72). -/
def startBody (s : State) : Flow Unit :=
  match startFault s with
  | some r => .halted (raise r s)
  | none =>
    (setLow .sda s).andThen settle
      |>.andThen (setLow .scl) |>.andThen settle
      |>.andThen (setFrame .opened)

/-- The data line set to a bit (R73). -/
def setData (b : Bool) (s : State) : Flow Unit := if b then setHigh .sda s else setLow .sda s

/-- `WRITE_BIT(b)` (R73). -/
def writeBitBody (b : Bool) (s : State) : Flow Unit :=
  if s.frame ≠ .opened then .halted (raise (.framingViolation .writeBit) s)
  else
    (setData b s).andThen settle
      |>.andThen raiseClock |>.andThen settle
      |>.andThen (setLow .scl) |>.andThen settle

/-- `READ_ACK` (R74). The clock rises after the slave has taken the byte, so its rise is `SetHigh(SCL)` alone. -/
def readAckBody (s : State) : Flow Bool :=
  if s.frame ≠ .opened then .halted (raise (.framingViolation .readAck) s)
  else
    ((ackSlotOpen s).andThen settle
      |>.andThen (setHigh .scl) |>.andThen settle
      |>.andThen sampleSda).bind fun v s =>
    ((setLow .scl s).andThen slaveRelease |>.andThen settle).andThen (recordAck (ackOf v))

/-- `WRITE_BIT` of each bit of a list, in order. -/
def writeBits : List Bool → State → Flow Unit
  | [], s => .ok () s
  | b :: rest, s => (writeBitBody b s).andThen (writeBits rest)

/-- `WRITE_BYTE(v)` (R75). -/
def writeByteBody (v : Byte) (s : State) : Flow Bool :=
  if s.frame ≠ .opened then .halted (raise (.framingViolation .writeByte) s)
  else (writeBits (bitsMsb v) s).andThen readAckBody

/-- `STOP` (R76). -/
def stopBody (s : State) : Flow Unit :=
  if s.frame ≠ .opened then .halted (raise (.framingViolation .stop) s)
  else
    (setLow .sda s).andThen settle
      |>.andThen raiseClock |>.andThen settle
      |>.andThen (setHigh .sda) |>.andThen settle
      |>.andThen (setFrame .idle)

/-- The request `BUS_INIT` (R71). -/
def execBusInit (s : State) : Host.Outcome State Fault Refusal :=
  runBus .busInit busInitBody (fun _ => .none) s

/-- The request `START` (R72). -/
def execStart (s : State) : Host.Outcome State Fault Refusal :=
  runBus .start startBody (fun _ => .none) s

/-- The request `WRITE_BIT(b)` (R73). -/
def execWriteBit (b : Bool) (s : State) : Host.Outcome State Fault Refusal :=
  runBus (.writeBit b) (writeBitBody b) (fun _ => .none) s

/-- The request `READ_ACK` (R74). -/
def execReadAck (s : State) : Host.Outcome State Fault Refusal :=
  runBus .readAck readAckBody .ack s

/-- The request `WRITE_BYTE(v)` (R75). -/
def execWriteByte (v : Byte) (s : State) : Host.Outcome State Fault Refusal :=
  runBus (.writeByte v) (writeByteBody v) .ack s

/-- The request `STOP` (R76). -/
def execStop (s : State) : Host.Outcome State Fault Refusal :=
  runBus .stop stopBody (fun _ => .none) s

end Sys2Proof.Machine
end

