-- ==== Sys2Proof/Machine/Driver.lean ====
section
/-! DEFINITION. The display controller driver (42_driver): framing and ACK policy (R85 to R92), and the five driver
operations (R93 to R107). -/

namespace Sys2Proof.Machine

/-! ### Framing -/

/-- What a NACK does (R88, R89). -/
def applyNackPolicy (s : State) : Flow Unit :=
  match s.cfg.ackPolicy with
  | .ignore => .ok () (noteNack s)
  | .abort => (stopBody (noteNack s)).andThen .aborted

/-- `WB(v)` (R88). -/
def wb (v : Byte) (s : State) : Flow Unit :=
  (writeByteBody v s).bind fun ack s => if ack then .ok () s else applyNackPolicy s

/-- `WB` of each byte of a list, in order (R92). -/
def sendBytes : List Byte → State → Flow Unit
  | [], s => .ok () s
  | v :: rest, s => (wb v s).andThen (sendBytes rest)

/-- `BeginTransfer(ctl)` (R90). -/
def beginTransfer (ctl : Byte) (s : State) : Flow Unit :=
  (startBody s).andThen (wb (blockAddressByte s)) |>.andThen (wb ctl)

/-- `SendCommand(c)` (R91): one command transfer `[S AB 00 c P]`. -/
def sendCommandTransfer (c : Byte) (s : State) : Flow Unit :=
  (beginTransfer Config.ctrlCmd s).andThen (wb c) |>.andThen stopBody

/-- `SendCommand` of each byte of a list, in order. -/
def sendCommands : List Byte → State → Flow Unit
  | [], s => .ok () s
  | c :: rest, s => (sendCommandTransfer c s).andThen (sendCommands rest)

/-- `DataTransfer(v1, …, vm)` (R92) of bytes known beforehand. -/
def dataTransfer (vs : List Byte) (s : State) : Flow Unit :=
  (beginTransfer Config.ctrlData s).andThen (sendBytes vs) |>.andThen stopBody

/-- `SetColumnWindow(s, e)` (R100). -/
def setColumnWindow (first last : Byte) (s : State) : Flow Unit :=
  sendCommands [s.par.cmdColwin, first, last] s

/-- `SetPageWindow(s, e)` (R101). -/
def setPageWindow (first last : Byte) (s : State) : Flow Unit :=
  sendCommands [s.par.cmdPagewin, first, last] s

/-- The driver-state check of the public operations in `READY` (R87). -/
def whenReady (body : State → Flow Unit) (s : State) : Flow Unit :=
  if s.dstate ≠ .ready then .halted (raise .notReady s) else body s

/-- `S.dstate <- d`, a state write and no micro-step (R145). -/
def setDState (d : DState) (s : State) : Flow Unit := .ok () { s with dstate := d }

/-- An abort clause that does nothing beyond `STOP` (R93, R102, R105). -/
def noAbortClause (s : State) : State := s

/-! ### The operations -/

/-- The body of `SEND_COMMAND(c)` (R93). -/
def sendCommandBody (c : Byte) (s : State) : Flow Unit := whenReady (sendCommandTransfer c) s

/-- The body of `INIT` (R94). `INIT` is admitted in `UNINITIALIZED` and `READY` (R87); in `CONFIGURING`, in which no
request is ever issued, it raises `NotReady` (log 18). -/
def initBody (s : State) : Flow Unit :=
  if s.dstate = .configuring then .halted (raise .notReady s)
  else
    (setDState .configuring s).andThen (sendCommands (initSeq s.par.initBytes s.cfg.shape s.cfg.power))
      |>.andThen (setDState .ready)

/-- The abort clause of `INIT` (R94). -/
def initAbortClause (s : State) : State := { s with dstate := .uninitialized }

/-- The body of `SET_POSITION(col, row)` (R98). -/
def setPositionBody (col row : Byte) (s : State) : Flow Unit :=
  whenReady (fun s => .ok () { s with curCol := some col, curRow := some row }) s

/-- The bytes of one glyph, each read just before it is sent (R41, R92). -/
def sendGlyphBytes (src : Source) (off : Byte) (k : Nat) : List Nat → State → Flow Unit
  | [], s => .ok () s
  | j :: rest, s =>
    match glyphByte src off k j s with
    | .error r => .halted (raise r s)
    | .ok v => (wb v s).andThen (sendGlyphBytes src off k rest)

/-- `S.cur_col <- u8(col + 1)` (R102). -/
def advanceCursor (col : Byte) (s : State) : Flow Unit := .ok () { s with curCol := some (nextColumn col) }

/-- The fault of a glyph drawn while the cursor is not set: R126 and D31 put the framing check of the glyph's first `START`
before `CursorUnset`, and the pseudocode of R102 the other way; the model follows R126 (log 27). -/
def cursorFault (s : State) : FaultReason := (startFault s).getD .cursorUnset

/-- Glyph `k` of a run at the cursor (R102; with the cursor not set, log 27). -/
def drawGlyph (src : Source) (off : Byte) (k : Nat) (s : State) : Flow Unit :=
  match s.curCol, s.curRow with
  | some col, some row =>
    (setColumnWindow (windowStart col) (windowEnd col) s)
      |>.andThen (setPageWindow (windowPage row) (windowPage row))
      |>.andThen (beginTransfer Config.ctrlData)
      |>.andThen (sendGlyphBytes src off k [0, 1, 2, 3, 4])
      |>.andThen stopBody
      |>.andThen (advanceCursor col)
  | _, _ => .halted (raise (cursorFault s) s)

/-- `m` glyphs of a run, from glyph `k` on (R102). -/
def drawGlyphsFrom (src : Source) (off : Byte) : Nat → Nat → State → Flow Unit
  | 0, _, s => .ok () s
  | m + 1, k, s => (drawGlyph src off k s).andThen (drawGlyphsFrom src off m (k + 1))

/-- The body of `DRAW_GLYPHS(s, off, n)` (R102). -/
def drawGlyphsBody (src : Source) (off n : Byte) (s : State) : Flow Unit :=
  whenReady (drawGlyphsFrom src off n.toNat 0) s

/-- The body of `CLEAR` (R105). -/
def clearBody (s : State) : Flow Unit :=
  whenReady (fun s =>
    (setColumnWindow 0#8 (u8 ((panelWidth s.cfg.shape : Int) - 1)) s)
      |>.andThen (setPageWindow 0#8 (u8 ((panelPages s.cfg.shape : Int) - 1)))
      |>.andThen (dataTransfer (List.replicate (clearCount s.cfg.shape) 0#8))) s

/-- The request `SEND_COMMAND(c)` (R93). -/
def execSendCommand (c : Byte) (s : State) : Host.Outcome State Fault Refusal :=
  runDriver (.sendCommand c) (sendCommandBody c) noAbortClause statusResult s

/-- The request `INIT` (R94). -/
def execInit (s : State) : Host.Outcome State Fault Refusal :=
  runDriver .init initBody initAbortClause statusResult s

/-- The request `SET_POSITION(col, row)` (R98; log 19). -/
def execSetPosition (col row : Byte) (s : State) : Host.Outcome State Fault Refusal :=
  runDriver (.setPosition col row) (setPositionBody col row) noAbortClause noResult s

/-- The request `DRAW_GLYPHS(s, off, n)` (R102). -/
def execDrawGlyphs (src : Source) (off n : Byte) (s : State) : Host.Outcome State Fault Refusal :=
  runDriver (.drawGlyphs src off n) (drawGlyphsBody src off n) noAbortClause statusResult s

/-- The request `CLEAR` (R105). -/
def execClear (s : State) : Host.Outcome State Fault Refusal :=
  runDriver .clear clearBody noAbortClause statusResult s

end Sys2Proof.Machine
end

