-- ==== Sys2Proof/Machine/Framing.lean ====
section
/-! DEFINITION. The three wire bytes of the opcode table (30_encoding R60, R61): the framing bytes of a transfer, put on the
wire as the driver's `WB` puts them (42_driver R88, R90; log 11). -/

namespace Sys2Proof.Machine

/-- `ADDRESS_BYTE`: `WB(a || 0)` (R60, R90). -/
def execAddressByte (a : BitVec 7) (s : State) : Host.Outcome State Fault Refusal :=
  runWireByte (wb (addressByteOf a)) s

/-- `CTRL_CMD`: `WB(0x00)` (R61, R90). -/
def execCtrlCmd (s : State) : Host.Outcome State Fault Refusal :=
  runWireByte (wb Config.ctrlCmd) s

/-- `CTRL_DATA`: `WB(0x40)` (R61, R90). -/
def execCtrlData (s : State) : Host.Outcome State Fault Refusal :=
  runWireByte (wb Config.ctrlData) s

end Sys2Proof.Machine
end

