-- ==== Sys2Proof/Machine/Dispatch.lean ====
section
/-! DEFINITION. One arm for each constructor of Instr, each a direct call of its meaning. -/

namespace Sys2Proof.Machine

def exec (i : Instr) (s : State) : Host.Outcome State Fault Refusal :=
  match i with
  | .busInit => Sys2Proof.Machine.execBusInit s
  | .start => Sys2Proof.Machine.execStart s
  | .writeBit b => Sys2Proof.Machine.execWriteBit b s
  | .readAck => Sys2Proof.Machine.execReadAck s
  | .writeByte v => Sys2Proof.Machine.execWriteByte v s
  | .stop => Sys2Proof.Machine.execStop s
  | .sendCommand c => Sys2Proof.Machine.execSendCommand c s
  | .init => Sys2Proof.Machine.execInit s
  | .setPosition col row => Sys2Proof.Machine.execSetPosition col row s
  | .drawGlyphs src off n => Sys2Proof.Machine.execDrawGlyphs src off n s
  | .clear => Sys2Proof.Machine.execClear s
  | .addressByte a => Sys2Proof.Machine.execAddressByte a s
  | .ctrlCmd => Sys2Proof.Machine.execCtrlCmd s
  | .ctrlData => Sys2Proof.Machine.execCtrlData s

end Sys2Proof.Machine
end

