-- ==== Sys2Proof/Machine/Step.lean ====
section
/-! DEFINITION. One step: the next request the host has issued, decoded and run to its end or to its fault (00_scope R9,
60_exceptions R134), and the placing of an instruction where the next step takes it. -/

namespace Sys2Proof.Machine

/-- One step of a state that has one (R125): the next waiting request, if there is one (log 22). -/
def step (s : State) : Host.Outcome State Fault Refusal :=
  whenLive s (nextRequest exec)

/-- The instruction whose bits are `w` put where the next step takes it (log 8). -/
def State.withFetchWord (s : State) (nbits w : Nat) : State :=
  placeNext (codeOfTable nbits w) s

end Sys2Proof.Machine
end

