-- ==== Sys2Proof/Safety.lean ====
section
/-! DEFINITION. The terms claims are stated in: live and final states (70_reset_and_hazards R147), the invariants of the bus
(41_bus R77, R78) and of the reference slave (45 R108), the events of each piece of a transfer, and the bytes a trace puts
on the wire (41_bus R81). -/

namespace Sys2Proof.Machine

/-! ### States -/

/-- A state that has a further step (R125). -/
abbrev Live (s : State) : Prop := s.fault = none ∧ s.refused = none

/-- The run is over: the host's list of requests is exhausted (R147). -/
abbrev Ended (s : State) : Prop := s.queue = []

/-- The end state of a final run (R147): the list is exhausted, no mark is set, no operation is in progress and no transfer
is open. -/
abbrev Final (s : State) : Prop := Ended s ∧ Live s ∧ s.mpc = 0 ∧ s.frame ≠ .opened

/-- The host's duty for a run of `n` glyphs at (col, row): inside the panel's character grid (R143). -/
abbrev InGrid (shape : Shape) (col row n : Byte) : Prop :=
  1 ≤ col.toNat ∧ col.toNat + n.toNat - 1 ≤ gridCols shape ∧ 1 ≤ row.toNat ∧ row.toNat ≤ gridRows shape

/-- The lines agree with the clock phase and with what a receiver has read from the trace; the slave does not drive the
clock (R21, R23, R81). -/
abbrev LinesOk (s : State) : Prop :=
  s.slScl = .hiz ∧ s.clkPhase = level s .scl ∧ (receiver s.trace).scl = level s .scl ∧
    (receiver s.trace).sda = level s .sda

/-- The bus between requests (R77): the slave drives nothing; no transfer is open on idle lines; an open transfer has the
clock low; a receiver agrees. -/
abbrev BusOk (s : State) : Prop :=
  LinesOk s ∧ s.slSda = .hiz ∧
    (s.frame ≠ .opened → level s .scl = true ∧ level s .sda = true ∧ (receiver s.trace).active = false) ∧
    (s.frame = .opened → level s .scl = false ∧ (receiver s.trace).active = true ∧ (receiver s.trace).bits.length ≤ 8)

/-- A line whose high is a release is never driven high (R67). -/
abbrev ReleaseOk (s : State) : Prop :=
  (s.cfg.highScl = .release → s.drvScl ≠ .high) ∧ (s.cfg.highSda = .release → s.drvSda ≠ .high)

/-- An open transfer at the place where a byte begins. -/
abbrev AtByte (s : State) : Prop :=
  BusOk s ∧ s.frame = .opened ∧ (receiver s.trace).bits = []

/-- A bus on which a transfer can begin. -/
abbrev AtIdle (s : State) : Prop := BusOk s ∧ s.frame = .idle

/-- The driver ready to send: a live state, an idle bus, `READY`. -/
abbrev CanSend (s : State) : Prop := Live s ∧ AtIdle s ∧ s.dstate = .ready

/-! ### The data line and the clock (R78) -/

/-- Whether a data-line edge while the clock is high is one that opens a transfer or closes one. -/
def edgeFramed (r : Receiver) (e : Event) : Bool :=
  match e with
  | .edge .sda v => !r.scl || v == r.active
  | _ => true

/-- Whether every event of a list keeps that. -/
def dataStableFrom : Receiver → List Event → Bool
  | _, [] => true
  | r, e :: es => edgeFramed r e && dataStableFrom (hear r e) es

/-- The data line changes while the clock is high only to open or to close a transfer (R78, R139). -/
def dataStable (trace : List Event) : Bool := dataStableFrom receiverInit trace

/-! ### The reference slave (R108) -/

/-- A partial command has fewer arguments than its opcode takes (R112, R113). -/
abbrev PendingOk (c : Controller) : Prop :=
  ∀ p ∈ c.pending, p.args.length < p.needed ∧ argCount p.opcode = some p.needed

/-- The pointer is inside the window and the window inside the frame buffer (R108, R114, R115). -/
abbrev WindowOk (c : Controller) : Prop :=
  c.colStart ≤ c.col ∧ c.col ≤ c.colEnd ∧ c.colEnd < Config.ramCols ∧
    c.pageStart ≤ c.page ∧ c.page ≤ c.pageEnd ∧ c.pageEnd < Config.ramPages

/-- The settings are one entry an opcode, opcodes strictly rising (R108). -/
abbrev SettingsOk (c : Controller) : Prop := c.settings.Pairwise (fun a b => a.1.toNat < b.1.toNat)

/-- The invariant of the reference slave's state. -/
abbrev ControllerOk (c : Controller) : Prop := PendingOk c ∧ WindowOk c ∧ memWf c.gddram = true ∧ SettingsOk c

/-! ### The events of a transfer -/

/-- The edge of a line that goes from `old` to `new`, if it moves (R31). -/
def changeEvents (l : Line) (old new : Bool) : List Event := if old = new then [] else [.edge l new]

/-- The events of one data bit, from the data level `sda` (R73). -/
def bitEvents (sda b : Bool) : List Event :=
  changeEvents .sda sda b ++ [.settle, .edge .scl true, .settle, .edge .scl false, .settle]

/-- The events of a run of data bits. -/
def bitsEvents : Bool → List Bool → List Event
  | _, [] => []
  | sda, b :: rest => bitEvents sda b ++ bitsEvents b rest

/-- The level of a data line that the master has released and the slave drives. -/
def releasedLevel (d : SDrive) : Bool := d != .low

/-- The events of an ACK slot answered by `d`, from the data level `sda` (R74, R70). -/
def ackEvents (sda : Bool) (d : SDrive) : List Event :=
  changeEvents .sda sda (releasedLevel d) ++
    [.settle, .edge .scl true, .settle, .sample (releasedLevel d), .edge .scl false] ++
    changeEvents .sda (releasedLevel d) true ++ [.settle]

/-- The events of one byte answered by `d`, from the data level `sda` (R75). -/
def byteEvents (sda : Bool) (v : Byte) (d : SDrive) : List Event :=
  bitsEvents sda (bitsMsb v) ++ ackEvents (v.getLsbD 0) d

/-- The events of a start condition (R72). -/
def startEvents : List Event := [.edge .sda false, .settle, .edge .scl false, .settle]

/-- The events of a stop condition, from the data level `sda` (R76). -/
def stopEvents (sda : Bool) : List Event :=
  changeEvents .sda sda false ++ [.settle, .edge .scl true, .settle, .edge .sda true, .settle]

/-! ### The slave along a transfer -/

/-- A symbol of the wire: what the master sends, with no ACK bit. -/
inductive Sym where
  | start
  | byte (v : Byte)
  | stop
  deriving DecidableEq, Repr

/-- The slave's side and its answers over a run of symbols: what it hears of each start and stop, and what it answers to
each byte in its ACK slot (R70, R111). An error is the reference slave's first refusal. -/
def slaveRun (par : Params) : List Sym → Side → Except ControllerReason (List SDrive × Side)
  | [], p => .ok ([], p)
  | .start :: rest, p => slaveRun par rest { p with ctl := controllerHears par.slave (some .start) p.ctl }
  | .stop :: rest, p => slaveRun par rest { p with ctl := controllerHears par.slave (some .stop) p.ctl }
  | .byte v :: rest, p =>
    match answerSide par (some v) p with
    | .error r => .error r
    | .ok (d, q) =>
      match slaveRun par rest q with
      | .error r => .error r
      | .ok (ds, q') => .ok (d :: ds, q')

/-! ### The state after each piece of a transfer -/

/-- The drive that puts a bit on the data line (R73, R67). -/
def dataDrive (cfg : Cfg) (b : Bool) : Drive := if b then highDrive cfg .sda else .low

/-- What the slave makes of a clock that rises outside an ACK slot (R81, R111): its state moved on, or why it refuses. -/
def clockTakes (s : State) : Except ControllerReason Controller :=
  controllerTakes s.par (pendingByte (receiver s.trace)) s.ctl

/-- After `BUS_INIT` on idle lines (R71). -/
def afterBusInit (s : State) : State :=
  { s with
    drvSda := highDrive s.cfg .sda, drvScl := highDrive s.cfg .scl, clkPhase := true, frame := .idle
    trace := s.trace ++ [.settle, .settle], mpc := s.mpc + 4 }

/-- After a start condition (R72). -/
def afterStart (s : State) : State :=
  { s with
    drvSda := .low, drvScl := .low, clkPhase := false, frame := .opened
    ctl := controllerHears s.par.slave (some .start) s.ctl
    trace := s.trace ++ startEvents, mpc := s.mpc + 4 }

/-- After one data bit (R73), the slave's state being `c` once the clock has risen. -/
def afterBit (b : Bool) (c : Controller) (s : State) : State :=
  { s with
    drvSda := dataDrive s.cfg b, drvScl := .low, clkPhase := false, ctl := c
    trace := s.trace ++ bitEvents (level s .sda) b, mpc := s.mpc + 6 }

/-- The state after a run of data bits from any place in a byte, the reference slave taking the byte that one of them
completes (R73, R81; log 17); an error is the slave's refusal. -/
def sendBits : List Bool → State → Except ControllerReason State
  | [], s => .ok s
  | b :: rest, s =>
    match clockTakes s with
    | .error r => .error r
    | .ok c => sendBits rest (afterBit b c s)

/-- After an ACK slot answered by `d` (R74, R70), `u` being the state once the slave has taken the byte. -/
def afterAck (d : SDrive) (u : State) : State :=
  { u with
    drvSda := .hiz, drvScl := .low, clkPhase := false, slSda := .hiz, lastAck := some (d == .low)
    trace := u.trace ++ ackEvents (level u .sda) d, mpc := u.mpc + 8 }

/-- After one byte answered by `d` (R75), `u` being the state once the slave has taken the byte. -/
def afterByte (v : Byte) (d : SDrive) (u : State) : State :=
  { u with
    drvSda := .hiz, drvScl := .low, clkPhase := false, slSda := .hiz, lastAck := some (d == .low)
    trace := u.trace ++ byteEvents (level u .sda) v d, mpc := u.mpc + 56 }

/-- After a stop condition (R76), the slave's state being `c` once the clock has risen. -/
def afterStop (c : Controller) (s : State) : State :=
  { s with
    drvSda := highDrive s.cfg .sda, drvScl := highDrive s.cfg .scl, clkPhase := true, frame := .idle
    ctl := controllerHears s.par.slave (some .stop) c
    trace := s.trace ++ stopEvents (level s .sda), mpc := s.mpc + 6 }

/-! ### The state after whole transfers -/

/-- The events of a run of symbols whose bytes are answered by `ds` in turn, from the data level `sda`. -/
def eventsOf : Bool → List Sym → List SDrive → List Event
  | _, [], _ => []
  | _, .start :: rest, ds => startEvents ++ eventsOf false rest ds
  | sda, .stop :: rest, ds => stopEvents sda ++ eventsOf true rest ds
  | sda, .byte v :: rest, d :: ds => byteEvents sda v d ++ eventsOf true rest ds
  | _, .byte _ :: _, [] => []

/-- The micro-steps of a run of symbols (R145). -/
def stepsOf : List Sym → Nat
  | [] => 0
  | .start :: rest => 4 + stepsOf rest
  | .byte _ :: rest => 56 + stepsOf rest
  | .stop :: rest => 6 + stepsOf rest

/-- Whether one of the answers is a NACK. -/
def nacked (ds : List SDrive) : Bool := ds.any (fun d => d == .hiz)

/-- The result of the latest ACK sample after answers `ds` (R25). -/
def lastAckAfter : Option Bool → List SDrive → Option Bool
  | old, [] => old
  | _, d :: ds => lastAckAfter (some (d == .low)) ds

/-- The status of a driver operation whose bytes were answered by `ds` (R30). -/
def statusAfter (ds : List SDrive) : Status := if nacked ds then .nack else .ok

/-- A driver operation begun (R86). -/
def begun (i : Instr) (s : State) : State := { beginOp i s with opNack := false }

/-- After one or more whole transfers sent by the driver, each byte answered in turn by `ds`, the slave's side being `q`. -/
def afterTransfers (syms : List Sym) (ds : List SDrive) (q : Side) (s : State) : State :=
  { withSide q s with
    drvSda := highDrive s.cfg .sda, drvScl := highDrive s.cfg .scl, clkPhase := true, frame := .idle
    lastAck := lastAckAfter s.lastAck ds, opNack := s.opNack || nacked ds
    trace := s.trace ++ eventsOf true syms ds, mpc := s.mpc + stepsOf syms }

/-! ### The bytes on the wire -/

/-- An item without its ACK bit. -/
def symOf (i : Item) : Sym :=
  match i with
  | .start => .start
  | .byte v _ => .byte v
  | .stop => .stop

/-- What the master has put on the wire in a trace (R81). -/
def sent (trace : List Event) : List Sym := (decodeTrace trace).map symOf

/-- One transfer `[S b1 b2 … P]` of given bytes (R59). -/
def transferOf (bytes : List Byte) : List Sym := .start :: bytes.map .byte ++ [.stop]

/-- The command transfer `[S AB 00 c P]` (R91). -/
def commandOf (ab c : Byte) : List Sym := transferOf [ab, Config.ctrlCmd, c]

/-- The command transfers of a list of bytes, one byte each (R91). -/
def commandsOf (ab : Byte) (cs : List Byte) : List Sym := cs.flatMap (commandOf ab)

/-- The data transfer `[S AB 40 v1 … vm P]` (R92). -/
def dataOf (ab : Byte) (vs : List Byte) : List Sym := transferOf (ab :: Config.ctrlData :: vs)

/-- The seven transfers of one glyph at (col, row) (R102). -/
def glyphOf (par : Params) (ab col row : Byte) (vs : List Byte) : List Sym :=
  commandsOf ab [par.cmdColwin, windowStart col, windowEnd col] ++
    commandsOf ab [par.cmdPagewin, windowPage row, windowPage row] ++ dataOf ab vs

/-- The transfers of one glyph up to the bytes `vs` of its data transfer, which is left open (R102, R124). -/
def glyphOpenOf (par : Params) (ab col row : Byte) (vs : List Byte) : List Sym :=
  commandsOf ab [par.cmdColwin, windowStart col, windowEnd col] ++
    commandsOf ab [par.cmdPagewin, windowPage row, windowPage row] ++
    .start :: .byte ab :: .byte Config.ctrlData :: vs.map .byte

/-- The five bytes of glyph `k` of a run (R40), a byte off the end left out. -/
def glyphBytes (src : Source) (off : Byte) (k : Nat) (s : State) : List Byte :=
  [0, 1, 2, 3, 4].filterMap (fun j => (sourceBytes src s)[glyphIndex s.cfg.bufBase src off k j]?)

/-- The transfers of a run of `m` glyphs from glyph `k` on, the cursor column moving on by one a glyph (R102). -/
def glyphsOf (src : Source) (off : Byte) (s : State) (row : Byte) : Nat → Nat → Byte → List Sym
  | 0, _, _ => []
  | m + 1, k, col =>
    glyphOf s.par (blockAddressByte s) col row (glyphBytes src off k s) ++
      glyphsOf src off s row m (k + 1) (nextColumn col)

/-- The seven transfers of a clear (R105). -/
def clearOf (s : State) : List Sym :=
  commandsOf (blockAddressByte s) [s.par.cmdColwin, 0#8, u8 ((panelWidth s.cfg.shape : Int) - 1)] ++
    commandsOf (blockAddressByte s) [s.par.cmdPagewin, 0#8, u8 ((panelPages s.cfg.shape : Int) - 1)] ++
    dataOf (blockAddressByte s) (List.replicate (clearCount s.cfg.shape) 0#8)

/-- What the driver puts on the wire for an operation when nothing cuts it short (R93, R94, R102, R105). -/
def scriptOf (i : Instr) (s : State) : List Sym :=
  match i with
  | .sendCommand c => commandOf (blockAddressByte s) c
  | .init => commandsOf (blockAddressByte s) (initSeq s.par.initBytes s.cfg.shape s.cfg.power)
  | .drawGlyphs src off n =>
    match s.curCol, s.curRow with
    | some col, some row => glyphsOf src off s row n.toNat 0 col
    | _, _ => []
  | .clear => clearOf s
  | _ => []

/-- Every byte of a run of `n` glyphs is inside its source (R40). -/
abbrev GlyphsIn (src : Source) (off : Byte) (n : Nat) (s : State) : Prop :=
  ∀ k < n, ∀ j < 5, glyphIndex s.cfg.bufBase src off k j < (sourceBytes src s).length

/-- The four driver operations that move the lines (R86). -/
abbrev MovesLines (i : Instr) : Prop :=
  match i with
  | .sendCommand _ => True
  | .init => True
  | .drawGlyphs _ _ _ => True
  | .clear => True
  | _ => False

/-- The states an operation is admitted in (R87). -/
abbrev Admitted (i : Instr) (s : State) : Prop :=
  match i with
  | .init => s.dstate ≠ .configuring
  | _ => s.dstate = .ready

/-! ### The reference slave at the block's address -/

/-- The run's slave is the reference slave and answers at the block's address (R108, R110). -/
abbrev Paired (s : State) : Prop := s.par.slave = .reference ∧ s.par.slaveAddr7 = s.cfg.addr7

/-- The window commands have their default opcodes (R100, R101; log 2). -/
abbrev DefaultWindows (s : State) : Prop := s.par.cmdColwin = 0x21#8 ∧ s.par.cmdPagewin = 0x22#8

/-- The reference slave as `INIT` leaves it for the drawing that follows: no partial command, horizontal addressing
(R112, R118). -/
abbrev Drawable (s : State) : Prop := s.ctl.pending = none ∧ s.ctl.addrMode = .horizontal

/-! ### Clock pulses (R79) -/

/-- The events inside each high phase of the clock, phase by phase; `some acc` inside a phase whose events so far are
`acc`. -/
def highPhases : Option (List Event) → List Event → List (List Event)
  | _, [] => []
  | none, e :: es => highPhases (if e = .edge .scl true then some [] else none) es
  | some acc, e :: es =>
    if e = .edge .scl false then acc :: highPhases none es else highPhases (some (acc ++ [e])) es

/-- Whether an event is a sample of the data line (R69). -/
def isSample (e : Event) : Bool :=
  match e with
  | .sample _ => true
  | _ => false

/-! ### Runs (R147) -/

/-- A block at reset whose host will issue the requests `q`, an unconstrained slave answering `answers` first. -/
def boot (cfg : Cfg) (par : Params) (q : List Entry) (answers : List SDrive) : State :=
  { State.resetWith cfg par with queue := q, slaveIn := answers }

/-- The run of the host's list `q`: one step a request, from reset, to the end of the list or to a mark (R147). -/
def runOf (cfg : Cfg) (par : Params) (q : List Entry) (answers : List SDrive) : Host.Outcome State Fault Refusal :=
  Host.Core.run core q.length (boot cfg par q answers)

/-- The run of the host's list ends in `t`, and is final (R147). -/
def FinalRun (cfg : Cfg) (par : Params) (q : List Entry) (answers : List SDrive) (t : State) : Prop :=
  runOf cfg par q answers = .next t ∧ Final t

/-! ### Micro-steps (R145) -/

/-- From `s` to `t` a piece took `n` micro-steps, `k` of them settle delays. -/
abbrev Spent (n k : Nat) (s t : State) : Prop :=
  t.mpc = s.mpc + n ∧ t.trace.count .settle = s.trace.count .settle + k

/-- The settle delays of an operation that runs to its end, from the table of R145; the table has no row for a wire byte. -/
def settlesOf (i : Instr) (shape : Shape) : Option Nat :=
  match i with
  | .busInit => some 2
  | .start => some 2
  | .writeBit _ => some 3
  | .readAck => some 3
  | .writeByte _ => some 27
  | .stop => some 3
  | .sendCommand _ => some 86
  | .init => some 2150
  | .setPosition _ _ => some 0
  | .drawGlyphs _ _ n => some (710 * n.toNat)
  | .clear => some (match shape with | .s128x32 => 14399 | .s128x64 => 28223 | .s96x16 => 5759)
  | .addressByte _ => none
  | .ctrlCmd => none
  | .ctrlData => none

end Sys2Proof.Machine
end

