-- ==== Sys2Proof/Certificates/Slice0/Obligations.lean ====
section
/-! DEFINITION. The statements for the provers, each from the rules of spec/ its docstring names. -/

open Sys2Proof Sys2Proof.Machine

/-! ### Encodings (30_encoding, 10_state section 3) -/

/-- Words and wire bytes written out from the tables decode to the operations they stand for (R55, R57, R60, R61). -/
def Obligations.SampleCodesDecode : Prop :=
  decode (.word 0x01000000#32) = some .busInit ∧ decode (.word 0x02000000#32) = some .start ∧
    decode (.word 0x03000001#32) = some (.writeBit true) ∧ decode (.word 0x04000000#32) = some .readAck ∧
    decode (.word 0x05000078#32) = some (.writeByte 0x78#8) ∧ decode (.word 0x06000000#32) = some .stop ∧
    decode (.word 0x100000AF#32) = some (.sendCommand 0xAF#8) ∧ decode (.word 0x11000000#32) = some .init ∧
    decode (.word 0x12000102#32) = some (.setPosition 1#8 2#8) ∧
    decode (.word 0x1300380A#32) = some (.drawGlyphs .store 56#8 10#8) ∧
    decode (.word 0x13010002#32) = some (.drawGlyphs .buffer 0#8 2#8) ∧ decode (.word 0x14000000#32) = some .clear ∧
    decode (.wire .address 0x78#8) = some (.addressByte 0x3C#7) ∧ decode (.wire .control 0x00#8) = some .ctrlCmd ∧
    decode (.wire .control 0x40#8) = some .ctrlData ∧ decode (.word 0x00000000#32) = none ∧
    decode (.word 0x03000002#32) = none ∧ decode (.word 0x13020000#32) = none

/-- Decoding the code of an operation gives the operation, for every operation and every operand (R54, R55, R57, R60,
R61). -/
def Obligations.DecodeOfEncode : Prop := ∀ i : Instr, decode (encode i) = some i

/-- A code that decodes is the code of the operation it decodes to, so every code has one meaning at most, and decoding
refuses exactly what the tables do not give (R54, R56, R57, R60, R61). -/
def Obligations.EncodeOfDecode : Prop :=
  (∀ (c : Code) (i : Instr), decode c = some i → encode i = c) ∧ ∀ c : Code, decode c = none ↔ c.wellFormed = false

/-- A configuration word is refused exactly when bit 7 or bit 15 is 1 or the shape is 11, and then no block is constructed
(R27). -/
def Obligations.ConfigWordRefused : Prop :=
  ∀ (w : BitVec 16) (par : Params),
    State.construct w par = none ↔ w.getLsbD 7 = true ∨ w.getLsbD 15 = true ∨ w.extractLsb' 8 2 = 3#2

/-- A legal configuration word and the configuration it stands for determine each other, and a block constructed from it
is in reset state with that configuration (R26, R134). -/
def Obligations.ConfigWordRoundTrip : Prop :=
  (∀ c : Cfg, decodeCfg (encodeCfg c) = some c) ∧
    (∀ (w : BitVec 16) (c : Cfg), decodeCfg w = some c → encodeCfg c = w) ∧
    ∀ (c : Cfg) (par : Params), State.construct (encodeCfg c) par = some (State.resetWith c par)

/-! ### One step (00_scope R9, 60_exceptions R134) -/

/-- The next waiting request is decoded and run, whole: a step at it is the operation's meaning, from the state in which
the request has left the queue and its buffer is the running request's. An instruction placed with `withFetchWord` is the
next request (log 8). -/
def Obligations.StepRunsRequest : Prop :=
  (∀ (s : State) (e : Entry) (rest : List Entry) (i : Instr), Live s → s.queue = e :: rest → decode e.code = some i →
      step s = exec i { s with queue := rest, buf := e.buf }) ∧
    ∀ (s : State) (nbits w : Nat) (i : Instr), Live s → decodeTableWord nbits w = some i →
      step (s.withFetchWord nbits w) = exec i { s with buf := [] }

/-- A state with a mark has no step: neither a step nor any operation leads on from it (R125; the outcome names are the
model's, log 13). With no request waiting the block waits and the state does not change: the model's choice for R135 "it
waits for the host's first request" (log 8). A run of the host's list that ends with no mark has exhausted it and is between
requests, so it is final exactly when it has no mark and no transfer is open (R147). -/
def Obligations.StepsThatRunNothing : Prop :=
  (∀ (s t : State) (i : Instr), ¬ Live s → step s ≠ .next t ∧ exec i s ≠ .next t) ∧
    (∀ s : State, Live s → s.queue = [] → step s = .next s) ∧
    ∀ (cfg : Cfg) (par : Params) (q : List Entry) (answers : List SDrive) (t : State),
      runOf cfg par q answers = .next t →
        (Live t → t.queue = [] ∧ t.mpc = 0) ∧ (FinalRun cfg par q answers t ↔ Live t ∧ t.frame ≠ .opened)

/-- An illegal request word sets the refusal mark and changes nothing else: no line moves, no event is recorded (R56). -/
def Obligations.IllegalWordRefused : Prop :=
  ∀ (s : State) (w : Word) (buf : List Byte) (rest : List Entry), Live s →
    s.queue = { code := .word w, buf := buf } :: rest → requestWordLegal w = false →
      step s = .next { s with refused := some (.illegalRequest w) }

/-- Every field of the block at reset, for every configuration and parameters (R34). -/
def Obligations.ResetValues : Prop :=
  ∀ (cfg : Cfg) (par : Params),
    let s := State.resetWith cfg par
    s.drvScl = .hiz ∧ s.drvSda = .hiz ∧ s.slScl = .hiz ∧ s.slSda = .hiz ∧ level s .scl = true ∧ level s .sda = true ∧
      s.clkPhase = true ∧ s.frame = .uninit ∧ s.lastAck = none ∧ s.dstate = .uninitialized ∧ s.curCol = none ∧
      s.curRow = none ∧ s.opNack = false ∧ s.mpc = 0 ∧ s.trace = [] ∧ s.fault = none ∧ s.refused = none ∧
      s.cfg = cfg ∧ s.ctl = Controller.reset

/-- The reference slave at its reset (R109): every byte of the frame buffer holds a free value, and there is none outside it
(log 7). -/
def Obligations.SlaveResetValues : Prop :=
  let c := Controller.reset
  c.phase = .waitStart ∧ c.pending = none ∧ c.addrMode = .page ∧ c.colStart = 0 ∧ c.colEnd = 127 ∧ c.pageStart = 0 ∧
    c.pageEnd = 7 ∧ c.col = 0 ∧ c.page = 0 ∧ c.displayOn = false ∧ c.settings = [] ∧
    ∀ p x, gddramRead c p x = if p < 8 ∧ x < 128 then some (Config.freeGddram (gddramAddr p x)) else none

/-! ### Invariants every step keeps -/

/-- The bus invariant of R77 is kept by every step, whatever it runs and however it ends: between requests an idle bus has
both lines high, an open transfer has the clock low, the slave drives nothing, the clock phase is the clock level (R23), and
a receiver that read the recorded edges agrees with the lines (R31, R81). So is, from every state, that a line whose high is
a release is never driven high (R67). -/
def Obligations.BusInvariantKept : Prop :=
  (∀ s t : State, BusOk s → step s = .next t → BusOk t) ∧
    ∀ s t : State, ReleaseOk s → step s = .next t → ReleaseOk t

/-- The invariants of the bus and of the reference slave hold at reset, for every configuration (R34, R109). -/
def Obligations.InvariantsAtReset : Prop :=
  ∀ (cfg : Cfg) (par : Params), BusOk (State.resetWith cfg par) ∧ ReleaseOk (State.resetWith cfg par) ∧
    dataStable (State.resetWith cfg par).trace = true ∧ ControllerOk (State.resetWith cfg par).ctl

/-- On a bus that keeps R77 every step keeps the data line stable while the clock is high, but for start and stop
conditions (R78, R139). -/
def Obligations.DataStableKept : Prop :=
  ∀ s t : State, BusOk s → dataStable s.trace = true → step s = .next t → dataStable t.trace = true

/-- In every trace the rules make, from any construction, for any requests of the host and any answers of the slave, the
data line changes while the clock is high only at a start or a stop condition (R78). -/
def Obligations.EveryTraceDataStable : Prop :=
  ∀ (cfg : Cfg) (par : Params) (q : List Entry) (answers : List SDrive) (n : Nat) (t : State),
    Host.Core.run core n (boot cfg par q answers) = .next t → dataStable t.trace = true

/-- The reference slave's state keeps its invariant at every step from every state: a partial command lacks arguments
(R112, R113), the pointer is inside the window and the window inside the frame buffer (R114, R115), the frame buffer keeps
its canonical form, and the settings hold one entry an opcode, opcodes strictly rising (R108). -/
def Obligations.SlaveInvariantKept : Prop :=
  ∀ s t : State, ControllerOk s.ctl → step s = .next t → ControllerOk t.ctl

/-! ### What operations never write -/

/-- No operation, from any state, writes the configuration, the parameters, the slave's clock drive, the waiting requests
or their buffer, and none removes an event; only `SET_POSITION` writes the cursor row, only it and `DRAW_GLYPHS` the cursor
column, and only `INIT` the driver state (R21, R26, R28, R29, R31, R42). -/
def Obligations.OnlyTheirWriters : Prop :=
  ∀ (i : Instr) (s t : State), exec i s = .next t →
    (t.cfg = s.cfg ∧ t.par = s.par ∧ t.slScl = s.slScl ∧ t.queue = s.queue ∧ t.buf = s.buf ∧ s.trace <+: t.trace) ∧
    ((∀ col row, i ≠ .setPosition col row) → t.curRow = s.curRow) ∧
    ((∀ col row, i ≠ .setPosition col row) → (∀ src off n, i ≠ .drawGlyphs src off n) → t.curCol = s.curCol) ∧
    (i ≠ .init → t.dstate = s.dstate)

/-- The frame of the bus operations, from any state: none writes the driver's session or `op_nack`; one without an ACK slot
writes neither `last_ack`, nor the slave's data drive, nor its answers; and `WRITE_BIT`, `READ_ACK` and `WRITE_BYTE` leave the
framing state (R24, R25, R30). -/
def Obligations.BusOperationFrame : Prop :=
  ∀ s t : State,
    (∀ i ∈ [Instr.busInit, .start, .writeBit false, .writeBit true, .stop], exec i s = .next t →
      t.lastAck = s.lastAck ∧ t.slSda = s.slSda ∧ t.slaveIn = s.slaveIn ∧ t.draws = s.draws ∧ t.opNack = s.opNack ∧
        t.dstate = s.dstate ∧ t.curCol = s.curCol ∧ t.curRow = s.curRow) ∧
    (∀ i, i = .readAck ∨ (∃ v, i = .writeByte v) → exec i s = .next t →
      t.opNack = s.opNack ∧ t.dstate = s.dstate ∧ t.curCol = s.curCol ∧ t.curRow = s.curRow) ∧
    ∀ i, i = .readAck ∨ (∃ v, i = .writeByte v) ∨ (∃ b, i = .writeBit b) → exec i s = .next t → t.frame = s.frame

/-- The frame of the frame buffer, on any bus that keeps R77: `BUS_INIT`, `START`, `SEND_COMMAND`, `INIT` and `SET_POSITION`
leave every byte of it; the other bus operations leave every byte but the one at the pointer, and that one too unless the
reference slave is reading data (R111, R115). -/
def Obligations.MemoryFrame : Prop :=
  ∀ s t : State, BusOk s →
    (∀ i, i = .busInit ∨ i = .start ∨ (∃ c, i = .sendCommand c) ∨ i = .init ∨ (∃ col row, i = .setPosition col row) →
      exec i s = .next t → t.ctl.gddram = s.ctl.gddram) ∧
    ∀ i, i = .readAck ∨ i = .stop ∨ (∃ v, i = .writeByte v) ∨ (∃ b, i = .writeBit b) → exec i s = .next t →
      ∀ a, (s.par.slave = .reference → s.ctl.phase = .dataStream → a ≠ gddramAddr s.ctl.page s.ctl.col) →
        memRead t.ctl.gddram a = memRead s.ctl.gddram a

/-- A fault or a refusal is precise: its micro-step is the one the mark names, only one mark is set, and the operation it
ends records no `OpEnd` (R124, R125). -/
def Obligations.MarksArePrecise : Prop :=
  ∀ (i : Instr) (s t : State), exec i s = .next t → ¬ Live t →
    (∃ es, t.trace = s.trace ++ es ∧ ∀ res, Event.opEnd res ∉ es) ∧
      ((∃ r, t.fault = some (r, t.mpc) ∧ t.refused = none) ∨ (t.fault = none ∧ ∃ r, t.refused = some r))

/-! ### The bus operations (41_bus) -/

/-- `BUS_INIT` completes on an idle or uninitialised bus: both lines set high, two settle delays, `IDLE`, nothing else
(R71). -/
def Obligations.BusInitResult : Prop :=
  ∀ s : State, Live s → BusOk s → s.frame ≠ .opened →
    exec .busInit s = .next (endOp .none (afterBusInit (beginOp .busInit s)))

/-- `START` completes on an idle bus: the data line falls while the clock is high, then the clock falls; `OPEN` (R72). -/
def Obligations.StartResult : Prop :=
  ∀ s : State, Live s → AtIdle s → exec .start s = .next (endOp .none (afterStart (beginOp .start s)))

/-- `WRITE_BIT(b)` completes in an open transfer: the data line set while the clock is low, one clock pulse (R73). The
slave's state after it is `c`: unchanged but where this pulse is the ninth of a byte (log 17). -/
def Obligations.WriteBitResult : Prop :=
  ∀ (s : State) (b : Bool) (c : Controller), Live s → BusOk s → s.frame = .opened → clockTakes s = .ok c →
    exec (.writeBit b) s = .next (endOp .none (afterBit b c (beginOp (.writeBit b) s))) ∧
      ((receiver s.trace).bits.length ≠ 8 → c = s.ctl)

/-- `READ_ACK` completes in an open transfer: the line released, the slave's answer sampled in one clock pulse, the result
true when it was low, `last_ack` set to it (R74, R70). -/
def Obligations.ReadAckResult : Prop :=
  ∀ (s : State) (d : SDrive) (p : Side), Live s → BusOk s → s.frame = .opened →
    answerSide s.par (pendingByte (receiver s.trace)) (sideOf s) = .ok (d, p) →
      exec .readAck s = .next (endOp (.ack (d == .low)) (afterAck d (withSide p (beginOp .readAck s))))

/-- `WRITE_BYTE(v)` completes at the beginning of a byte: eight bits, most significant first, then the ACK slot, whose
answer is the result (R75, R43). From any place in a byte, after raw `WRITE_BIT`s, it completes with the same bits and the
ACK slot that follows them; a bit of it that makes a ninth pulse hands the byte before it to the slave (log 17), and the
answer in its own slot is then a draw (log 14). -/
def Obligations.WriteByteResult : Prop :=
  (∀ (s : State) (v : Byte) (d : SDrive) (p : Side), Live s → AtByte s →
    answerSide s.par (some v) (sideOf s) = .ok (d, p) →
      exec (.writeByte v) s =
        .next (endOp (.ack (d == .low)) (afterByte v d (withSide p (beginOp (.writeByte v) s))))) ∧
  ∀ (s u : State) (v : Byte) (d : SDrive) (p : Side), Live s → BusOk s → s.frame = .opened →
    sendBits (bitsMsb v) (beginOp (.writeByte v) s) = .ok u →
    answerSide u.par (pendingByte (receiver u.trace)) (sideOf u) = .ok (d, p) →
      exec (.writeByte v) s = .next (endOp (.ack (d == .low)) (afterAck d (withSide p u)))

/-- `STOP` completes in an open transfer: the data line low, the clock high, then the data line rises; `IDLE` (R76). The
slave's state when the clock has risen is `c`: unchanged but where this pulse is the ninth of a byte (log 17). -/
def Obligations.StopResult : Prop :=
  ∀ (s : State) (c : Controller), Live s → BusOk s → s.frame = .opened → clockTakes s = .ok c →
    exec .stop s = .next (endOp .none (afterStop c (beginOp .stop s))) ∧
      ((receiver s.trace).bits.length ≠ 8 → c = s.ctl)

/-- A bus operation in the wrong framing state raises `FramingViolation` before any line moves, and `START` on lines that
are not both high raises `BusNotIdle` (R71 to R76, R122, R126). -/
def Obligations.BusOperationFaults : Prop :=
  ∀ s : State, Live s →
    (s.frame = .opened → exec .busInit s = .next (raise (.framingViolation .busInit) (beginOp .busInit s))) ∧
    (s.frame ≠ .idle → exec .start s = .next (raise (.framingViolation .start) (beginOp .start s))) ∧
    (s.frame = .idle → (level s .scl = false ∨ level s .sda = false) →
      exec .start s = .next (raise .busNotIdle (beginOp .start s))) ∧
    (s.frame ≠ .opened →
      (∀ b, exec (.writeBit b) s = .next (raise (.framingViolation .writeBit) (beginOp (.writeBit b) s))) ∧
      exec .readAck s = .next (raise (.framingViolation .readAck) (beginOp .readAck s)) ∧
      (∀ v, exec (.writeByte v) s = .next (raise (.framingViolation .writeByte) (beginOp (.writeByte v) s))) ∧
      exec .stop s = .next (raise (.framingViolation .stop) (beginOp .stop s)))

/-- A driver operation that finds a bus on which no transfer can begin raises what `START` raises there, `FramingViolation`
before `BusNotIdle`, where its first transfer would begin: no line moves, and of the driver only `op_nack` and, in `INIT`,
the driver state are written (R93, R94, R102, R105, R126; that this comes before `CursorUnset` is the model's choice, log
27). A framing byte outside a transfer raises `FramingViolation(WRITE_BYTE)` and nothing else happens (log 11). -/
def Obligations.DriverFramingFaults : Prop :=
  ∀ s : State, Live s →
    (∀ r : FaultReason, (s.frame ≠ .idle ∧ r = .framingViolation .start) ∨
        (s.frame = .idle ∧ (level s .scl = false ∨ level s .sda = false) ∧ r = .busNotIdle) →
      (s.dstate = .ready →
        (∀ c, exec (.sendCommand c) s = .next (raise r (begun (.sendCommand c) s))) ∧
        (∀ src off n, n ≠ 0#8 → exec (.drawGlyphs src off n) s = .next (raise r (begun (.drawGlyphs src off n) s))) ∧
        exec .clear s = .next (raise r (begun .clear s))) ∧
      (s.dstate ≠ .configuring → exec .init s = .next (raise r { begun .init s with dstate := .configuring }))) ∧
    (s.frame ≠ .opened → ∀ i, (∃ a, i = .addressByte a) ∨ i = .ctrlCmd ∨ i = .ctrlData →
      exec i s = .next (raise (.framingViolation .writeByte) s))

/-- A master that drives the data line high while the slave holds it low is in contention, at the micro-step that drives
it (R22, R66, R73, R122): the driver is written, no edge is recorded and the micro-step is not counted, in the order of R66
(log 21). -/
def Obligations.ContentionFaults : Prop :=
  ∀ s : State, Live s → s.frame = .opened → s.cfg.highSda = .drive → s.slSda = .low →
    exec (.writeBit true) s =
      .next { beginOp (.writeBit true) s with drvSda := .high, fault := some (.busContention .sda, s.mpc) }

/-- A byte the reference slave gives no meaning to ends the run in its ACK slot with its eight bits sent and no ninth clock
pulse (R116, R124). -/
def Obligations.RefusedByteStops : Prop :=
  ∀ (s : State) (v : Byte) (r : ControllerReason), Live s → AtByte s →
    answerSide s.par (some v) (sideOf s) = .error r →
      ∃ t, exec (.writeByte v) s = .next t ∧ t.refused = some (.controllerUnmodelled r) ∧ t.fault = none ∧
        t.frame = .opened ∧ t.ctl = s.ctl ∧ t.mpc = s.mpc + 48 ∧
        t.trace = s.trace ++ .opBegin { op := .writeByte v, buf := [] } :: bitsEvents (level s .sda) (bitsMsb v)

/-- Every byte gives exactly nine clock pulses, at whatever place in a byte it begins: the data line does not change in any
of them, and the one sample is in the ninth (R79). -/
def Obligations.ByteHasNinePulses : Prop :=
  ∀ (s u : State) (v : Byte) (d : SDrive) (p : Side), Live s → BusOk s → s.frame = .opened →
    sendBits (bitsMsb v) (beginOp (.writeByte v) s) = .ok u →
    answerSide u.par (pendingByte (receiver u.trace)) (sideOf u) = .ok (d, p) →
      ∃ t es, exec (.writeByte v) s = .next t ∧ t.trace = s.trace ++ es ∧
        es.count (.edge .scl true) = 9 ∧ es.count (.edge .scl false) = 9 ∧
        highPhases none es = List.replicate 8 [.settle] ++ [[.settle, .sample (d == .hiz)]] ∧
        (es.filter isSample).length = 1

/-- A receiver that reads the edges reads the byte that was written and its ACK bit (R58, R81). Where the byte began after
raw bits of the same transfer, the receiver groups all the bits in nines: one byte is read, and the bits beyond its ninth
begin the next. -/
def Obligations.ByteReadFromTheWire : Prop :=
  (∀ (s : State) (v : Byte) (d : SDrive) (p : Side), Live s → AtByte s →
    answerSide s.par (some v) (sideOf s) = .ok (d, p) →
      ∃ t, exec (.writeByte v) s = .next t ∧
        decodeTrace t.trace = decodeTrace s.trace ++ [.byte v (d == .hiz)] ∧ AtByte t) ∧
  ∀ (s u : State) (v : Byte) (d : SDrive) (p : Side), Live s → BusOk s → s.frame = .opened →
    sendBits (bitsMsb v) (beginOp (.writeByte v) s) = .ok u →
    answerSide u.par (pendingByte (receiver u.trace)) (sideOf u) = .ok (d, p) →
      ∃ t, exec (.writeByte v) s = .next t ∧ BusOk t ∧
        (let bits := (receiver s.trace).bits ++ (bitsMsb v ++ [d == .hiz])
         decodeTrace t.trace = decodeTrace s.trace ++ [.byte (byteOfBits (bits.take 8)) (bits.getD 8 false)] ∧
           (receiver t.trace).bits = bits.drop 9)

/-- `START` then `STOP` with no byte between leaves both lines idle high, the bus `IDLE`, the master's drivers at their idle
values, and records exactly these line events (R80). -/
def Obligations.StartThenStop : Prop :=
  ∀ s : State, Live s → AtIdle s →
    ∃ t u, exec .start s = .next t ∧ exec .stop t = .next u ∧ u.frame = .idle ∧
      level u .scl = true ∧ level u .sda = true ∧
      u.drvScl = highDrive s.cfg .scl ∧ u.drvSda = highDrive s.cfg .sda ∧
      u.trace = s.trace ++
        [.opBegin { op := .start, buf := [] }, .edge .sda false, .settle, .edge .scl false, .settle, .opEnd .none,
          .opBegin { op := .stop, buf := [] }, .settle, .edge .scl true, .settle, .edge .sda true, .settle, .opEnd .none]

/-! ### The wire bytes (30_encoding R60, R61) -/

/-- A framing byte put on the wire by itself is sent as `WB` sends it (R88, R90): with an answer that lets the transfer go
on, the byte and its ACK slot; with a NACK under `ABORT`, the transfer closed. That it has no request frame of its own and
leaves `mpc` at 0 is the model's choice (log 11). -/
def Obligations.WireByteResult : Prop :=
  ∀ (s : State) (d : SDrive) (p : Side) (i : Instr) (v : Byte), Live s → AtByte s →
    ((∃ a, i = .addressByte a ∧ v = a ++ 0#1) ∨ (i = .ctrlCmd ∧ v = 0x00#8) ∨ (i = .ctrlData ∧ v = 0x40#8)) →
    answerSide s.par (some v) (sideOf s) = .ok (d, p) →
      (d = .low ∨ s.cfg.ackPolicy = .ignore →
        exec i s = .next { afterByte v d (withSide p s) with opNack := s.opNack || (d == .hiz), mpc := 0 }) ∧
      (d = .hiz → s.cfg.ackPolicy = .abort →
        exec i s = .next { afterStop p.ctl (afterByte v d (withSide p s)) with opNack := true, mpc := 0 })

/-! ### The driver operations (42_driver) -/

/-- The public operations in `READY` raise `NotReady` in any other state, before any line moves; `INIT` is admitted in
`UNINITIALIZED` and in `READY`: on an idle bus it runs to its end (R87). -/
def Obligations.DriverStateCheck : Prop :=
  (∀ s : State, Live s → s.dstate ≠ .ready →
    (∀ c, exec (.sendCommand c) s = .next (raise .notReady (begun (.sendCommand c) s))) ∧
    (∀ col row, exec (.setPosition col row) s = .next (raise .notReady (begun (.setPosition col row) s))) ∧
    (∀ src off n, exec (.drawGlyphs src off n) s = .next (raise .notReady (begun (.drawGlyphs src off n) s))) ∧
    exec .clear s = .next (raise .notReady (begun .clear s))) ∧
  ∀ (s : State) (ds : List SDrive) (q : Side), Live s → AtIdle s → s.dstate = .uninitialized ∨ s.dstate = .ready →
    slaveRun s.par (scriptOf .init s) (sideOf s) = .ok (ds, q) → (nacked ds = false ∨ s.cfg.ackPolicy = .ignore) →
      ∃ t, exec .init s = .next t ∧ Live t ∧ t.dstate = .ready

/-- `SEND_COMMAND(c)` completes in `READY` on an idle bus: one command transfer, the status from its ACKs (R91, R93, R86). -/
def Obligations.SendCommandResult : Prop :=
  ∀ (s : State) (c : Byte) (ds : List SDrive) (q : Side), CanSend s →
    slaveRun s.par (commandOf (blockAddressByte s) c) (sideOf s) = .ok (ds, q) →
    (nacked ds = false ∨ s.cfg.ackPolicy = .ignore) →
      exec (.sendCommand c) s = .next (endOp (.status (statusAfter ds))
        (afterTransfers (commandOf (blockAddressByte s) c) ds q (begun (.sendCommand c) s)))

/-- `INIT` completes on an idle bus: the 25 command transfers of the init sequence in order, then `READY` (R94, R91, R86). -/
def Obligations.InitResult : Prop :=
  ∀ (s : State) (ds : List SDrive) (q : Side), Live s → AtIdle s → s.dstate ≠ .configuring →
    slaveRun s.par (scriptOf .init s) (sideOf s) = .ok (ds, q) → (nacked ds = false ∨ s.cfg.ackPolicy = .ignore) →
      exec .init s = .next (endOp (.status (statusAfter ds))
        { afterTransfers (scriptOf .init s) ds q (begun .init s) with dstate := .ready })

/-- The init stream of given init bytes is fixed by shape, power mode and address, whatever the slave answers: under
`IGNORE` all of it is on the wire, under `ABORT` a prefix of it and then the stop condition; so two blocks of one
configuration send the same bytes (R97). -/
def Obligations.InitStreamFixed : Prop :=
  (∀ s t : State, Live s → AtIdle s → s.dstate ≠ .configuring → exec .init s = .next t → Live t →
    (s.cfg.ackPolicy = .ignore → sent t.trace = sent s.trace ++ scriptOf .init s) ∧
    (s.cfg.ackPolicy = .abort → sent t.trace = sent s.trace ++ scriptOf .init s ∨
      ∃ pre, pre <+: scriptOf .init s ∧ sent t.trace = sent s.trace ++ pre ++ [.stop])) ∧
  ∀ s s' : State, s.par.initBytes = s'.par.initBytes → s.cfg.shape = s'.cfg.shape → s.cfg.power = s'.cfg.power →
    s.cfg.addr7 = s'.cfg.addr7 → scriptOf .init s = scriptOf .init s'

/-- The default init bytes of the six configurations, byte by byte (R95, R11; the values are the spec's general-knowledge
defaults, log 2), and the length of the sequence for any bytes (R96). -/
def Obligations.InitSequenceBytes : Prop :=
  (∀ (b : InitBytes) (shape : Shape) (power : Power), (initSeq b shape power).length = 25) ∧
  (∀ shape ∈ [Shape.s128x32, .s96x16], initSeq defaultInitBytes shape .internalPump =
    [0xD5#8, 0x80#8, 0xA8#8, 0x1F#8, 0xD3#8, 0x00#8, 0x40#8, 0x8D#8, 0x14#8, 0x20#8, 0x00#8, 0xA1#8, 0xC8#8, 0xDA#8,
      0x02#8, 0x81#8, 0x8F#8, 0xD9#8, 0xF1#8, 0xDB#8, 0x40#8, 0xA4#8, 0xA6#8, 0x2E#8, 0xAF#8]) ∧
  (∀ shape power, initSeq defaultInitBytes shape power =
    (((initSeq defaultInitBytes .s128x32 .internalPump).set 14 (if shape = .s128x64 then 0x12#8 else 0x02#8)).set 8
      (if power = .externalVcc then 0x10#8 else 0x14#8)).set 18 (if power = .externalVcc then 0x22#8 else 0xF1#8))

/-- `SET_POSITION(col, row)` stores any two bytes, moves no line and counts no micro-step; outside `READY` it raises
`NotReady` (R98, R87). It clears `op_nack`, as R86 says of every driver operation, although R98 does not list it (log 19). -/
def Obligations.SetPositionResult : Prop :=
  ∀ (s : State) (col row : Byte), Live s →
    (s.dstate = .ready → exec (.setPosition col row) s = .next { s with
      curCol := some col, curRow := some row, opNack := false, mpc := 0
      trace := s.trace ++ [.opBegin { op := .setPosition col row, buf := [] }, .opEnd .none] }) ∧
    (s.dstate ≠ .ready → exec (.setPosition col row) s = .next { s with
      opNack := false, fault := some (.notReady, s.mpc)
      trace := s.trace ++ [.opBegin { op := .setPosition col row, buf := [] }] })

/-- The window of the glyph at a cursor, in byte arithmetic (R99), and the store index of byte `j` of glyph `k`, on naturals:
the glyph store and a buffer `WITH_OFFSET` at off + 5k + j, a buffer `FROM_ZERO` at 5k + j, a fault at or beyond the size of
the store (R40). -/
def Obligations.WindowOfCursor : Prop :=
  (∀ col : Byte, windowStart col = 6#8 * (col - 1#8) ∧ windowEnd col = 6#8 * (col - 1#8) + 4#8) ∧
    (∀ row : Byte, windowPage row = row - 1#8) ∧
    (windowStart 1#8 = 0x00#8 ∧ windowEnd 1#8 = 0x04#8) ∧ (windowStart 21#8 = 0x78#8 ∧ windowEnd 21#8 = 0x7C#8) ∧
    (windowStart 22#8 = 0x7E#8 ∧ windowEnd 22#8 = 0x82#8) ∧ (windowStart 43#8 = 0xFC#8 ∧ windowEnd 43#8 = 0x00#8) ∧
    (windowStart 0#8 = 0xFA#8 ∧ windowEnd 0#8 = 0xFE#8) ∧
    ∀ (s : State) (off : Byte) (k j : Nat),
      (let i := off.toNat + 5 * k + j
       glyphByte .store off k j s =
         if h : i < s.par.glyph.length then .ok s.par.glyph[i] else .error (.glyphIndexOutOfRange i)) ∧
      (let i := if s.cfg.bufBase = .withOffset then off.toNat + 5 * k + j else 5 * k + j
       glyphByte .buffer off k j s =
         if h : i < s.buf.length then .ok s.buf[i] else .error (.bufferIndexOutOfRange i))

/-- `DRAW_GLYPHS(src, off, n)` of at least one glyph completes in `READY` on an idle bus with the cursor set and every byte
inside its source: seven transfers a glyph in increasing order, the cursor column moved on by one a glyph in byte arithmetic
(R99 to R102, R40, R86). -/
def Obligations.DrawGlyphsResult : Prop :=
  ∀ (s : State) (src : Source) (off n col row : Byte) (ds : List SDrive) (q : Side), CanSend s → n ≠ 0#8 →
    s.curCol = some col → s.curRow = some row → GlyphsIn src off n.toNat s →
    slaveRun s.par (glyphsOf src off s row n.toNat 0 col) (sideOf s) = .ok (ds, q) →
    (nacked ds = false ∨ s.cfg.ackPolicy = .ignore) →
      exec (.drawGlyphs src off n) s = .next (endOp (.status (statusAfter ds))
        { afterTransfers (glyphsOf src off s row n.toNat 0 col) ds q (begun (.drawGlyphs src off n) s) with
          curCol := some (col + n) })

/-- `DRAW_GLYPHS` of no glyph sends nothing, reads no cursor and returns `OK`, whatever the bus (R102); of at least one glyph
with the cursor not set it raises `CursorUnset` before its first window, on an idle bus (R29, R102; on any other bus
`DriverFramingFaults` says what it raises). -/
def Obligations.DrawWithoutCursor : Prop :=
  ∀ (s : State) (src : Source) (off n : Byte), Live s → s.dstate = .ready →
    (n = 0#8 → exec (.drawGlyphs src off n) s =
      .next (endOp (.status .ok) (begun (.drawGlyphs src off n) s))) ∧
    (n ≠ 0#8 → AtIdle s → (s.curCol = none ∨ s.curRow = none) →
      exec (.drawGlyphs src off n) s = .next (raise .cursorUnset (begun (.drawGlyphs src off n) s)))

/-- The first index off the end of its source stops a run of glyphs just before the byte it is needed for: glyphs 0 to i−1
are drawn, glyph i's windows and its first j bytes are sent, the data transfer is left open, and the cursor is at glyph i
(R40, R41, R102, R124). -/
def Obligations.DrawOffTheEnd : Prop :=
  ∀ (s : State) (src : Source) (off n col row : Byte) (i j : Nat) (ds : List SDrive) (q : Side), CanSend s →
    s.curCol = some col → s.curRow = some row → i < n.toNat → j < 5 → GlyphsIn src off i s →
    (∀ j' < j, glyphIndex s.cfg.bufBase src off i j' < (sourceBytes src s).length) →
    (sourceBytes src s).length ≤ glyphIndex s.cfg.bufBase src off i j →
    slaveRun s.par (glyphsOf src off s row i 0 col ++ glyphOpenOf s.par (blockAddressByte s) (col + BitVec.ofNat 8 i) row
      (glyphBytes src off i s)) (sideOf s) = .ok (ds, q) →
    (nacked ds = false ∨ s.cfg.ackPolicy = .ignore) →
      ∃ t, exec (.drawGlyphs src off n) s = .next t ∧
        t.fault = some (indexFault src (glyphIndex s.cfg.bufBase src off i j),
          s.mpc + 1470 * i + 6 * 178 + 4 + 56 * (2 + j)) ∧
        t.frame = .opened ∧ t.curCol = some (col + BitVec.ofNat 8 i) ∧ t.curRow = some row ∧
        sent t.trace = sent s.trace ++ glyphsOf src off s row i 0 col ++
          glyphOpenOf s.par (blockAddressByte s) (col + BitVec.ofNat 8 i) row (glyphBytes src off i s)

/-- `SET_POSITION(x, y)` and then one glyph from the caller buffer: the windows [6(x−1), 6(x−1)+4] and [y−1, y−1], the five
buffer bytes, and the cursor column x+1 (R103). -/
def Obligations.PositionThenGlyph : Prop :=
  ∀ (s : State) (x y b0 b1 b2 b3 b4 : Byte) (more : List Byte) (ds : List SDrive) (q : Side), CanSend s →
    s.buf = b0 :: b1 :: b2 :: b3 :: b4 :: more →
    let ab := blockAddressByte s
    let syms := commandsOf ab [s.par.cmdColwin, 6#8 * (x - 1#8), 6#8 * (x - 1#8) + 4#8] ++
      commandsOf ab [s.par.cmdPagewin, y - 1#8, y - 1#8] ++ dataOf ab [b0, b1, b2, b3, b4]
    slaveRun s.par syms (sideOf s) = .ok (ds, q) → (nacked ds = false ∨ s.cfg.ackPolicy = .ignore) →
      ∃ t u, exec (.setPosition x y) s = .next t ∧ exec (.drawGlyphs .buffer 0#8 1#8) t = .next u ∧
        sent u.trace = sent s.trace ++ syms ∧ u.curCol = some (x + 1#8) ∧ u.curRow = some y

/-- The label: ten glyphs from the store at offset 56 send, glyph after glyph, the data transfers of store bytes 56 + 5k to
60 + 5k, whatever the caller buffer holds (R104). -/
def Obligations.LabelFromStore : Prop :=
  ∀ (s : State) (col row : Byte) (ds : List SDrive) (q : Side), CanSend s → s.curCol = some col → s.curRow = some row →
    106 ≤ s.par.glyph.length →
    let syms := (List.range 10).flatMap (fun k => glyphOf s.par (blockAddressByte s) (col + BitVec.ofNat 8 k) row
      ((s.par.glyph.drop (56 + 5 * k)).take 5))
    slaveRun s.par syms (sideOf s) = .ok (ds, q) → (nacked ds = false ∨ s.cfg.ackPolicy = .ignore) →
      ∃ t, exec (.drawGlyphs .store 56#8 10#8) s = .next t ∧ sent t.trace = sent s.trace ++ syms ∧
        t.curCol = some (col + 10#8)

/-- `CLEAR` completes in `READY` on an idle bus: the full-panel windows and one data transfer (R105, R86). -/
def Obligations.ClearResult : Prop :=
  ∀ (s : State) (ds : List SDrive) (q : Side), CanSend s →
    slaveRun s.par (clearOf s) (sideOf s) = .ok (ds, q) → (nacked ds = false ∨ s.cfg.ackPolicy = .ignore) →
      exec .clear s = .next (endOp (.status (statusAfter ds)) (afterTransfers (clearOf s) ds q (begun .clear s)))

/-- `CLEAR` issues exactly width·height/8 data bytes, every one zero, whatever the cursor, and leaves the cursor (R106). -/
def Obligations.ClearStream : Prop :=
  ∀ (s : State) (ds : List SDrive) (q : Side), CanSend s →
    slaveRun s.par (clearOf s) (sideOf s) = .ok (ds, q) → (nacked ds = false ∨ s.cfg.ackPolicy = .ignore) →
      ∃ t pre, exec .clear s = .next t ∧ t.curCol = s.curCol ∧ t.curRow = s.curRow ∧
        sent t.trace = sent s.trace ++ pre ++
          (.start :: .byte (blockAddressByte s) :: .byte 0x40#8 ::
            List.replicate (panelWidth s.cfg.shape * panelHeight s.cfg.shape / 8) (.byte 0x00#8)) ++ [.stop] ∧
        pre = commandsOf (blockAddressByte s) [s.par.cmdColwin, 0#8, BitVec.ofNat 8 (panelWidth s.cfg.shape - 1),
          s.par.cmdPagewin, 0#8, BitVec.ofNat 8 (panelHeight s.cfg.shape / 8 - 1)]

/-- Under `ABORT` the first NACK of `SEND_COMMAND`, `INIT` or `CLEAR` closes the open transfer, skips the rest, applies the
abort clause and returns `NACK` (R88, R89, R93, R94, R105). -/
def Obligations.AbortAtFirstNack : Prop :=
  ∀ (s : State) (i : Instr) (pre rest : List Sym) (v : Byte) (ds : List SDrive) (q : Side),
    ((∃ c, i = .sendCommand c) ∨ i = .init ∨ i = .clear) → Live s → AtIdle s → Admitted i s →
    s.cfg.ackPolicy = .abort → scriptOf i s = pre ++ .byte v :: rest →
    slaveRun s.par (pre ++ [.byte v]) (sideOf s) = .ok (ds ++ [.hiz], q) → nacked ds = false →
      exec i s = .next (endOp (.status .nack)
        { afterTransfers (pre ++ [.byte v, .stop]) (ds ++ [.hiz])
            { q with ctl := controllerHears s.par.slave (some .stop) q.ctl } (begun i s) with
          dstate := if i = .init then .uninitialized else s.dstate })

/-- Under `ABORT` a NACK in glyph i of a run ends it with the cursor still at that glyph: only glyphs whose `STOP` completed
are counted (R88, R89, R102). -/
def Obligations.AbortInGlyph : Prop :=
  ∀ (s : State) (src : Source) (off n col row v : Byte) (i : Nat) (pre rest : List Sym) (d0 d1 : List SDrive)
    (p q : Side), CanSend s → s.cfg.ackPolicy = .abort → s.curCol = some col → s.curRow = some row → i < n.toNat →
    GlyphsIn src off n.toNat s → slaveRun s.par (glyphsOf src off s row i 0 col) (sideOf s) = .ok (d0, p) →
    nacked d0 = false →
    glyphOf s.par (blockAddressByte s) (col + BitVec.ofNat 8 i) row (glyphBytes src off i s) = pre ++ .byte v :: rest →
    slaveRun s.par (pre ++ [.byte v]) p = .ok (d1 ++ [.hiz], q) → nacked d1 = false →
      exec (.drawGlyphs src off n) s = .next (endOp (.status .nack)
        { afterTransfers (glyphsOf src off s row i 0 col ++ (pre ++ [.byte v, .stop])) (d0 ++ (d1 ++ [.hiz]))
            { q with ctl := controllerHears s.par.slave (some .stop) q.ctl } (begun (.drawGlyphs src off n) s) with
          curCol := some (col + BitVec.ofNat 8 i) })

/-- Under `IGNORE` every driver operation that ends puts all of its bytes on the wire, whatever the slave answers, so an
absent display is not seen on the wire (R89, R144). -/
def Obligations.IgnoreSendsEverything : Prop :=
  ∀ (s t : State) (i : Instr), MovesLines i → Live s → AtIdle s → Admitted i s → s.cfg.ackPolicy = .ignore →
    exec i s = .next t → Live t → sent t.trace = sent s.trace ++ scriptOf i s

/-- The status of a driver operation that ends, under either policy: `NACK` exactly when one of its samples read high, and
then `op_nack` is true; it is the last event (R30, R86). -/
def Obligations.StatusFromAcks : Prop :=
  ∀ (s t : State) (i : Instr), MovesLines i → Live s → AtIdle s → Admitted i s → exec i s = .next t → Live t →
    ∃ es, t.trace = s.trace ++ .opBegin (requestOf i s) :: es ++ [.opEnd (.status (if t.opNack then .nack else .ok))] ∧
      (t.opNack = true ↔ .sample true ∈ es) ∧ t.mpc = 0

/-- The micro-steps and settle delays of every operation that runs to its end, from any state and whatever the answers
(R145): counted by the pieces the meanings run, and the settle delays again in the trace of the request. -/
def Obligations.MicroStepCounts : Prop :=
  (∀ s t : State,
    (busInitBody s = .ok () t → Spent 4 2 s t) ∧ (startBody s = .ok () t → Spent 4 2 s t) ∧
    (∀ b, writeBitBody b s = .ok () t → Spent 6 3 s t) ∧ (∀ a, readAckBody s = .ok a t → Spent 8 3 s t) ∧
    (∀ v a, writeByteBody v s = .ok a t → Spent 56 27 s t) ∧ (stopBody s = .ok () t → Spent 6 3 s t) ∧
    (∀ c, sendCommandTransfer c s = .ok () t → Spent 178 86 s t) ∧
    (∀ vs, dataTransfer vs s = .ok () t → Spent (10 + 56 * (vs.length + 2)) (5 + 27 * (vs.length + 2)) s t) ∧
    (∀ c, sendCommandBody c s = .ok () t → Spent 178 86 s t) ∧
    (initBody s = .ok () t → Spent 4450 2150 s t) ∧
    (∀ col row, setPositionBody col row s = .ok () t → Spent 0 0 s t) ∧
    (∀ src off n, drawGlyphsBody src off n s = .ok () t → Spent (1470 * n.toNat) (710 * n.toNat) s t) ∧
    (clearBody s = .ok () t →
      (s.cfg.shape = .s128x32 → Spent 29862 14399 s t) ∧ (s.cfg.shape = .s128x64 → Spent 58534 28223 s t) ∧
      (s.cfg.shape = .s96x16 → Spent 11942 5759 s t))) ∧
  ∀ (s t : State) (i : Instr) (k : Nat), exec i s = .next t → Live t → settlesOf i s.cfg.shape = some k →
    (MovesLines i → s.cfg.ackPolicy = .ignore ∨ t.opNack = false) →
      t.trace.count .settle = s.trace.count .settle + k

/-! ### The reference slave (45_controller_reference) -/

/-- The unconstrained slave refuses nothing and keeps no state (U2, D18): every run of symbols has answers. -/
def Obligations.FreeSlaveAnswers : Prop :=
  ∀ (par : Params) (syms : List Sym) (p : Side), par.slave = .free →
    ∃ ds q, slaveRun par syms p = .ok (ds, q) ∧ q.ctl = p.ctl

/-- The reference slave's ACK for a byte just clocked in, by its phase (R110). -/
def Obligations.SlaveAck : Prop :=
  ∀ (s t : State) (v : Byte), AtByte s → s.par.slave = .reference → exec (.writeByte v) s = .next t → Live t →
    (s.ctl.phase = .addr → t.lastAck = some (v == s.par.slaveAddr7 ++ 0#1)) ∧
    (s.ctl.phase = .ctrl ∨ s.ctl.phase = .cmdStream ∨ s.ctl.phase = .dataStream → t.lastAck = some true) ∧
    (s.ctl.phase = .notMe → t.lastAck = some false)

/-- Commands are parsed across transfers, one byte of a command a `SEND_COMMAND` (R112, R113): an opcode with arguments
waits for them, a byte while one waits is its next argument, the last one executes it, an opcode without arguments is
executed at once, and one that is not modelled is refused. -/
def Obligations.CommandsAcrossTransfers : Prop :=
  ∀ (s : State) (c : Byte), CanSend s → Paired s → ∃ t, exec (.sendCommand c) s = .next t ∧
    (∀ n, s.ctl.pending = none → argCount c = some (n + 1) →
      Live t ∧ t.ctl = { s.ctl with phase := .waitStart, pending := some { opcode := c, args := [], needed := n + 1 } }) ∧
    (∀ d, s.ctl.pending = none → argCount c = some 0 → executeCommand c [] s.ctl = .ok d →
      Live t ∧ t.ctl = { d with phase := .waitStart }) ∧
    (s.ctl.pending = none → argCount c = none → t.refused = some (.controllerUnmodelled (.command c))) ∧
    (∀ p, s.ctl.pending = some p → p.args.length + 1 < p.needed →
      Live t ∧ t.ctl = { s.ctl with phase := .waitStart, pending := some { p with args := p.args ++ [c] } }) ∧
    (∀ p d, s.ctl.pending = some p → p.needed ≤ p.args.length + 1 →
      executeCommand p.opcode (p.args ++ [c]) { s.ctl with pending := none } = .ok d →
        Live t ∧ t.ctl = { d with phase := .waitStart }) ∧
    (∀ p r, s.ctl.pending = some p → p.needed ≤ p.args.length + 1 →
      executeCommand p.opcode (p.args ++ [c]) { s.ctl with pending := none } = .error r →
        t.refused = some (.controllerUnmodelled r))

/-- What a complete command does (R114): the windows and the pointer, the addressing mode, the display, and the settings of
every other command, those of other opcodes kept (R108; that a command without arguments is recorded too is log 20); a
window outside the frame buffer or turned around and addressing mode 3 are refused, and so are the modes above it (log 15).
How many arguments each command takes, and which are not modelled (R113). -/
def Obligations.CommandEffects : Prop :=
  (∀ (c : Controller) (a b : Byte),
    executeCommand 0x21#8 [a, b] c =
      (if a.toNat < 128 ∧ b.toNat < 128 ∧ a.toNat ≤ b.toNat then
        .ok { c with colStart := a.toNat, colEnd := b.toNat, col := a.toNat } else .error .argument) ∧
    executeCommand 0x22#8 [a, b] c =
      (if a.toNat < 8 ∧ b.toNat < 8 ∧ a.toNat ≤ b.toNat then
        .ok { c with pageStart := a.toNat, pageEnd := b.toNat, page := a.toNat } else .error .argument) ∧
    executeCommand 0x20#8 [0#8] c = .ok { c with addrMode := .horizontal } ∧
    executeCommand 0x20#8 [1#8] c = .ok { c with addrMode := .vertical } ∧
    executeCommand 0x20#8 [2#8] c = .ok { c with addrMode := .page } ∧
    (3 ≤ a.toNat → executeCommand 0x20#8 [a] c = .error .argument) ∧
    executeCommand 0xAF#8 [] c = .ok { c with displayOn := true } ∧
    executeCommand 0xAE#8 [] c = .ok { c with displayOn := false } ∧
    (∀ (op : Byte) (args : List Byte), op ∉ [0x20#8, 0x21#8, 0x22#8, 0xAE#8, 0xAF#8] →
      ∃ l, executeCommand op args c = .ok { c with settings := l } ∧ (op, args) ∈ l ∧
        (∀ o x, o ≠ op → ((o, x) ∈ l ↔ (o, x) ∈ c.settings)) ∧ (SettingsOk c → ∀ x, (op, x) ∈ l → x = args))) ∧
  ∀ v : Byte, argCount v =
    if v ∈ [0x21#8, 0x22#8] then some 2
    else if v ∈ [0x20#8, 0x81#8, 0x8D#8, 0xA8#8, 0xD3#8, 0xD5#8, 0xD9#8, 0xDA#8, 0xDB#8] then some 1
    else if (0x40 ≤ v.toNat ∧ v.toNat ≤ 0x7F) ∨
      v ∈ [0xA0#8, 0xA1#8, 0xA4#8, 0xA5#8, 0xA6#8, 0xA7#8, 0xAE#8, 0xAF#8, 0xC0#8, 0xC8#8, 0x2E#8] then some 0
    else none

/-- A data byte in horizontal addressing is written at the pointer, which advances inside the window, column first; every
other byte of the frame buffer is kept; in any other addressing mode it is refused (R115). -/
def Obligations.DataByteWritten : Prop :=
  ∀ (s : State) (v : Byte), Live s → AtByte s → s.par.slave = .reference → s.ctl.phase = .dataStream →
    ControllerOk s.ctl → ∃ t, exec (.writeByte v) s = .next t ∧
      (s.ctl.addrMode = .horizontal → Live t ∧
        (∀ p x, p < 8 → x < 128 → gddramRead t.ctl p x =
          if p = s.ctl.page ∧ x = s.ctl.col then some v else gddramRead s.ctl p x) ∧
        t.ctl.col = (if s.ctl.col = s.ctl.colEnd then s.ctl.colStart else s.ctl.col + 1) ∧
        t.ctl.page = (if s.ctl.col = s.ctl.colEnd then
          (if s.ctl.page = s.ctl.pageEnd then s.ctl.pageStart else s.ctl.page + 1) else s.ctl.page)) ∧
      (s.ctl.addrMode ≠ .horizontal → t.refused = some (.controllerUnmodelled .addressingMode))

/-- `INIT` with the default bytes brings the reference slave from no partial command to horizontal addressing with the
display on, acknowledges every byte, and leaves the windows, the pointer and the frame buffer (R94, R95, R110 to R114; the
bytes are the spec's general-knowledge defaults, log 2). -/
def Obligations.InitPreparesSlave : Prop :=
  ∀ s : State, Live s → AtIdle s → s.dstate ≠ .configuring → Paired s → s.par.initBytes = defaultInitBytes →
    s.ctl.pending = none →
      ∃ t, exec .init s = .next t ∧ CanSend t ∧ t.opNack = false ∧ t.ctl.phase = .waitStart ∧ t.ctl.pending = none ∧
        t.ctl.addrMode = .horizontal ∧ t.ctl.displayOn = true ∧ t.ctl.gddram = s.ctl.gddram ∧
        t.ctl.colStart = s.ctl.colStart ∧ t.ctl.colEnd = s.ctl.colEnd ∧ t.ctl.pageStart = s.ctl.pageStart ∧
        t.ctl.pageEnd = s.ctl.pageEnd ∧ t.ctl.col = s.ctl.col ∧ t.ctl.page = s.ctl.page

/-- A run of glyphs drawn at (col, row) whose windows fit lands in the frame buffer: byte j of glyph k at column cs + j of
page row − 1, cs being that glyph's window start, every byte outside their windows kept, and the pointer left at the last
glyph's (row − 1, cs) (R118, R102). Bit r of the byte is the pixel of that column and of row 8·(row − 1) + r, the least
significant bit at the top (R117, R39). -/
def Obligations.GlyphLands : Prop :=
  ∀ (s : State) (src : Source) (off n col row : Byte), CanSend s → Paired s → DefaultWindows s → Drawable s →
    s.curCol = some col → s.curRow = some row → n ≠ 0#8 → GlyphsIn src off n.toNat s →
    (∀ k < n.toNat, (windowStart (col + BitVec.ofNat 8 k)).toNat + 4 < 128) → (windowPage row).toNat < 8 →
      let page := (windowPage row).toNat
      let cs := fun k : Nat => (windowStart (col + BitVec.ofNat 8 k)).toNat
      ∃ t, exec (.drawGlyphs src off n) s = .next t ∧ CanSend t ∧ Drawable t ∧ t.opNack = false ∧
        t.curCol = some (col + n) ∧
        (∀ k < n.toNat, (glyphBytes src off k s).length = 5 ∧ ∀ j < 5,
          gddramRead t.ctl page (cs k + j) = (glyphBytes src off k s)[j]? ∧
          ∀ r < 8, pixel t.ctl (cs k + j) (8 * page + r) = (glyphBytes src off k s)[j]?.map (fun v => v.getLsbD r)) ∧
        (∀ p x, (p = page → ∀ k < n.toNat, ¬ (cs k ≤ x ∧ x < cs k + 5)) →
          gddramRead t.ctl p x = gddramRead s.ctl p x) ∧
        t.ctl.page = page ∧ t.ctl.col = cs (n.toNat - 1)

/-- `CLEAR` sets every frame-buffer byte of the panel to zero, keeps every other byte, and leaves the pointer at (0, 0)
(R119). -/
def Obligations.ClearZeroesPanel : Prop :=
  ∀ s : State, CanSend s → Paired s → DefaultWindows s → Drawable s →
    ∃ t, exec .clear s = .next t ∧ CanSend t ∧ Drawable t ∧ t.opNack = false ∧
      (∀ p x, gddramRead t.ctl p x =
        if p < panelPages s.cfg.shape ∧ x < panelWidth s.cfg.shape then some 0#8 else gddramRead s.ctl p x) ∧
      t.ctl.page = 0 ∧ t.ctl.col = 0
end

