-- ==== Sys2Proof/Laws/Memory.lean ====
section
/-! SUPPORT. The frame buffer as memory: reading after writing, and the canonical form. -/

namespace Sys2Proof.Machine

/-- A byte read after a write: the byte written at its address, every other byte as before. -/
theorem memRead_memWrite (m : List Host.Cell) (a b : Nat) (v : Byte) :
    memRead (memWrite m a v) b = if b = a then some v else memRead m b := by
  induction m with
  | nil => simp [memWrite, memRead]
  | cons cell rest ih =>
    obtain ⟨c, w⟩ := cell
    simp only [memWrite]
    split
    · simp [memRead]
    · split
      · rename_i h; subst h
        simp only [memRead]
        split <;> simp_all
      · rename_i h1 h2
        simp only [memRead, ih]
        by_cases hb : b = c
        · subst hb
          have : ¬ b = a := fun e => h2 e.symm
          simp [this]
        · simp [hb]

theorem memSorted_memWrite {m : List Host.Cell} {low a : Nat} (v : Byte) (h : memSorted low m = true) (ha : low ≤ a) :
    memSorted low (memWrite m a v) = true := by
  induction m generalizing low with
  | nil => simp [memWrite, memSorted, ha]
  | cons cell rest ih =>
    obtain ⟨c, w⟩ := cell
    simp only [memSorted, Bool.and_eq_true, decide_eq_true_eq] at h
    simp only [memWrite]
    split
    · simp only [memSorted, Bool.and_eq_true, decide_eq_true_eq]
      exact ⟨ha, by omega, h.2⟩
    · split
      · rename_i e; subst e
        simp only [memSorted, Bool.and_eq_true, decide_eq_true_eq]
        exact h
      · simp only [memSorted, Bool.and_eq_true, decide_eq_true_eq]
        exact ⟨h.1, ih h.2 (by omega)⟩

theorem mem_memWrite {m : List Host.Cell} {a : Nat} {v : Byte} {cell : Host.Cell} (h : cell ∈ memWrite m a v) :
    cell = (a, v) ∨ cell ∈ m := by
  induction m with
  | nil => simpa [memWrite] using h
  | cons x rest ih =>
    obtain ⟨c, w⟩ := x
    simp only [memWrite] at h
    split at h
    · simpa using h
    · split at h
      · rcases List.mem_cons.mp h with e | e
        · exact .inl e
        · exact .inr (List.mem_cons_of_mem _ e)
      · rcases List.mem_cons.mp h with e | e
        · exact .inr (by simp [e])
        · rcases ih e with e | e
          · exact .inl e
          · exact .inr (List.mem_cons_of_mem _ e)

/-- A write inside the frame buffer keeps the canonical form. -/
theorem memWf_memWrite {m : List Host.Cell} {a : Nat} (v : Byte) (h : memWf m = true) (ha : a < gddramSize) :
    memWf (memWrite m a v) = true := by
  simp only [memWf, Bool.and_eq_true, List.all_eq_true, decide_eq_true_eq] at h ⊢
  refine ⟨memSorted_memWrite v h.1 (Nat.zero_le a), fun cell hc => ?_⟩
  rcases mem_memWrite hc with e | e
  · rw [e]; exact ha
  · exact h.2 cell e

theorem memWf_reset : memWf Controller.reset.gddram = true := rfl

theorem gddramHas_iff {p c : Nat} : gddramHas p c = true ↔ p < Config.ramPages ∧ c < Config.ramCols := by
  simp [gddramHas]

theorem gddramAddr_lt {p c : Nat} (h : gddramHas p c = true) : gddramAddr p c < gddramSize := by
  obtain ⟨hp, hc⟩ := gddramHas_iff.mp h
  simp only [gddramAddr, gddramSize, Config.ramCols, Config.ramPages] at *
  omega

theorem gddramAddr_inj {p c p' c' : Nat} (h : gddramHas p c = true) (h' : gddramHas p' c' = true)
    (e : gddramAddr p c = gddramAddr p' c') : p = p' ∧ c = c' := by
  obtain ⟨-, hc⟩ := gddramHas_iff.mp h
  obtain ⟨-, hc'⟩ := gddramHas_iff.mp h'
  simp only [gddramAddr, Config.ramCols] at *
  omega

/-! ### The frame buffer by page and column -/

theorem gddramRead_of_has {c : Controller} {p x : Nat} (h : gddramHas p x = true) :
    gddramRead c p x = some (gddramByte c.gddram (gddramAddr p x)) := by rw [gddramRead, if_pos h]

theorem gddramRead_outside {c : Controller} {p x : Nat} (h : ¬ gddramHas p x = true) : gddramRead c p x = none := by
  rw [gddramRead, if_neg h]

/-- Two states whose frame buffers hold the same written bytes read the same. -/
theorem gddramRead_congr {c d : Controller} {p x : Nat}
    (h : memRead d.gddram (gddramAddr p x) = memRead c.gddram (gddramAddr p x)) : gddramRead d p x = gddramRead c p x := by
  simp only [gddramRead, gddramByte, h]

/-- A byte that has been written reads as it was written. -/
theorem gddramRead_written {c : Controller} {p x : Nat} {v : Byte} (h : gddramHas p x = true)
    (hv : memRead c.gddram (gddramAddr p x) = some v) : gddramRead c p x = some v := by
  rw [gddramRead_of_has h, gddramByte, hv]; rfl

end Sys2Proof.Machine
end

