-- ==== Sys2Proof/Laws/Controller.lean ====
section
/-! SUPPORT. The reference slave (45_controller_reference): what each thing it reads can do to its state, and that its
invariant is kept. -/

namespace Sys2Proof.Machine

theorem controllerOk_reset : ControllerOk Controller.reset := by decide

theorem controllerOk_phase {c : Controller} (h : ControllerOk c) (p : Phase) : ControllerOk { c with phase := p } := h

theorem windowOk_setColumns {s e : Byte} {c d : Controller} (h : ControllerOk c) (hd : setColumns s e c = .ok d) :
    ControllerOk d := by
  unfold setColumns at hd
  split at hd
  · rename_i hs
    simp only [Except.ok.injEq] at hd
    subst hd
    exact ⟨h.1, ⟨Nat.le_refl _, hs.2.2, hs.2.1, h.2.1.2.2.2⟩, h.2.2⟩
  · cases hd

theorem windowOk_setPages {s e : Byte} {c d : Controller} (h : ControllerOk c) (hd : setPages s e c = .ok d) :
    ControllerOk d := by
  unfold setPages at hd
  split at hd
  · rename_i hs
    simp only [Except.ok.injEq] at hd
    subst hd
    exact ⟨h.1, ⟨h.2.1.1, h.2.1.2.1, h.2.1.2.2.1, Nat.le_refl _, hs.2.2, hs.2.1⟩, h.2.2⟩
  · cases hd

/-- What recording a command's arguments leaves (R108, R114): its own entry, and every entry of another opcode. -/
theorem mem_putSetting {l : List (Byte × List Byte)} {op : Byte} {args : List Byte} :
    (op, args) ∈ putSetting l op args ∧
      ∀ o a, o ≠ op → ((o, a) ∈ putSetting l op args ↔ (o, a) ∈ l) := by
  induction l with
  | nil => exact ⟨by simp [putSetting], fun o a h => by simp [putSetting, h]⟩
  | cons x rest ih =>
    obtain ⟨o', old⟩ := x
    unfold putSetting
    split
    · exact ⟨by simp, fun o a h => by simp [h]⟩
    · split
      · rename_i e
        subst e
        exact ⟨by simp, fun o a h => by simp [h]⟩
      · exact ⟨by simp [ih.1], fun o a h => by simp [ih.2 o a h]⟩

/-- Every entry after a command is recorded is its own or was there before. -/
theorem of_mem_putSetting {l : List (Byte × List Byte)} {op : Byte} {args : List Byte} {x : Byte × List Byte}
    (h : x ∈ putSetting l op args) : x = (op, args) ∨ x ∈ l := by
  induction l with
  | nil => simpa [putSetting] using h
  | cons y rest ih =>
    obtain ⟨o', old⟩ := y
    unfold putSetting at h
    split at h
    · simpa using h
    · split at h
      · rcases List.mem_cons.1 h with h | h
        · exact .inl h
        · exact .inr (List.mem_cons_of_mem _ h)
      · rcases List.mem_cons.1 h with h | h
        · exact .inr (by rw [h]; exact List.mem_cons_self ..)
        · exact (ih h).imp id (List.mem_cons_of_mem _)

/-- Recording a command keeps the opcodes strictly rising. -/
theorem putSetting_rising {l : List (Byte × List Byte)} (op : Byte) (args : List Byte)
    (h : l.Pairwise (fun a b => a.1.toNat < b.1.toNat)) :
    (putSetting l op args).Pairwise (fun a b => a.1.toNat < b.1.toNat) := by
  induction l with
  | nil => simp [putSetting]
  | cons x rest ih =>
    obtain ⟨o, old⟩ := x
    have hr := List.pairwise_cons.1 h
    unfold putSetting
    split
    · rename_i hlt
      refine List.pairwise_cons.2 ⟨fun y hy => ?_, h⟩
      rcases List.mem_cons.1 hy with rfl | hy
      · exact hlt
      · exact hlt.trans (hr.1 y hy)
    · split
      · rename_i e
        subst e
        exact List.pairwise_cons.2 ⟨hr.1, hr.2⟩
      · rename_i h1 h2
        refine List.pairwise_cons.2 ⟨fun y hy => ?_, ih hr.2⟩
        rcases of_mem_putSetting hy with rfl | hy
        · have : o.toNat ≠ op.toNat := fun e => h2 (BitVec.eq_of_toNat_eq e.symm)
          simp only; omega
        · exact hr.1 y hy

theorem controllerOk_execute {op : Byte} {args : List Byte} {c d : Controller} (h : ControllerOk c)
    (hd : executeCommand op args c = .ok d) : ControllerOk d := by
  unfold executeCommand at hd
  split at hd
  · exact windowOk_setColumns h hd
  · split at hd
    · exact windowOk_setPages h hd
    · split at hd
      · split at hd
        · simp only [Except.ok.injEq] at hd; subst hd; exact h
        · cases hd
      · split at hd
        · simp only [Except.ok.injEq] at hd; subst hd; exact h
        · split at hd
          · simp only [Except.ok.injEq] at hd; subst hd; exact h
          · simp only [Except.ok.injEq] at hd; subst hd
            exact ⟨h.1, h.2.1, h.2.2.1, putSetting_rising op args h.2.2.2⟩

theorem controllerOk_commandByte {v : Byte} {c d : Controller} (h : ControllerOk c)
    (hd : commandByte v c = .ok d) : ControllerOk d := by
  simp only [commandByte] at hd
  split at hd
  · split at hd
    · cases hd
    · exact controllerOk_execute h hd
    · rename_i n hn hcount
      simp only [Except.ok.injEq] at hd
      subst hd
      refine ⟨?_, h.2⟩
      intro p hp
      simp only [Option.mem_def, Option.some.injEq] at hp
      subst hp
      exact ⟨Nat.pos_of_ne_zero hn, hcount⟩
  · rename_i p hp
    split at hd
    · rename_i hl
      simp only [Except.ok.injEq] at hd
      subst hd
      refine ⟨?_, h.2⟩
      intro p' hp'
      simp only [Option.mem_def, Option.some.injEq] at hp'
      subst hp'
      exact ⟨hl, (h.1 p hp).2⟩
    · exact controllerOk_execute (c := { c with pending := none }) ⟨fun _ hq => (nomatch hq), h.2⟩ hd

theorem windowOk_advance {c : Controller} (h : WindowOk c) : WindowOk (advancePointer c) := by
  unfold advancePointer
  obtain ⟨h1, h2, h3, h4, h5, h6⟩ := h
  split
  · refine ⟨Nat.le_refl _, h1.trans h2, h3, ?_, ?_, h6⟩
    · simp only; split <;> omega
    · simp only; split <;> omega
  · exact ⟨by simp only; omega, by simp only; omega, h3, h4, h5, h6⟩

theorem controllerOk_dataByte {v : Byte} {c d : Controller} (h : ControllerOk c) (hd : dataByte v c = .ok d) :
    ControllerOk d := by
  unfold dataByte at hd
  split at hd
  · cases hd
  · split at hd
    · rename_i hh
      simp only [Except.ok.injEq] at hd
      subst hd
      have hw := windowOk_advance (c := { c with gddram := memWrite c.gddram (gddramAddr c.page c.col) v }) h.2.1
      have hg : (advancePointer { c with gddram := memWrite c.gddram (gddramAddr c.page c.col) v }).gddram =
          memWrite c.gddram (gddramAddr c.page c.col) v := by unfold advancePointer; split <;> rfl
      have hp : (advancePointer { c with gddram := memWrite c.gddram (gddramAddr c.page c.col) v }).pending =
          c.pending := by unfold advancePointer; split <;> rfl
      have hs : (advancePointer { c with gddram := memWrite c.gddram (gddramAddr c.page c.col) v }).settings =
          c.settings := by unfold advancePointer; split <;> rfl
      exact ⟨by rw [PendingOk, hp]; exact h.1, hw, by rw [hg]; exact memWf_memWrite v h.2.2.1 (gddramAddr_lt hh),
        by rw [SettingsOk, hs]; exact h.2.2.2⟩
    · cases hd

theorem controllerOk_byte {addr : BitVec 7} {v : Byte} {c d : Controller} (h : ControllerOk c)
    (hd : controllerByte addr v c = .ok d) : ControllerOk d := by
  unfold controllerByte at hd
  split at hd
  · simp only [Except.ok.injEq] at hd; subst hd; exact h
  · split at hd
    · simp only [Except.ok.injEq] at hd; subst hd; exact h
    · split at hd
      · simp only [Except.ok.injEq] at hd; subst hd; exact h
      · cases hd
  · exact controllerOk_commandByte h hd
  · exact controllerOk_dataByte h hd
  · simp only [Except.ok.injEq] at hd; subst hd; exact h
  · simp only [Except.ok.injEq] at hd; subst hd; exact h

theorem controllerOk_takes {par : Params} {byte : Option Byte} {c d : Controller} (h : ControllerOk c)
    (hd : controllerTakes par byte c = .ok d) : ControllerOk d := by
  unfold controllerTakes at hd
  split at hd
  · exact controllerOk_byte h hd
  · simp only [Except.ok.injEq] at hd; subst hd; exact h

theorem controllerOk_hears {k : SlaveKind} {i : Option Item} {c : Controller} (h : ControllerOk c) :
    ControllerOk (controllerHears k i c) := by
  unfold controllerHears
  split
  · exact h
  · exact h
  · exact h

theorem drawAnswer_ctl (p : Side) : (drawAnswer p).2.ctl = p.ctl := by
  unfold drawAnswer; split <;> rfl

/-- What the slave's answer does to its state: it takes the byte. -/
theorem answerSide_ctl {par : Params} {byte : Option Byte} {p q : Side} {d : SDrive}
    (h : answerSide par byte p = .ok (d, q)) : controllerTakes par byte p.ctl = .ok q.ctl := by
  unfold answerSide at h
  split at h
  · cases h
  · rename_i c hc
    split at h
    · simp only [Except.ok.injEq, Prod.mk.injEq] at h
      rw [hc, ← h.2]
    · simp only [Except.ok.injEq] at h
      rw [hc]
      have := drawAnswer_ctl { p with ctl := c }
      rw [h] at this
      exact congrArg _ this.symm

end Sys2Proof.Machine
end

