-- ==== Sys2Proof/Laws/Flow.lean ====
section
/-! SUPPORT. How pieces of an operation compose, and the one rule by which a property of each piece becomes a property of
the whole. -/

namespace Sys2Proof.Machine

variable {α β : Type}

@[simp] theorem Flow.bind_ok (a : α) (s : State) (f : α → State → Flow β) : (Flow.ok a s).bind f = f a s := rfl
@[simp] theorem Flow.bind_halted (s : State) (f : α → State → Flow β) : (Flow.halted s).bind f = .halted s := rfl
@[simp] theorem Flow.bind_aborted (s : State) (f : α → State → Flow β) : (Flow.aborted s).bind f = .aborted s := rfl
@[simp] theorem Flow.andThen_ok (a : α) (s : State) (f : State → Flow β) : (Flow.ok a s).andThen f = f s := rfl
@[simp] theorem Flow.andThen_halted (s : State) (f : State → Flow β) :
    (Flow.halted s : Flow α).andThen f = .halted s := rfl
@[simp] theorem Flow.andThen_aborted (s : State) (f : State → Flow β) :
    (Flow.aborted s : Flow α).andThen f = .aborted s := rfl

theorem Flow.andThen_assoc {γ : Type} (r : Flow α) (f : State → Flow β) (g : State → Flow γ) :
    (r.andThen f).andThen g = r.andThen (fun s => (f s).andThen g) := by
  cases r <;> rfl

/-- What holds of the state at each way a piece can end. -/
def Flow.Ends (r : Flow α) (ok : α → State → Prop) (halted aborted : State → Prop) : Prop :=
  match r with
  | .ok a s => ok a s
  | .halted s => halted s
  | .aborted s => aborted s

theorem Flow.Ends.andThen {r : Flow α} {f : State → Flow β} {P : α → State → Prop} {Q : β → State → Prop}
    {H A : State → Prop} (hr : r.Ends P H A) (hf : ∀ a s, P a s → (f s).Ends Q H A) :
    (r.andThen f).Ends Q H A := by
  cases r with
  | ok a s => exact hf a s hr
  | halted s => exact hr
  | aborted s => exact hr

theorem Flow.Ends.bind {r : Flow α} {f : α → State → Flow β} {P : α → State → Prop} {Q : β → State → Prop}
    {H A : State → Prop} (hr : r.Ends P H A) (hf : ∀ a s, P a s → (f a s).Ends Q H A) :
    (r.bind f).Ends Q H A := by
  cases r with
  | ok a s => exact hf a s hr
  | halted s => exact hr
  | aborted s => exact hr

theorem Flow.Ends.mono {r : Flow α} {P Q : α → State → Prop} {H H' A A' : State → Prop} (hr : r.Ends P H A)
    (hP : ∀ a s, P a s → Q a s) (hH : ∀ s, H s → H' s) (hA : ∀ s, A s → A' s) : r.Ends Q H' A' := by
  cases r with
  | ok a s => exact hP a s hr
  | halted s => exact hH s hr
  | aborted s => exact hA s hr

/-- The same property however a piece ends. -/
abbrev Flow.All (r : Flow α) (P : State → Prop) : Prop := r.Ends (fun _ s => P s) P P

end Sys2Proof.Machine
end

