-- ==== Sys2Proof/Laws/State.lean ====
section
/-! SUPPORT. Each field of State after each of the small named updates: one lemma a field and update, so that no proof
unfolds a record update. -/

namespace Sys2Proof.Machine

/-! ### `emit` -/

@[simp] theorem emit_drvScl (e : Event) (s : State) : (emit e s).drvScl = s.drvScl := rfl
@[simp] theorem emit_drvSda (e : Event) (s : State) : (emit e s).drvSda = s.drvSda := rfl
@[simp] theorem emit_slScl (e : Event) (s : State) : (emit e s).slScl = s.slScl := rfl
@[simp] theorem emit_slSda (e : Event) (s : State) : (emit e s).slSda = s.slSda := rfl
@[simp] theorem emit_clkPhase (e : Event) (s : State) : (emit e s).clkPhase = s.clkPhase := rfl
@[simp] theorem emit_frame (e : Event) (s : State) : (emit e s).frame = s.frame := rfl
@[simp] theorem emit_lastAck (e : Event) (s : State) : (emit e s).lastAck = s.lastAck := rfl
@[simp] theorem emit_cfg (e : Event) (s : State) : (emit e s).cfg = s.cfg := rfl
@[simp] theorem emit_par (e : Event) (s : State) : (emit e s).par = s.par := rfl
@[simp] theorem emit_dstate (e : Event) (s : State) : (emit e s).dstate = s.dstate := rfl
@[simp] theorem emit_curCol (e : Event) (s : State) : (emit e s).curCol = s.curCol := rfl
@[simp] theorem emit_curRow (e : Event) (s : State) : (emit e s).curRow = s.curRow := rfl
@[simp] theorem emit_opNack (e : Event) (s : State) : (emit e s).opNack = s.opNack := rfl
@[simp] theorem emit_trace (e : Event) (s : State) : (emit e s).trace = s.trace ++ [e] := rfl
@[simp] theorem emit_fault (e : Event) (s : State) : (emit e s).fault = s.fault := rfl
@[simp] theorem emit_refused (e : Event) (s : State) : (emit e s).refused = s.refused := rfl
@[simp] theorem emit_mpc (e : Event) (s : State) : (emit e s).mpc = s.mpc := rfl
@[simp] theorem emit_ctl (e : Event) (s : State) : (emit e s).ctl = s.ctl := rfl
@[simp] theorem emit_queue (e : Event) (s : State) : (emit e s).queue = s.queue := rfl
@[simp] theorem emit_buf (e : Event) (s : State) : (emit e s).buf = s.buf := rfl
@[simp] theorem emit_slaveIn (e : Event) (s : State) : (emit e s).slaveIn = s.slaveIn := rfl
@[simp] theorem emit_draws (e : Event) (s : State) : (emit e s).draws = s.draws := rfl

/-! ### `tick` -/

@[simp] theorem tick_drvScl (s : State) : (tick s).drvScl = s.drvScl := rfl
@[simp] theorem tick_drvSda (s : State) : (tick s).drvSda = s.drvSda := rfl
@[simp] theorem tick_slScl (s : State) : (tick s).slScl = s.slScl := rfl
@[simp] theorem tick_slSda (s : State) : (tick s).slSda = s.slSda := rfl
@[simp] theorem tick_clkPhase (s : State) : (tick s).clkPhase = s.clkPhase := rfl
@[simp] theorem tick_frame (s : State) : (tick s).frame = s.frame := rfl
@[simp] theorem tick_lastAck (s : State) : (tick s).lastAck = s.lastAck := rfl
@[simp] theorem tick_cfg (s : State) : (tick s).cfg = s.cfg := rfl
@[simp] theorem tick_par (s : State) : (tick s).par = s.par := rfl
@[simp] theorem tick_dstate (s : State) : (tick s).dstate = s.dstate := rfl
@[simp] theorem tick_curCol (s : State) : (tick s).curCol = s.curCol := rfl
@[simp] theorem tick_curRow (s : State) : (tick s).curRow = s.curRow := rfl
@[simp] theorem tick_opNack (s : State) : (tick s).opNack = s.opNack := rfl
@[simp] theorem tick_trace (s : State) : (tick s).trace = s.trace := rfl
@[simp] theorem tick_fault (s : State) : (tick s).fault = s.fault := rfl
@[simp] theorem tick_refused (s : State) : (tick s).refused = s.refused := rfl
@[simp] theorem tick_mpc (s : State) : (tick s).mpc = s.mpc + 1 := rfl
@[simp] theorem tick_ctl (s : State) : (tick s).ctl = s.ctl := rfl
@[simp] theorem tick_queue (s : State) : (tick s).queue = s.queue := rfl
@[simp] theorem tick_buf (s : State) : (tick s).buf = s.buf := rfl
@[simp] theorem tick_slaveIn (s : State) : (tick s).slaveIn = s.slaveIn := rfl
@[simp] theorem tick_draws (s : State) : (tick s).draws = s.draws := rfl

/-! ### `raise` -/

@[simp] theorem raise_drvScl (r : FaultReason) (s : State) : (raise r s).drvScl = s.drvScl := rfl
@[simp] theorem raise_drvSda (r : FaultReason) (s : State) : (raise r s).drvSda = s.drvSda := rfl
@[simp] theorem raise_slScl (r : FaultReason) (s : State) : (raise r s).slScl = s.slScl := rfl
@[simp] theorem raise_slSda (r : FaultReason) (s : State) : (raise r s).slSda = s.slSda := rfl
@[simp] theorem raise_clkPhase (r : FaultReason) (s : State) : (raise r s).clkPhase = s.clkPhase := rfl
@[simp] theorem raise_frame (r : FaultReason) (s : State) : (raise r s).frame = s.frame := rfl
@[simp] theorem raise_lastAck (r : FaultReason) (s : State) : (raise r s).lastAck = s.lastAck := rfl
@[simp] theorem raise_cfg (r : FaultReason) (s : State) : (raise r s).cfg = s.cfg := rfl
@[simp] theorem raise_par (r : FaultReason) (s : State) : (raise r s).par = s.par := rfl
@[simp] theorem raise_dstate (r : FaultReason) (s : State) : (raise r s).dstate = s.dstate := rfl
@[simp] theorem raise_curCol (r : FaultReason) (s : State) : (raise r s).curCol = s.curCol := rfl
@[simp] theorem raise_curRow (r : FaultReason) (s : State) : (raise r s).curRow = s.curRow := rfl
@[simp] theorem raise_opNack (r : FaultReason) (s : State) : (raise r s).opNack = s.opNack := rfl
@[simp] theorem raise_trace (r : FaultReason) (s : State) : (raise r s).trace = s.trace := rfl
@[simp] theorem raise_fault (r : FaultReason) (s : State) : (raise r s).fault = some (r, s.mpc) := rfl
@[simp] theorem raise_refused (r : FaultReason) (s : State) : (raise r s).refused = s.refused := rfl
@[simp] theorem raise_mpc (r : FaultReason) (s : State) : (raise r s).mpc = s.mpc := rfl
@[simp] theorem raise_ctl (r : FaultReason) (s : State) : (raise r s).ctl = s.ctl := rfl
@[simp] theorem raise_queue (r : FaultReason) (s : State) : (raise r s).queue = s.queue := rfl
@[simp] theorem raise_buf (r : FaultReason) (s : State) : (raise r s).buf = s.buf := rfl
@[simp] theorem raise_slaveIn (r : FaultReason) (s : State) : (raise r s).slaveIn = s.slaveIn := rfl
@[simp] theorem raise_draws (r : FaultReason) (s : State) : (raise r s).draws = s.draws := rfl

/-! ### `refuse` -/

@[simp] theorem refuse_drvScl (r : RefusalReason) (s : State) : (refuse r s).drvScl = s.drvScl := rfl
@[simp] theorem refuse_drvSda (r : RefusalReason) (s : State) : (refuse r s).drvSda = s.drvSda := rfl
@[simp] theorem refuse_slScl (r : RefusalReason) (s : State) : (refuse r s).slScl = s.slScl := rfl
@[simp] theorem refuse_slSda (r : RefusalReason) (s : State) : (refuse r s).slSda = s.slSda := rfl
@[simp] theorem refuse_clkPhase (r : RefusalReason) (s : State) : (refuse r s).clkPhase = s.clkPhase := rfl
@[simp] theorem refuse_frame (r : RefusalReason) (s : State) : (refuse r s).frame = s.frame := rfl
@[simp] theorem refuse_lastAck (r : RefusalReason) (s : State) : (refuse r s).lastAck = s.lastAck := rfl
@[simp] theorem refuse_cfg (r : RefusalReason) (s : State) : (refuse r s).cfg = s.cfg := rfl
@[simp] theorem refuse_par (r : RefusalReason) (s : State) : (refuse r s).par = s.par := rfl
@[simp] theorem refuse_dstate (r : RefusalReason) (s : State) : (refuse r s).dstate = s.dstate := rfl
@[simp] theorem refuse_curCol (r : RefusalReason) (s : State) : (refuse r s).curCol = s.curCol := rfl
@[simp] theorem refuse_curRow (r : RefusalReason) (s : State) : (refuse r s).curRow = s.curRow := rfl
@[simp] theorem refuse_opNack (r : RefusalReason) (s : State) : (refuse r s).opNack = s.opNack := rfl
@[simp] theorem refuse_trace (r : RefusalReason) (s : State) : (refuse r s).trace = s.trace := rfl
@[simp] theorem refuse_fault (r : RefusalReason) (s : State) : (refuse r s).fault = s.fault := rfl
@[simp] theorem refuse_refused (r : RefusalReason) (s : State) : (refuse r s).refused = some r := rfl
@[simp] theorem refuse_mpc (r : RefusalReason) (s : State) : (refuse r s).mpc = s.mpc := rfl
@[simp] theorem refuse_ctl (r : RefusalReason) (s : State) : (refuse r s).ctl = s.ctl := rfl
@[simp] theorem refuse_queue (r : RefusalReason) (s : State) : (refuse r s).queue = s.queue := rfl
@[simp] theorem refuse_buf (r : RefusalReason) (s : State) : (refuse r s).buf = s.buf := rfl
@[simp] theorem refuse_slaveIn (r : RefusalReason) (s : State) : (refuse r s).slaveIn = s.slaveIn := rfl
@[simp] theorem refuse_draws (r : RefusalReason) (s : State) : (refuse r s).draws = s.draws := rfl

/-! ### `noteNack` -/

@[simp] theorem noteNack_drvScl (s : State) : (noteNack s).drvScl = s.drvScl := rfl
@[simp] theorem noteNack_drvSda (s : State) : (noteNack s).drvSda = s.drvSda := rfl
@[simp] theorem noteNack_slScl (s : State) : (noteNack s).slScl = s.slScl := rfl
@[simp] theorem noteNack_slSda (s : State) : (noteNack s).slSda = s.slSda := rfl
@[simp] theorem noteNack_clkPhase (s : State) : (noteNack s).clkPhase = s.clkPhase := rfl
@[simp] theorem noteNack_frame (s : State) : (noteNack s).frame = s.frame := rfl
@[simp] theorem noteNack_lastAck (s : State) : (noteNack s).lastAck = s.lastAck := rfl
@[simp] theorem noteNack_cfg (s : State) : (noteNack s).cfg = s.cfg := rfl
@[simp] theorem noteNack_par (s : State) : (noteNack s).par = s.par := rfl
@[simp] theorem noteNack_dstate (s : State) : (noteNack s).dstate = s.dstate := rfl
@[simp] theorem noteNack_curCol (s : State) : (noteNack s).curCol = s.curCol := rfl
@[simp] theorem noteNack_curRow (s : State) : (noteNack s).curRow = s.curRow := rfl
@[simp] theorem noteNack_opNack (s : State) : (noteNack s).opNack = true := rfl
@[simp] theorem noteNack_trace (s : State) : (noteNack s).trace = s.trace := rfl
@[simp] theorem noteNack_fault (s : State) : (noteNack s).fault = s.fault := rfl
@[simp] theorem noteNack_refused (s : State) : (noteNack s).refused = s.refused := rfl
@[simp] theorem noteNack_mpc (s : State) : (noteNack s).mpc = s.mpc := rfl
@[simp] theorem noteNack_ctl (s : State) : (noteNack s).ctl = s.ctl := rfl
@[simp] theorem noteNack_queue (s : State) : (noteNack s).queue = s.queue := rfl
@[simp] theorem noteNack_buf (s : State) : (noteNack s).buf = s.buf := rfl
@[simp] theorem noteNack_slaveIn (s : State) : (noteNack s).slaveIn = s.slaveIn := rfl
@[simp] theorem noteNack_draws (s : State) : (noteNack s).draws = s.draws := rfl

/-! ### `beginOp` -/

@[simp] theorem beginOp_drvScl (i : Instr) (s : State) : (beginOp i s).drvScl = s.drvScl := rfl
@[simp] theorem beginOp_drvSda (i : Instr) (s : State) : (beginOp i s).drvSda = s.drvSda := rfl
@[simp] theorem beginOp_slScl (i : Instr) (s : State) : (beginOp i s).slScl = s.slScl := rfl
@[simp] theorem beginOp_slSda (i : Instr) (s : State) : (beginOp i s).slSda = s.slSda := rfl
@[simp] theorem beginOp_clkPhase (i : Instr) (s : State) : (beginOp i s).clkPhase = s.clkPhase := rfl
@[simp] theorem beginOp_frame (i : Instr) (s : State) : (beginOp i s).frame = s.frame := rfl
@[simp] theorem beginOp_lastAck (i : Instr) (s : State) : (beginOp i s).lastAck = s.lastAck := rfl
@[simp] theorem beginOp_cfg (i : Instr) (s : State) : (beginOp i s).cfg = s.cfg := rfl
@[simp] theorem beginOp_par (i : Instr) (s : State) : (beginOp i s).par = s.par := rfl
@[simp] theorem beginOp_dstate (i : Instr) (s : State) : (beginOp i s).dstate = s.dstate := rfl
@[simp] theorem beginOp_curCol (i : Instr) (s : State) : (beginOp i s).curCol = s.curCol := rfl
@[simp] theorem beginOp_curRow (i : Instr) (s : State) : (beginOp i s).curRow = s.curRow := rfl
@[simp] theorem beginOp_opNack (i : Instr) (s : State) : (beginOp i s).opNack = s.opNack := rfl
@[simp] theorem beginOp_trace (i : Instr) (s : State) : (beginOp i s).trace = s.trace ++ [.opBegin (requestOf i s)] := rfl
@[simp] theorem beginOp_fault (i : Instr) (s : State) : (beginOp i s).fault = s.fault := rfl
@[simp] theorem beginOp_refused (i : Instr) (s : State) : (beginOp i s).refused = s.refused := rfl
@[simp] theorem beginOp_mpc (i : Instr) (s : State) : (beginOp i s).mpc = s.mpc := rfl
@[simp] theorem beginOp_ctl (i : Instr) (s : State) : (beginOp i s).ctl = s.ctl := rfl
@[simp] theorem beginOp_queue (i : Instr) (s : State) : (beginOp i s).queue = s.queue := rfl
@[simp] theorem beginOp_buf (i : Instr) (s : State) : (beginOp i s).buf = s.buf := rfl
@[simp] theorem beginOp_slaveIn (i : Instr) (s : State) : (beginOp i s).slaveIn = s.slaveIn := rfl
@[simp] theorem beginOp_draws (i : Instr) (s : State) : (beginOp i s).draws = s.draws := rfl

/-! ### `endOp` -/

@[simp] theorem endOp_drvScl (res : Result) (s : State) : (endOp res s).drvScl = s.drvScl := rfl
@[simp] theorem endOp_drvSda (res : Result) (s : State) : (endOp res s).drvSda = s.drvSda := rfl
@[simp] theorem endOp_slScl (res : Result) (s : State) : (endOp res s).slScl = s.slScl := rfl
@[simp] theorem endOp_slSda (res : Result) (s : State) : (endOp res s).slSda = s.slSda := rfl
@[simp] theorem endOp_clkPhase (res : Result) (s : State) : (endOp res s).clkPhase = s.clkPhase := rfl
@[simp] theorem endOp_frame (res : Result) (s : State) : (endOp res s).frame = s.frame := rfl
@[simp] theorem endOp_lastAck (res : Result) (s : State) : (endOp res s).lastAck = s.lastAck := rfl
@[simp] theorem endOp_cfg (res : Result) (s : State) : (endOp res s).cfg = s.cfg := rfl
@[simp] theorem endOp_par (res : Result) (s : State) : (endOp res s).par = s.par := rfl
@[simp] theorem endOp_dstate (res : Result) (s : State) : (endOp res s).dstate = s.dstate := rfl
@[simp] theorem endOp_curCol (res : Result) (s : State) : (endOp res s).curCol = s.curCol := rfl
@[simp] theorem endOp_curRow (res : Result) (s : State) : (endOp res s).curRow = s.curRow := rfl
@[simp] theorem endOp_opNack (res : Result) (s : State) : (endOp res s).opNack = s.opNack := rfl
@[simp] theorem endOp_trace (res : Result) (s : State) : (endOp res s).trace = s.trace ++ [.opEnd res] := rfl
@[simp] theorem endOp_fault (res : Result) (s : State) : (endOp res s).fault = s.fault := rfl
@[simp] theorem endOp_refused (res : Result) (s : State) : (endOp res s).refused = s.refused := rfl
@[simp] theorem endOp_mpc (res : Result) (s : State) : (endOp res s).mpc = 0 := rfl
@[simp] theorem endOp_ctl (res : Result) (s : State) : (endOp res s).ctl = s.ctl := rfl
@[simp] theorem endOp_queue (res : Result) (s : State) : (endOp res s).queue = s.queue := rfl
@[simp] theorem endOp_buf (res : Result) (s : State) : (endOp res s).buf = s.buf := rfl
@[simp] theorem endOp_slaveIn (res : Result) (s : State) : (endOp res s).slaveIn = s.slaveIn := rfl
@[simp] theorem endOp_draws (res : Result) (s : State) : (endOp res s).draws = s.draws := rfl

/-! ### `issue` -/

@[simp] theorem issue_drvScl (e : Entry) (rest : List Entry) (s : State) : (issue e rest s).drvScl = s.drvScl := rfl
@[simp] theorem issue_drvSda (e : Entry) (rest : List Entry) (s : State) : (issue e rest s).drvSda = s.drvSda := rfl
@[simp] theorem issue_slScl (e : Entry) (rest : List Entry) (s : State) : (issue e rest s).slScl = s.slScl := rfl
@[simp] theorem issue_slSda (e : Entry) (rest : List Entry) (s : State) : (issue e rest s).slSda = s.slSda := rfl
@[simp] theorem issue_clkPhase (e : Entry) (rest : List Entry) (s : State) : (issue e rest s).clkPhase = s.clkPhase := rfl
@[simp] theorem issue_frame (e : Entry) (rest : List Entry) (s : State) : (issue e rest s).frame = s.frame := rfl
@[simp] theorem issue_lastAck (e : Entry) (rest : List Entry) (s : State) : (issue e rest s).lastAck = s.lastAck := rfl
@[simp] theorem issue_cfg (e : Entry) (rest : List Entry) (s : State) : (issue e rest s).cfg = s.cfg := rfl
@[simp] theorem issue_par (e : Entry) (rest : List Entry) (s : State) : (issue e rest s).par = s.par := rfl
@[simp] theorem issue_dstate (e : Entry) (rest : List Entry) (s : State) : (issue e rest s).dstate = s.dstate := rfl
@[simp] theorem issue_curCol (e : Entry) (rest : List Entry) (s : State) : (issue e rest s).curCol = s.curCol := rfl
@[simp] theorem issue_curRow (e : Entry) (rest : List Entry) (s : State) : (issue e rest s).curRow = s.curRow := rfl
@[simp] theorem issue_opNack (e : Entry) (rest : List Entry) (s : State) : (issue e rest s).opNack = s.opNack := rfl
@[simp] theorem issue_trace (e : Entry) (rest : List Entry) (s : State) : (issue e rest s).trace = s.trace := rfl
@[simp] theorem issue_fault (e : Entry) (rest : List Entry) (s : State) : (issue e rest s).fault = s.fault := rfl
@[simp] theorem issue_refused (e : Entry) (rest : List Entry) (s : State) : (issue e rest s).refused = s.refused := rfl
@[simp] theorem issue_mpc (e : Entry) (rest : List Entry) (s : State) : (issue e rest s).mpc = s.mpc := rfl
@[simp] theorem issue_ctl (e : Entry) (rest : List Entry) (s : State) : (issue e rest s).ctl = s.ctl := rfl
@[simp] theorem issue_queue (e : Entry) (rest : List Entry) (s : State) : (issue e rest s).queue = rest := rfl
@[simp] theorem issue_buf (e : Entry) (rest : List Entry) (s : State) : (issue e rest s).buf = e.buf := rfl
@[simp] theorem issue_slaveIn (e : Entry) (rest : List Entry) (s : State) : (issue e rest s).slaveIn = s.slaveIn := rfl
@[simp] theorem issue_draws (e : Entry) (rest : List Entry) (s : State) : (issue e rest s).draws = s.draws := rfl

/-! ### `setDriver` -/

@[simp] theorem setDriver_slScl (l : Line) (m : Drive) (s : State) : (setDriver l m s).slScl = s.slScl := by cases l <;> rfl
@[simp] theorem setDriver_slSda (l : Line) (m : Drive) (s : State) : (setDriver l m s).slSda = s.slSda := by cases l <;> rfl
@[simp] theorem setDriver_frame (l : Line) (m : Drive) (s : State) : (setDriver l m s).frame = s.frame := by cases l <;> rfl
@[simp] theorem setDriver_lastAck (l : Line) (m : Drive) (s : State) : (setDriver l m s).lastAck = s.lastAck := by cases l <;> rfl
@[simp] theorem setDriver_cfg (l : Line) (m : Drive) (s : State) : (setDriver l m s).cfg = s.cfg := by cases l <;> rfl
@[simp] theorem setDriver_par (l : Line) (m : Drive) (s : State) : (setDriver l m s).par = s.par := by cases l <;> rfl
@[simp] theorem setDriver_dstate (l : Line) (m : Drive) (s : State) : (setDriver l m s).dstate = s.dstate := by cases l <;> rfl
@[simp] theorem setDriver_curCol (l : Line) (m : Drive) (s : State) : (setDriver l m s).curCol = s.curCol := by cases l <;> rfl
@[simp] theorem setDriver_curRow (l : Line) (m : Drive) (s : State) : (setDriver l m s).curRow = s.curRow := by cases l <;> rfl
@[simp] theorem setDriver_opNack (l : Line) (m : Drive) (s : State) : (setDriver l m s).opNack = s.opNack := by cases l <;> rfl
@[simp] theorem setDriver_trace (l : Line) (m : Drive) (s : State) : (setDriver l m s).trace = s.trace := by cases l <;> rfl
@[simp] theorem setDriver_fault (l : Line) (m : Drive) (s : State) : (setDriver l m s).fault = s.fault := by cases l <;> rfl
@[simp] theorem setDriver_refused (l : Line) (m : Drive) (s : State) : (setDriver l m s).refused = s.refused := by cases l <;> rfl
@[simp] theorem setDriver_mpc (l : Line) (m : Drive) (s : State) : (setDriver l m s).mpc = s.mpc := by cases l <;> rfl
@[simp] theorem setDriver_ctl (l : Line) (m : Drive) (s : State) : (setDriver l m s).ctl = s.ctl := by cases l <;> rfl
@[simp] theorem setDriver_queue (l : Line) (m : Drive) (s : State) : (setDriver l m s).queue = s.queue := by cases l <;> rfl
@[simp] theorem setDriver_buf (l : Line) (m : Drive) (s : State) : (setDriver l m s).buf = s.buf := by cases l <;> rfl
@[simp] theorem setDriver_slaveIn (l : Line) (m : Drive) (s : State) : (setDriver l m s).slaveIn = s.slaveIn := by cases l <;> rfl
@[simp] theorem setDriver_draws (l : Line) (m : Drive) (s : State) : (setDriver l m s).draws = s.draws := by cases l <;> rfl

/-! ### `slaveHears` -/

@[simp] theorem slaveHears_drvScl (i : Option Item) (s : State) : (slaveHears i s).drvScl = s.drvScl := rfl
@[simp] theorem slaveHears_drvSda (i : Option Item) (s : State) : (slaveHears i s).drvSda = s.drvSda := rfl
@[simp] theorem slaveHears_slScl (i : Option Item) (s : State) : (slaveHears i s).slScl = s.slScl := rfl
@[simp] theorem slaveHears_slSda (i : Option Item) (s : State) : (slaveHears i s).slSda = s.slSda := rfl
@[simp] theorem slaveHears_clkPhase (i : Option Item) (s : State) : (slaveHears i s).clkPhase = s.clkPhase := rfl
@[simp] theorem slaveHears_frame (i : Option Item) (s : State) : (slaveHears i s).frame = s.frame := rfl
@[simp] theorem slaveHears_lastAck (i : Option Item) (s : State) : (slaveHears i s).lastAck = s.lastAck := rfl
@[simp] theorem slaveHears_cfg (i : Option Item) (s : State) : (slaveHears i s).cfg = s.cfg := rfl
@[simp] theorem slaveHears_par (i : Option Item) (s : State) : (slaveHears i s).par = s.par := rfl
@[simp] theorem slaveHears_dstate (i : Option Item) (s : State) : (slaveHears i s).dstate = s.dstate := rfl
@[simp] theorem slaveHears_curCol (i : Option Item) (s : State) : (slaveHears i s).curCol = s.curCol := rfl
@[simp] theorem slaveHears_curRow (i : Option Item) (s : State) : (slaveHears i s).curRow = s.curRow := rfl
@[simp] theorem slaveHears_opNack (i : Option Item) (s : State) : (slaveHears i s).opNack = s.opNack := rfl
@[simp] theorem slaveHears_trace (i : Option Item) (s : State) : (slaveHears i s).trace = s.trace := rfl
@[simp] theorem slaveHears_fault (i : Option Item) (s : State) : (slaveHears i s).fault = s.fault := rfl
@[simp] theorem slaveHears_refused (i : Option Item) (s : State) : (slaveHears i s).refused = s.refused := rfl
@[simp] theorem slaveHears_mpc (i : Option Item) (s : State) : (slaveHears i s).mpc = s.mpc := rfl
@[simp] theorem slaveHears_ctl (i : Option Item) (s : State) : (slaveHears i s).ctl = controllerHears s.par.slave i s.ctl := rfl
@[simp] theorem slaveHears_queue (i : Option Item) (s : State) : (slaveHears i s).queue = s.queue := rfl
@[simp] theorem slaveHears_buf (i : Option Item) (s : State) : (slaveHears i s).buf = s.buf := rfl
@[simp] theorem slaveHears_slaveIn (i : Option Item) (s : State) : (slaveHears i s).slaveIn = s.slaveIn := rfl
@[simp] theorem slaveHears_draws (i : Option Item) (s : State) : (slaveHears i s).draws = s.draws := rfl

@[simp] theorem setDriver_scl_drvScl (m : Drive) (s : State) : (setDriver .scl m s).drvScl = m := rfl
@[simp] theorem setDriver_scl_drvSda (m : Drive) (s : State) : (setDriver .scl m s).drvSda = s.drvSda := rfl
@[simp] theorem setDriver_scl_clkPhase (m : Drive) (s : State) : (setDriver .scl m s).clkPhase = (m != .low) := rfl
@[simp] theorem setDriver_sda_drvScl (m : Drive) (s : State) : (setDriver .sda m s).drvScl = s.drvScl := rfl
@[simp] theorem setDriver_sda_drvSda (m : Drive) (s : State) : (setDriver .sda m s).drvSda = m := rfl
@[simp] theorem setDriver_sda_clkPhase (m : Drive) (s : State) : (setDriver .sda m s).clkPhase = s.clkPhase := rfl

end Sys2Proof.Machine
end

