-- ==== Sys2Proof/Laws/Wire.lean ====
section
/-! SUPPORT. The receiver and the wire decoding over traces that grow (41_bus R81), and what a receiver hears of each piece
of a transfer. -/

namespace Sys2Proof.Machine

/-! ### Traces that grow -/

@[simp] theorem hearAll_nil (r : Receiver) : hearAll r [] = r := rfl
@[simp] theorem hearAll_cons (r : Receiver) (e : Event) (es : List Event) :
    hearAll r (e :: es) = hearAll (hear r e) es := rfl
theorem hearAll_append (r : Receiver) (a b : List Event) : hearAll r (a ++ b) = hearAll (hearAll r a) b := by
  simp [hearAll, List.foldl_append]

@[simp] theorem receiver_append (a b : List Event) : receiver (a ++ b) = hearAll (receiver a) b :=
  hearAll_append _ a b

@[simp] theorem decodeFrom_nil (r : Receiver) : decodeFrom r [] = [] := rfl
theorem decodeFrom_append (r : Receiver) (a b : List Event) :
    decodeFrom r (a ++ b) = decodeFrom r a ++ decodeFrom (hearAll r a) b := by
  induction a generalizing r with
  | nil => rfl
  | cons e es ih => simp [decodeFrom, ih]

theorem decodeTrace_append (a b : List Event) : decodeTrace (a ++ b) = decodeTrace a ++ decodeFrom (receiver a) b :=
  decodeFrom_append _ a b

theorem dataStableFrom_append (r : Receiver) (a b : List Event) :
    dataStableFrom r (a ++ b) = (dataStableFrom r a && dataStableFrom (hearAll r a) b) := by
  induction a generalizing r with
  | nil => simp [dataStableFrom]
  | cons e es ih => simp [dataStableFrom, ih, Bool.and_assoc]

theorem dataStable_append (a b : List Event) :
    dataStable (a ++ b) = (dataStable a && dataStableFrom (receiver a) b) :=
  dataStableFrom_append _ a b

/-! ### One event -/

@[simp] theorem hear_settle (r : Receiver) : hear r .settle = r := rfl
@[simp] theorem hear_sample (r : Receiver) (v : Bool) : hear r (.sample v) = r := rfl
@[simp] theorem hear_opBegin (r : Receiver) (q : Request) : hear r (.opBegin q) = r := rfl
@[simp] theorem hear_opEnd (r : Receiver) (res : Result) : hear r (.opEnd res) = r := rfl
@[simp] theorem itemAt_settle (r : Receiver) : itemAt r .settle = none := rfl
@[simp] theorem itemAt_sample (r : Receiver) (v : Bool) : itemAt r (.sample v) = none := rfl
@[simp] theorem itemAt_opBegin (r : Receiver) (q : Request) : itemAt r (.opBegin q) = none := rfl
@[simp] theorem itemAt_opEnd (r : Receiver) (res : Result) : itemAt r (.opEnd res) = none := rfl

theorem hear_edge_scl (r : Receiver) (l : Line) (v : Bool) :
    (hear r (.edge l v)).scl = if l = .scl then v else r.scl := by
  cases l <;> cases v <;> simp [hear] <;> split <;> rfl

theorem hear_edge_sda (r : Receiver) (l : Line) (v : Bool) :
    (hear r (.edge l v)).sda = if l = .sda then v else r.sda := by
  cases l <;> cases v <;> simp [hear] <;> split <;> rfl

/-- An edge of the data line while the clock is low says nothing. -/
theorem hear_data_low (r : Receiver) (v : Bool) (h : r.scl = false) :
    hear r (.edge .sda v) = { r with sda := v } := by
  simp [hear, h]

theorem itemAt_data_low (r : Receiver) (v : Bool) (h : r.scl = false) : itemAt r (.edge .sda v) = none := by
  simp [itemAt, h]

/-! ### The bits of a byte -/

theorem byteOfBits_bitsMsb (v : Byte) : byteOfBits (bitsMsb v) = v := by
  revert v; decide

@[simp] theorem bitsMsb_length (v : Byte) : (bitsMsb v).length = 8 := rfl

/-! ### The pieces of a transfer, as a receiver hears them -/

/-- The data level moved while the clock is low. -/
theorem hearAll_changeEvents (r : Receiver) (new : Bool) (h : r.scl = false) :
    hearAll r (changeEvents .sda r.sda new) = { r with sda := new } := by
  unfold changeEvents
  split
  · rename_i e; subst e; rfl
  · simp [hear_data_low _ _ h]

theorem decodeFrom_changeEvents (r : Receiver) (old new : Bool) (h : r.scl = false) :
    decodeFrom r (changeEvents .sda old new) = [] := by
  unfold changeEvents
  split
  · rfl
  · simp [decodeFrom, itemAt_data_low _ _ h]

theorem dataStableFrom_changeEvents (r : Receiver) (old new : Bool) (h : r.scl = false) :
    dataStableFrom r (changeEvents .sda old new) = true := by
  unfold changeEvents
  split
  · rfl
  · simp [dataStableFrom, edgeFramed, h]

/-- The bits a receiver holds after one more. -/
def nextBits (bits : List Bool) (b : Bool) : List Bool := if bits.length = 8 then [] else bits ++ [b]

theorem nextBits_length (bits : List Bool) (b : Bool) (h : bits.length ≤ 8) : (nextBits bits b).length ≤ 8 := by
  unfold nextBits
  split
  · simp
  · simp only [List.length_append, List.length_cons, List.length_nil]; omega

/-- A receiver in an open transfer with the clock low hears one data bit. -/
theorem hearAll_bitEvents (r : Receiver) (b : Bool) (h : r.scl = false) (ha : r.active = true) :
    hearAll r (bitEvents r.sda b) = { r with sda := b, bits := nextBits r.bits b } := by
  rw [bitEvents, hearAll_append, hearAll_changeEvents r b h]
  simp [hear, nextBits, h, ha]

theorem decodeFrom_bitEvents (r : Receiver) (b : Bool) (h : r.scl = false) (ha : r.active = true)
    (hl : r.bits.length ≠ 8) : decodeFrom r (bitEvents r.sda b) = [] := by
  rw [bitEvents, decodeFrom_append, decodeFrom_changeEvents r _ b h, hearAll_changeEvents r b h]
  simp [decodeFrom, itemAt, hear, ha, hl]

theorem dataStableFrom_bitEvents (r : Receiver) (old b : Bool) (h : r.scl = false) :
    dataStableFrom r (bitEvents old b) = true := by
  unfold bitEvents changeEvents
  split <;> simp [dataStableFrom, edgeFramed, h]

/-- A receiver hears a run of data bits that does not complete a byte. -/
theorem hearAll_bitsEvents (r : Receiver) (bs : List Bool) (h : r.scl = false) (ha : r.active = true)
    (hl : r.bits.length + bs.length ≤ 8) :
    hearAll r (bitsEvents r.sda bs) = { r with sda := bs.getLastD r.sda, bits := r.bits ++ bs } := by
  induction bs generalizing r with
  | nil => simp [bitsEvents]
  | cons b rest ih =>
    have hne : r.bits.length ≠ 8 := by simp at hl; omega
    rw [bitsEvents, hearAll_append, hearAll_bitEvents r b h ha]
    have := ih { r with sda := b, bits := nextBits r.bits b } h ha (by
      simp only [nextBits, hne, if_false, List.length_append, List.length_cons, List.length_nil]
      simp at hl; omega)
    rw [this]
    simp only [nextBits, hne, if_false, List.append_assoc, List.singleton_append]
    cases rest <;> rfl

theorem decodeFrom_bitsEvents (r : Receiver) (bs : List Bool) (h : r.scl = false) (ha : r.active = true)
    (hl : r.bits.length + bs.length ≤ 8) : decodeFrom r (bitsEvents r.sda bs) = [] := by
  induction bs generalizing r with
  | nil => rfl
  | cons b rest ih =>
    have hne : r.bits.length ≠ 8 := by simp at hl; omega
    rw [bitsEvents, decodeFrom_append, decodeFrom_bitEvents r b h ha hne, hearAll_bitEvents r b h ha]
    have := ih { r with sda := b, bits := nextBits r.bits b } h ha (by
      simp only [nextBits, hne, if_false, List.length_append, List.length_cons, List.length_nil]
      simp at hl; omega)
    simpa using this

/-- A receiver that holds eight bits hears the ACK slot. -/
theorem hearAll_ackEvents (r : Receiver) (d : SDrive) (h : r.scl = false) (ha : r.active = true) :
    hearAll r (ackEvents r.sda d) =
      { r with sda := true, bits := nextBits r.bits (releasedLevel d) } := by
  rw [ackEvents, hearAll_append, hearAll_append, hearAll_append, hearAll_changeEvents r _ h]
  cases d <;> simp [hear, nextBits, releasedLevel, changeEvents, h, ha]

theorem decodeFrom_ackEvents (r : Receiver) (d : SDrive) (h : r.scl = false) (ha : r.active = true) :
    decodeFrom r (ackEvents r.sda d) =
      if r.bits.length = 8 then [.byte (byteOfBits r.bits) (releasedLevel d)] else [] := by
  rw [ackEvents, decodeFrom_append, decodeFrom_append, decodeFrom_append, decodeFrom_changeEvents r _ _ h,
    hearAll_append, hearAll_append, hearAll_changeEvents r _ h]
  by_cases hl : r.bits.length = 8 <;>
    cases d <;> simp [decodeFrom, itemAt, hear, hl, ha, releasedLevel, changeEvents]

theorem dataStableFrom_ackEvents (r : Receiver) (old : Bool) (d : SDrive) (h : r.scl = false) :
    dataStableFrom r (ackEvents old d) = true := by
  unfold ackEvents changeEvents
  cases d <;> cases old <;> simp [dataStableFrom, edgeFramed, hear, h, releasedLevel]

theorem dataStableFrom_bitsEvents (r : Receiver) (old : Bool) (bs : List Bool) (h : r.scl = false) :
    dataStableFrom r (bitsEvents old bs) = true := by
  induction bs generalizing r old with
  | nil => rfl
  | cons b rest ih =>
    rw [bitsEvents, dataStableFrom_append, dataStableFrom_bitEvents r old b h, Bool.true_and]
    refine ih _ _ ?_
    unfold bitEvents changeEvents
    split <;> simp [hear, h]

/-- A receiver at the start of a byte hears a whole byte: one item, and it is at the start of a byte again. -/
theorem hearAll_byteEvents (r : Receiver) (v : Byte) (d : SDrive) (h : r.scl = false) (ha : r.active = true)
    (hb : r.bits = []) : hearAll r (byteEvents r.sda v d) = { r with sda := true } := by
  rw [byteEvents, hearAll_append, hearAll_bitsEvents r _ h ha (by simp [hb])]
  have := hearAll_ackEvents { r with sda := (bitsMsb v).getLastD r.sda, bits := r.bits ++ bitsMsb v } d h ha
  rw [show v.getLsbD 0 = (bitsMsb v).getLastD r.sda from rfl, this]
  obtain ⟨scl, sda, active, bits⟩ := r
  subst hb
  rfl

theorem decodeFrom_byteEvents (r : Receiver) (v : Byte) (d : SDrive) (h : r.scl = false) (ha : r.active = true)
    (hb : r.bits = []) : decodeFrom r (byteEvents r.sda v d) = [.byte v (releasedLevel d)] := by
  rw [byteEvents, decodeFrom_append, decodeFrom_bitsEvents r _ h ha (by simp [hb]),
    hearAll_bitsEvents r _ h ha (by simp [hb])]
  have := decodeFrom_ackEvents { r with sda := (bitsMsb v).getLastD r.sda, bits := r.bits ++ bitsMsb v } d h ha
  rw [show v.getLsbD 0 = (bitsMsb v).getLastD r.sda from rfl, this]
  obtain ⟨scl, sda, active, bits⟩ := r
  subst hb
  simp [byteOfBits_bitsMsb]

/-- A receiver on an idle bus hears a start condition. -/
theorem hearAll_startEvents (r : Receiver) (h : r.scl = true) :
    hearAll r startEvents = { scl := false, sda := false, active := true, bits := [] } := by
  simp [startEvents, hear, h]

theorem decodeFrom_startEvents (r : Receiver) (h : r.scl = true) : decodeFrom r startEvents = [.start] := by
  simp [startEvents, decodeFrom, itemAt, h]

/-- A receiver in an open transfer hears the stop condition. -/
theorem hearAll_stopEvents (r : Receiver) (h : r.scl = false) :
    hearAll r (stopEvents r.sda) = { scl := true, sda := true, active := false, bits := [] } := by
  rw [stopEvents, hearAll_append, hearAll_changeEvents r _ h]
  cases r.active <;> simp [hear]

theorem decodeFrom_stopEvents (r : Receiver) (h : r.scl = false) (ha : r.active = true) :
    decodeFrom r (stopEvents r.sda) =
      (if r.bits.length = 8 then [.byte (byteOfBits r.bits) false] else []) ++ [.stop] := by
  rw [stopEvents, decodeFrom_append, decodeFrom_changeEvents r _ _ h, hearAll_changeEvents r _ h]
  by_cases hl : r.bits.length = 8 <;> simp [decodeFrom, itemAt, hear, hl, ha]

end Sys2Proof.Machine
end

