-- ==== Sys2Proof/Laws/Lines.lean ====
section
/-! SUPPORT. What each line primitive of 41_bus does, once: levels, edges, `SetLine`, and the micro-steps of the ACK slot. -/

namespace Sys2Proof.Machine

/-! ### Levels -/

@[simp] theorem sdrive_hiz_beq_low : (SDrive.hiz == SDrive.low) = false := rfl
@[simp] theorem drive_hiz_beq_low : (Drive.hiz == Drive.low) = false := rfl
@[simp] theorem drive_high_beq_low : (Drive.high == Drive.low) = false := rfl
@[simp] theorem releasedLevel_low : releasedLevel .low = false := rfl
@[simp] theorem releasedLevel_hiz : releasedLevel .hiz = true := rfl

theorem level_scl {s : State} (h : s.slScl = .hiz) : level s .scl = (s.drvScl != .low) := by
  simp only [level, driver, slaveDriver, h]
  cases s.drvScl <;> rfl

theorem level_sda {s : State} (h : s.slSda = .hiz) : level s .sda = (s.drvSda != .low) := by
  simp only [level, driver, slaveDriver, h]
  cases s.drvSda <;> rfl

theorem level_scl_eq {s : State} {b : Bool} (h : s.slScl = .hiz) (e : (s.drvScl != .low) = b) : level s .scl = b :=
  (level_scl h).trans e

theorem level_sda_eq {s : State} {b : Bool} (h : s.slSda = .hiz) (e : (s.drvSda != .low) = b) : level s .sda = b :=
  (level_sda h).trans e

theorem slScl_of_level {s : State} (h : level s .scl = true) : s.slScl = .hiz := by
  cases hs : s.slScl <;> simp_all [level, driver, slaveDriver]

theorem slSda_of_level {s : State} (h : level s .sda = true) : s.slSda = .hiz := by
  cases hs : s.slSda <;> simp_all [level, driver, slaveDriver]

/-- What the master's drive makes of a line the slave leaves alone. -/
@[simp] theorem highDrive_not_low (cfg : Cfg) (l : Line) : (highDrive cfg l != .low) = true := by
  unfold highDrive
  split <;> rfl

/-! ### Edges -/

theorem recordEdge_clock (old : Bool) (s : State) :
    recordEdge old .scl s = { s with trace := s.trace ++ changeEvents .scl old (level s .scl) } := by
  have hears (v : Bool) : controllerHears s.par.slave (itemAt (receiver s.trace) (.edge .scl v)) s.ctl = s.ctl := by
    cases v <;> cases s.par.slave <;> simp only [itemAt] <;> (try split) <;> rfl
  unfold recordEdge changeEvents
  by_cases h : level s .scl = old
  · simp [h]
  · have h' : ¬ old = level s .scl := fun e => h e.symm
    simp [h, h', emitEdge, emit, slaveHears, hears]

theorem recordEdge_data (old : Bool) (s : State) (h : (receiver s.trace).scl = false) :
    recordEdge old .sda s = { s with trace := s.trace ++ changeEvents .sda old (level s .sda) } := by
  have hears (v : Bool) : controllerHears s.par.slave (itemAt (receiver s.trace) (.edge .sda v)) s.ctl = s.ctl := by
    rw [itemAt_data_low _ _ h]; cases s.par.slave <;> rfl
  unfold recordEdge changeEvents
  by_cases hl : level s .sda = old
  · simp [hl]
  · have h' : ¬ old = level s .sda := fun e => hl e.symm
    simp [hl, h', emitEdge, emit, slaveHears, hears]

/-! ### Micro-steps -/

theorem setLine_clock (m : Drive) (s : State) (old : Bool) (h : s.slScl = .hiz) (ho : level s .scl = old) :
    setLine .scl m s = .ok () { s with
      drvScl := m, clkPhase := m != .low, mpc := s.mpc + 1,
      trace := s.trace ++ changeEvents .scl old (m != .low) } := by
  subst ho
  have hc : contention (setDriver .scl m s) .scl = false := by
    simp [contention, driver, slaveDriver, h]
  have hl : level (setDriver .scl m s) .scl = (m != .low) := level_scl (s := setDriver .scl m s) h
  simp only [setLine, hc, Bool.false_eq_true, if_false, recordEdge_clock, hl]
  rfl

theorem setLine_data (m : Drive) (s : State) (old : Bool) (h : s.slSda = .hiz) (ho : level s .sda = old)
    (hr : (receiver s.trace).scl = false) :
    setLine .sda m s = .ok () { s with
      drvSda := m, mpc := s.mpc + 1,
      trace := s.trace ++ changeEvents .sda old (m != .low) } := by
  subst ho
  have hc : contention (setDriver .sda m s) .sda = false := by
    simp [contention, driver, slaveDriver, h]
  have hl : level (setDriver .sda m s) .sda = (m != .low) := level_sda (s := setDriver .sda m s) h
  simp only [setLine, hc, Bool.false_eq_true, if_false, recordEdge_data _ (setDriver .sda m s) hr, hl]
  rfl

/-- A data line set while the clock is high and the level changes: a start or a stop condition (R111). -/
theorem setLine_condition (m : Drive) (s : State) (h : s.slSda = .hiz) (hr : (receiver s.trace).scl = true)
    (hc : level s .sda = !(m != .low)) :
    setLine .sda m s = .ok () { s with
      drvSda := m, mpc := s.mpc + 1,
      trace := s.trace ++ [.edge .sda (m != .low)],
      ctl := controllerHears s.par.slave (some (if (m != .low) then .stop else .start)) s.ctl } := by
  have hn : contention (setDriver .sda m s) .sda = false := by
    simp [contention, driver, slaveDriver, h]
  have hl : level (setDriver .sda m s) .sda = (m != .low) := level_sda (s := setDriver .sda m s) h
  have hne : ¬ ((m != .low) = !(m != .low)) := by cases m <;> simp
  simp only [setLine, hn, Bool.false_eq_true, if_false, recordEdge, hl, hc, hne]
  simp [emitEdge, emit, slaveHears, tick, itemAt, hr, setDriver]

/-- A data line set to the level it has (R66: no edge). -/
theorem setLine_same (l : Line) (m : Drive) (s : State) (h : slaveDriver s l = .hiz)
    (hl : level s l = (m != .low)) : setLine l m s = .ok () (tick (setDriver l m s)) := by
  have hs : slaveDriver (setDriver l m s) l = .hiz := by cases l <;> exact h
  have hc : contention (setDriver l m s) l = false := by simp [contention, hs]
  have hl' : level (setDriver l m s) l = (m != .low) := by
    cases l
    · exact level_scl (s := setDriver .scl m s) h
    · exact level_sda (s := setDriver .sda m s) h
  simp [setLine, hc, recordEdge, hl', hl]

/-! ### The slave's answer -/

/-- What the slave's answer can do to a state: it writes its side and nothing else. -/
theorem answerByte_eq (byte : Option Byte) (s : State) :
    answerByte byte s = match answerSide s.par byte (sideOf s) with
      | .error r => .error r
      | .ok (d, p) => .ok (d, withSide p s) := rfl

/-! ### The ACK slot -/

theorem ackSlotOpen_ok (s : State) (d : SDrive) (p : Side) (hr : (receiver s.trace).scl = false)
    (ha : answerSide s.par (pendingByte (receiver s.trace)) (sideOf s) = .ok (d, p)) :
    ackSlotOpen s = .ok () { withSide p s with
      drvSda := .hiz, slSda := d, mpc := s.mpc + 1,
      trace := s.trace ++ changeEvents .sda (level s .sda) (releasedLevel d) } := by
  have hl : level { withSide p s with drvSda := .hiz, slSda := d } .sda = releasedLevel d := by
    cases d <;> rfl
  simp only [ackSlotOpen, slaveAnswer, answerByte_eq, ha]
  rw [recordEdge_data _ { withSide p s with drvSda := .hiz, slSda := d } hr, hl]
  rfl

theorem ackSlotOpen_refused (s : State) (r : ControllerReason)
    (ha : answerSide s.par (pendingByte (receiver s.trace)) (sideOf s) = .error r) :
    ackSlotOpen s = .halted (refuse (.controllerUnmodelled r) s) := by
  simp [ackSlotOpen, slaveAnswer, answerByte_eq, ha]

theorem slaveRelease_ok (s : State) (old : Bool) (hr : (receiver s.trace).scl = false) (hd : s.drvSda = .hiz)
    (ho : level s .sda = old) :
    slaveRelease s = .ok () { s with
      slSda := .hiz, mpc := s.mpc + 1, trace := s.trace ++ changeEvents .sda old true } := by
  subst ho
  have hl : level { s with slSda := .hiz } .sda = true := by simp [level, driver, slaveDriver, hd]
  simp only [slaveRelease]
  rw [recordEdge_data _ { s with slSda := .hiz } hr, hl]
  rfl

/-! ### The rising clock outside an ACK slot -/

theorem raiseClock_ok (s : State) (c : Controller) (h : s.slScl = .hiz) (hl : level s .scl = false)
    (hc : clockTakes s = .ok c) :
    raiseClock s = .ok () { s with
      drvScl := highDrive s.cfg .scl, clkPhase := true, ctl := c, mpc := s.mpc + 1,
      trace := s.trace ++ [.edge .scl true] } := by
  unfold clockTakes at hc
  simp only [raiseClock, slaveClocked, hl, Bool.false_eq_true, if_false, hc, Flow.andThen_ok, setHigh]
  rw [setLine_clock _ _ false (by exact h) (by exact hl)]
  simp [changeEvents]

theorem raiseClock_refused (s : State) (r : ControllerReason) (hl : level s .scl = false)
    (hc : clockTakes s = .error r) :
    raiseClock s = .halted (refuse (.controllerUnmodelled r) s) := by
  unfold clockTakes at hc
  simp [raiseClock, slaveClocked, hl, hc]

/-- A clock that is high already (R71 from an idle bus). -/
theorem raiseClock_high (s : State) (hl : level s .scl = true) :
    raiseClock s = .ok () (tick (setDriver .scl (highDrive s.cfg .scl) s)) := by
  simp only [raiseClock, slaveClocked, hl, if_true, Flow.andThen_ok, setHigh]
  exact setLine_same _ _ _ (slScl_of_level hl) (by simp [hl])

end Sys2Proof.Machine
end

