-- ==== Sys2Proof/Laws/Bus.lean ====
section
/-! SUPPORT. What each bus operation of 41_bus does on a bus that keeps R77, once: the exact state it ends in, and where it
stops instead. -/

namespace Sys2Proof.Machine

/-! ### Short names for what the invariant gives -/

theorem BusOk.slScl {s : State} (h : BusOk s) : s.slScl = .hiz := h.1.1
theorem BusOk.slSda {s : State} (h : BusOk s) : s.slSda = .hiz := h.2.1
theorem BusOk.clk {s : State} (h : BusOk s) : (receiver s.trace).scl = level s .scl := h.1.2.2.1
theorem BusOk.data {s : State} (h : BusOk s) : (receiver s.trace).sda = level s .sda := h.1.2.2.2
theorem BusOk.low {s : State} (h : BusOk s) (ho : s.frame = .opened) : level s .scl = false := (h.2.2.2 ho).1
theorem BusOk.active {s : State} (h : BusOk s) (ho : s.frame = .opened) : (receiver s.trace).active = true :=
  (h.2.2.2 ho).2.1
theorem BusOk.bits {s : State} (h : BusOk s) (ho : s.frame = .opened) : (receiver s.trace).bits.length ≤ 8 :=
  (h.2.2.2 ho).2.2
theorem BusOk.rcvLow {s : State} (h : BusOk s) (ho : s.frame = .opened) : (receiver s.trace).scl = false := by
  rw [h.clk, h.low ho]

theorem drvScl_low {s : State} (h : s.slScl = .hiz) (hl : level s .scl = false) : s.drvScl = .low := by
  rw [level_scl h] at hl
  cases hd : s.drvScl <;> simp_all

@[simp] theorem dataDrive_not_low (cfg : Cfg) (b : Bool) : (dataDrive cfg b != .low) = b := by
  cases b
  · rfl
  · exact highDrive_not_low cfg .sda

theorem setData_eq (b : Bool) (s : State) : setData b s = setLine .sda (dataDrive s.cfg b) s := by
  cases b <;> rfl

/-! ### `BUS_INIT`, `START` -/

theorem busInitBody_ok {s : State} (h : BusOk s) (hf : s.frame ≠ .opened) :
    busInitBody s = .ok () (afterBusInit s) := by
  obtain ⟨hc, hd, _⟩ := h.2.2.1 hf
  have h1 : setHigh .sda s = .ok () (tick (setDriver .sda (highDrive s.cfg .sda) s)) :=
    setLine_same _ _ _ h.slSda (by simp [hd])
  simp only [busInitBody, hf, if_false, h1, Flow.andThen_ok, settle]
  rw [raiseClock_high _ (by exact hc)]
  simp [settle, setFrame, afterBusInit, tick, emit, setDriver]

theorem startBody_ok {s : State} (h : BusOk s) (hf : s.frame = .idle) : startBody s = .ok () (afterStart s) := by
  obtain ⟨hc, hd, _⟩ := h.2.2.1 (by simp [hf])
  have hr : (receiver s.trace).scl = true := h.clk.trans hc
  have h1 := setLine_condition .low s h.slSda hr (by simpa using hd)
  simp only [startBody, startFault, hf, ne_eq, not_true_eq_false, if_false, hc, hd, Bool.true_eq_false, or_self, setLow,
    h1, Flow.andThen_ok, settle]
  rw [setLine_clock _ _ true (by exact h.slScl) (by exact hc)]
  simp [settle, setFrame, afterStart, startEvents, changeEvents, tick, emit]

/-! ### Data bits -/

theorem clockTakes_congr {s t : State} (hp : t.par = s.par) (hc : t.ctl = s.ctl)
    (hb : pendingByte (receiver t.trace) = pendingByte (receiver s.trace)) : clockTakes t = clockTakes s := by
  simp only [clockTakes, hp, hc, hb]

theorem pendingByte_moved (r : Receiver) (v : Bool) : pendingByte { r with sda := v } = pendingByte r := rfl

/-- The data line set in the low phase and settled. -/
theorem setData_settled {s : State} (b : Bool) (h : BusOk s) (ho : s.frame = .opened) :
    (setData b s).andThen settle = .ok () { s with
      drvSda := dataDrive s.cfg b, mpc := s.mpc + 2
      trace := s.trace ++ changeEvents .sda (level s .sda) b ++ [.settle] } := by
  rw [setData_eq, setLine_data _ _ _ h.slSda rfl (h.rcvLow ho)]
  simp [settle, tick, emit]

theorem receiver_setData {s : State} (b : Bool) (h : BusOk s) (ho : s.frame = .opened) :
    receiver (s.trace ++ changeEvents .sda (level s .sda) b ++ [.settle]) =
      { receiver s.trace with sda := b } := by
  rw [receiver_append, receiver_append, ← h.data, hearAll_changeEvents _ _ (h.rcvLow ho)]
  rfl

theorem writeBitBody_ok {s : State} (b : Bool) (c : Controller) (h : BusOk s) (ho : s.frame = .opened)
    (hc : clockTakes s = .ok c) : writeBitBody b s = .ok () (afterBit b c s) := by
  have hl := h.low ho
  simp only [writeBitBody, ho, ne_eq, not_true_eq_false, if_false, setData_settled b h ho]
  rw [Flow.andThen_ok, raiseClock_ok _ c (by exact h.slScl) (by exact hl)
    (by rw [← hc]; exact clockTakes_congr rfl rfl (by rw [receiver_setData b h ho]; rfl))]
  simp only [Flow.andThen_ok, settle, setLow]
  rw [setLine_clock _ _ true (by exact h.slScl) (by exact level_scl_eq h.slScl (highDrive_not_low s.cfg .scl))]
  simp [settle, afterBit, bitEvents, changeEvents, tick, emit, ho]

theorem writeBitBody_refused {s : State} (b : Bool) (r : ControllerReason) (h : BusOk s) (ho : s.frame = .opened)
    (hc : clockTakes s = .error r) :
    writeBitBody b s = .halted (refuse (.controllerUnmodelled r) { s with
      drvSda := dataDrive s.cfg b, mpc := s.mpc + 2
      trace := s.trace ++ changeEvents .sda (level s .sda) b ++ [.settle] }) := by
  simp only [writeBitBody, ho, ne_eq, not_true_eq_false, if_false, setData_settled b h ho]
  rw [Flow.andThen_ok, raiseClock_refused _ r (by exact h.low ho)
    (by rw [← hc]; exact clockTakes_congr rfl rfl (by rw [receiver_setData b h ho]; rfl))]
  rfl

/-! ### The ACK slot -/

theorem answerSide_of {s u : State} {byte : Option Byte} {d : SDrive} (h : answerByte byte s = .ok (d, u)) :
    ∃ p, answerSide s.par byte (sideOf s) = .ok (d, p) ∧ u = withSide p s := by
  rw [answerByte_eq] at h
  cases hp : answerSide s.par byte (sideOf s) with
  | error r => simp [hp] at h
  | ok q =>
    obtain ⟨d', p⟩ := q
    simp only [hp, Except.ok.injEq, Prod.mk.injEq] at h
    exact ⟨p, by rw [h.1], h.2.symm⟩

theorem answerSide_refused {s : State} {byte : Option Byte} {r : ControllerReason}
    (h : answerByte byte s = .error r) : answerSide s.par byte (sideOf s) = .error r := by
  rw [answerByte_eq] at h
  cases hp : answerSide s.par byte (sideOf s) with
  | error r' => simp [hp] at h; rw [h]
  | ok q => simp [hp] at h

theorem readAckBody_ok {s u : State} {d : SDrive} (h : BusOk s) (ho : s.frame = .opened)
    (ha : slaveAnswer s = .ok (d, u)) : readAckBody s = .ok (d == .low) (afterAck d u) := by
  obtain ⟨p, hp, rfl⟩ := answerSide_of ha
  have hd := drvScl_low h.slScl (h.low ho)
  simp only [readAckBody, ho, ne_eq, not_true_eq_false, if_false]
  rw [ackSlotOpen_ok s d p (h.rcvLow ho) hp]
  simp only [Flow.andThen_ok, settle, setHigh]
  rw [setLine_clock _ _ false (by exact h.slScl) (by exact h.low ho)]
  simp only [Flow.andThen_ok, settle, sampleSda, Flow.bind_ok, setLow]
  rw [setLine_clock _ _ true (by exact h.slScl) (by exact level_scl_eq h.slScl (highDrive_not_low s.cfg .scl))]
  simp only [Flow.andThen_ok]
  rw [slaveRelease_ok _ (releasedLevel d) ?_ rfl (by cases d <;> rfl)]
  · cases d <;>
      simp [settle, recordAck, ackOf, afterAck, ackEvents, changeEvents, tick, emit, withSide, level, driver,
        slaveDriver]
  · simp only [tick, emit, changeEvents, receiver_append]
    simp [hear]

theorem readAckBody_refused {s : State} {r : ControllerReason} (ho : s.frame = .opened)
    (ha : slaveAnswer s = .error r) : readAckBody s = .halted (refuse (.controllerUnmodelled r) s) := by
  simp only [readAckBody, ho, ne_eq, not_true_eq_false, if_false]
  rw [ackSlotOpen_refused s r (answerSide_refused ha)]
  rfl

/-! ### What the invariant looks like after each piece -/

theorem busOk_afterBusInit {s : State} (h : BusOk s) (hf : s.frame ≠ .opened) : BusOk (afterBusInit s) := by
  obtain ⟨hc, hd, ha⟩ := h.2.2.1 hf
  have lc : level (afterBusInit s) .scl = true := level_scl_eq h.slScl (highDrive_not_low s.cfg .scl)
  have ld : level (afterBusInit s) .sda = true := level_sda_eq h.slSda (highDrive_not_low s.cfg .sda)
  have hr : receiver (afterBusInit s).trace = receiver s.trace := by simp [afterBusInit]
  refine ⟨⟨h.slScl, by rw [lc]; rfl, ?_, ?_⟩, h.slSda, fun _ => ⟨lc, ld, ?_⟩, fun e => by cases e⟩
  · rw [hr, lc, h.clk, hc]
  · rw [hr, ld, h.data, hd]
  · rw [hr, ha]

theorem receiver_afterStart {s : State} (hr : (receiver s.trace).scl = true) :
    receiver (afterStart s).trace = { scl := false, sda := false, active := true, bits := [] } := by
  simp only [afterStart, receiver_append]
  exact hearAll_startEvents _ hr

theorem atByte_afterStart {s : State} (h : BusOk s) (hf : s.frame = .idle) : AtByte (afterStart s) := by
  have hr := receiver_afterStart (h.clk.trans (h.2.2.1 (by simp [hf])).1)
  have lc : level (afterStart s) .scl = false := level_scl (s := afterStart s) h.slScl
  have ld : level (afterStart s) .sda = false := level_sda (s := afterStart s) h.slSda
  exact ⟨⟨⟨h.slScl, by rw [lc]; rfl, by rw [hr, lc], by rw [hr, ld]⟩, h.slSda, fun e => absurd rfl e,
    fun _ => ⟨lc, by rw [hr], by rw [hr]; simp⟩⟩, rfl, by rw [hr]⟩

theorem receiver_afterBit {s : State} (b : Bool) (c : Controller) (h : BusOk s) (ho : s.frame = .opened) :
    receiver (afterBit b c s).trace =
      { receiver s.trace with sda := b, bits := nextBits (receiver s.trace).bits b } := by
  simp only [afterBit, receiver_append, ← h.data]
  exact hearAll_bitEvents _ b (h.rcvLow ho) (h.active ho)

theorem busOk_afterBit {s : State} (b : Bool) (c : Controller) (h : BusOk s) (ho : s.frame = .opened) :
    BusOk (afterBit b c s) := by
  have hr := receiver_afterBit b c h ho
  have lc : level (afterBit b c s) .scl = false := level_scl (s := afterBit b c s) h.slScl
  have ld : level (afterBit b c s) .sda = b := level_sda_eq h.slSda (dataDrive_not_low s.cfg b)
  exact ⟨⟨h.slScl, by rw [lc]; rfl, by rw [hr, lc]; exact h.rcvLow ho, by rw [hr, ld]⟩, h.slSda,
    fun e => absurd ho e, fun _ => ⟨lc, by rw [hr]; exact h.active ho, by rw [hr]; exact nextBits_length _ _ (h.bits ho)⟩⟩

theorem receiver_afterAck {s u : State} {d : SDrive} (h : BusOk s) (ho : s.frame = .opened)
    (ha : slaveAnswer s = .ok (d, u)) :
    receiver (afterAck d u).trace =
      { receiver s.trace with sda := true, bits := nextBits (receiver s.trace).bits (releasedLevel d) } := by
  obtain ⟨p, -, rfl⟩ := answerSide_of ha
  have hl : level (withSide p s) .sda = (receiver s.trace).sda := h.data.symm
  simp only [afterAck, hl, receiver_append]
  exact hearAll_ackEvents _ d (h.rcvLow ho) (h.active ho)

theorem busOk_afterAck {s u : State} {d : SDrive} (h : BusOk s) (ho : s.frame = .opened)
    (ha : slaveAnswer s = .ok (d, u)) : BusOk (afterAck d u) := by
  have hr := receiver_afterAck h ho ha
  obtain ⟨p, -, rfl⟩ := answerSide_of ha
  have lc : level (afterAck d (withSide p s)) .scl = false := level_scl (s := afterAck d (withSide p s)) h.slScl
  have ld : level (afterAck d (withSide p s)) .sda = true := level_sda (s := afterAck d (withSide p s)) rfl
  exact ⟨⟨h.slScl, by rw [lc]; rfl, by rw [hr, lc]; exact h.rcvLow ho, by rw [hr, ld]⟩, rfl,
    fun e => absurd ho e, fun _ => ⟨lc, by rw [hr]; exact h.active ho, by rw [hr]; exact nextBits_length _ _ (h.bits ho)⟩⟩

/-! ### `WRITE_BYTE` -/

theorem clockTakes_midByte {s : State} (hl : (receiver s.trace).bits.length ≠ 8) : clockTakes s = .ok s.ctl := by
  have hp : pendingByte (receiver s.trace) = none := by simp [pendingByte, hl]
  simp only [clockTakes, hp, controllerTakes]
  cases s.par.slave <;> rfl

/-- The state after a run of bits that does not complete a byte. -/
def afterBits (bs : List Bool) (s : State) : State :=
  { s with
    drvSda := dataDrive s.cfg (bs.getLastD (level s .sda)), drvScl := .low, clkPhase := false
    trace := s.trace ++ bitsEvents (level s .sda) bs, mpc := s.mpc + 6 * bs.length }

theorem writeBits_ok {s : State} (b : Bool) (bs : List Bool) (h : BusOk s) (ho : s.frame = .opened)
    (hl : (receiver s.trace).bits.length + (b :: bs).length ≤ 8) :
    writeBits (b :: bs) s = .ok () (afterBits (b :: bs) s) ∧ BusOk (afterBits (b :: bs) s) ∧
      (receiver (afterBits (b :: bs) s).trace).bits = (receiver s.trace).bits ++ b :: bs := by
  induction bs generalizing s b with
  | nil =>
    have hne : (receiver s.trace).bits.length ≠ 8 := by simp at hl; omega
    have e : afterBits [b] s = afterBit b s.ctl s := by simp [afterBits, afterBit, bitsEvents]
    rw [e, writeBits, writeBitBody_ok b _ h ho (clockTakes_midByte hne)]
    refine ⟨rfl, busOk_afterBit _ _ h ho, ?_⟩
    rw [receiver_afterBit b _ h ho]
    simp [nextBits, hne]
  | cons b' rest ih =>
    have hne : (receiver s.trace).bits.length ≠ 8 := by simp at hl; omega
    have hb := busOk_afterBit b s.ctl h ho
    have hrb : (receiver (afterBit b s.ctl s).trace).bits = (receiver s.trace).bits ++ [b] := by
      rw [receiver_afterBit b _ h ho]; simp [nextBits, hne]
    have ld : level (afterBit b s.ctl s) .sda = b := level_sda_eq h.slSda (dataDrive_not_low s.cfg b)
    have e : afterBits (b :: b' :: rest) s = afterBits (b' :: rest) (afterBit b s.ctl s) := by
      unfold afterBits
      rw [ld]
      simp only [bitsEvents, afterBit, List.append_assoc, List.length_cons, List.getLastD_cons]
      congr 1
      omega
    obtain ⟨h1, h2, h3⟩ := ih b' hb ho (by rw [hrb]; simp at hl ⊢; omega)
    rw [e]
    refine ⟨?_, h2, ?_⟩
    · rw [writeBits, writeBitBody_ok b _ h ho (clockTakes_midByte hne)]
      exact h1
    · rw [h3, hrb]; simp

theorem pendingByte_afterByte {s : State} (v : Byte) (h : BusOk (afterBits (bitsMsb v) s)) (ho : s.frame = .opened)
    (hb : (receiver (afterBits (bitsMsb v) s).trace).bits = bitsMsb v) :
    pendingByte (receiver (afterBits (bitsMsb v) s).trace) = some v := by
  unfold pendingByte
  rw [hb, byteOfBits_bitsMsb, h.active ho]
  rfl

theorem writeByteBody_ok {s u : State} {d : SDrive} (v : Byte) (h : AtByte s)
    (ha : answerByte (some v) s = .ok (d, u)) : writeByteBody v s = .ok (d == .low) (afterByte v d u) := by
  obtain ⟨hb, ho, hbits⟩ := h
  obtain ⟨h1, h2, h3⟩ := writeBits_ok (v.getLsbD 7) (bitsMsb v).tail hb ho (by rw [hbits]; rfl)
  change writeBits (bitsMsb v) s = .ok () (afterBits (bitsMsb v) s) at h1
  change BusOk (afterBits (bitsMsb v) s) at h2
  have h3' : (receiver (afterBits (bitsMsb v) s).trace).bits = bitsMsb v := by
    rw [hbits] at h3; exact h3
  obtain ⟨p, hp, rfl⟩ := answerSide_of ha
  have hs : slaveAnswer (afterBits (bitsMsb v) s) = .ok (d, withSide p (afterBits (bitsMsb v) s)) := by
    rw [slaveAnswer, pendingByte_afterByte v h2 ho h3', answerByte_eq]
    change (match answerSide s.par (some v) (sideOf s) with | .error r => _ | .ok (d, p) => _) = _
    rw [hp]
  simp only [writeByteBody, ho, ne_eq, not_true_eq_false, if_false, h1, Flow.andThen_ok]
  rw [readAckBody_ok h2 ho hs]
  congr 1
  have ld : level (afterBits (bitsMsb v) s) .sda = v.getLsbD 0 :=
    level_sda_eq hb.slSda (dataDrive_not_low s.cfg _)
  have ld' : level (withSide p (afterBits (bitsMsb v) s)) .sda = v.getLsbD 0 := ld
  have ls : level (withSide p s) .sda = level s .sda := rfl
  simp only [afterAck, ld', afterByte, ls, byteEvents]
  simp [afterBits, withSide]

theorem writeByteBody_refused {s : State} {r : ControllerReason} (v : Byte) (h : AtByte s)
    (ha : answerByte (some v) s = .error r) :
    writeByteBody v s = .halted (refuse (.controllerUnmodelled r) (afterBits (bitsMsb v) s)) := by
  obtain ⟨hb, ho, hbits⟩ := h
  obtain ⟨h1, h2, h3⟩ := writeBits_ok (v.getLsbD 7) (bitsMsb v).tail hb ho (by rw [hbits]; rfl)
  change writeBits (bitsMsb v) s = .ok () (afterBits (bitsMsb v) s) at h1
  change BusOk (afterBits (bitsMsb v) s) at h2
  have h3' : (receiver (afterBits (bitsMsb v) s).trace).bits = bitsMsb v := by
    rw [hbits] at h3; exact h3
  have hp := answerSide_refused ha
  have hs : slaveAnswer (afterBits (bitsMsb v) s) = .error r := by
    rw [slaveAnswer, pendingByte_afterByte v h2 ho h3', answerByte_eq]
    change (match answerSide s.par (some v) (sideOf s) with | .error r => _ | .ok (d, p) => _) = _
    rw [hp]
  simp only [writeByteBody, ho, ne_eq, not_true_eq_false, if_false, h1, Flow.andThen_ok]
  exact readAckBody_refused ho hs

theorem level_afterByte (v : Byte) (d : SDrive) (u : State) : level (afterByte v d u) .sda = true :=
  level_sda (s := afterByte v d u) rfl

theorem receiver_afterByte {s u : State} {d : SDrive} (v : Byte) (h : AtByte s)
    (ha : answerByte (some v) s = .ok (d, u)) :
    receiver (afterByte v d u).trace = { receiver s.trace with sda := true } := by
  obtain ⟨p, -, rfl⟩ := answerSide_of ha
  have hl : level (withSide p s) .sda = (receiver s.trace).sda := h.1.data.symm
  simp only [afterByte, hl, receiver_append]
  exact hearAll_byteEvents _ v d (h.1.rcvLow h.2.1) (h.1.active h.2.1) h.2.2

theorem atByte_afterByte {s u : State} {d : SDrive} (v : Byte) (h : AtByte s)
    (ha : answerByte (some v) s = .ok (d, u)) : AtByte (afterByte v d u) := by
  have hr := receiver_afterByte v h ha
  obtain ⟨p, -, rfl⟩ := answerSide_of ha
  have lc : level (afterByte v d (withSide p s)) .scl = false := level_scl (s := afterByte v d (withSide p s)) h.1.slScl
  have ld := level_afterByte v d (withSide p s)
  exact ⟨⟨⟨h.1.slScl, by rw [lc]; rfl, by rw [hr, lc]; exact h.1.rcvLow h.2.1, by rw [hr, ld]⟩, rfl,
    fun e => absurd h.2.1 e, fun _ => ⟨lc, by rw [hr]; exact h.1.active h.2.1, by rw [hr]; exact h.1.bits h.2.1⟩⟩,
    h.2.1, by rw [hr]; exact h.2.2⟩

/-! ### `STOP` -/

theorem stopBody_ok {s : State} (c : Controller) (h : BusOk s) (ho : s.frame = .opened)
    (hc : clockTakes s = .ok c) : stopBody s = .ok () (afterStop c s) := by
  have hl := h.low ho
  have h1 : (setLow .sda s).andThen settle = .ok () { s with
      drvSda := .low, mpc := s.mpc + 2, trace := s.trace ++ changeEvents .sda (level s .sda) false ++ [.settle] } :=
    setData_settled false h ho
  simp only [stopBody, ho, ne_eq, not_true_eq_false, if_false, h1]
  rw [Flow.andThen_ok, raiseClock_ok _ c (by exact h.slScl) (by exact hl)
    (by rw [← hc]; exact clockTakes_congr rfl rfl (by rw [receiver_setData false h ho]; rfl))]
  simp only [Flow.andThen_ok, settle, setHigh]
  rw [setLine_condition _ _ (by exact h.slSda) ?_
    (by rw [highDrive_not_low]; exact level_sda_eq h.slSda rfl)]
  · simp [settle, setFrame, afterStop, stopEvents, tick, emit]
  · have hr := receiver_setData false h ho
    simp only [tick, emit, receiver_append] at hr ⊢
    rw [hr]
    simp [hear, h.active ho]

theorem stopBody_refused {s : State} (r : ControllerReason) (h : BusOk s) (ho : s.frame = .opened)
    (hc : clockTakes s = .error r) :
    stopBody s = .halted (refuse (.controllerUnmodelled r) { s with
      drvSda := .low, mpc := s.mpc + 2, trace := s.trace ++ changeEvents .sda (level s .sda) false ++ [.settle] }) := by
  have h1 : (setLow .sda s).andThen settle = .ok () { s with
      drvSda := .low, mpc := s.mpc + 2, trace := s.trace ++ changeEvents .sda (level s .sda) false ++ [.settle] } :=
    setData_settled false h ho
  simp only [stopBody, ho, ne_eq, not_true_eq_false, if_false, h1]
  rw [Flow.andThen_ok, raiseClock_refused _ r (by exact h.low ho)
    (by rw [← hc]; exact clockTakes_congr rfl rfl (by rw [receiver_setData false h ho]; rfl))]
  rfl

theorem receiver_afterStop {s : State} (c : Controller) (h : BusOk s) (ho : s.frame = .opened) :
    receiver (afterStop c s).trace = { scl := true, sda := true, active := false, bits := [] } := by
  simp only [afterStop, receiver_append, ← h.data]
  exact hearAll_stopEvents _ (h.rcvLow ho)

theorem atIdle_afterStop {s : State} (c : Controller) (h : BusOk s) (ho : s.frame = .opened) :
    AtIdle (afterStop c s) := by
  have hr := receiver_afterStop c h ho
  have lc : level (afterStop c s) .scl = true := level_scl_eq h.slScl (highDrive_not_low s.cfg .scl)
  have ld : level (afterStop c s) .sda = true := level_sda_eq h.slSda (highDrive_not_low s.cfg .sda)
  exact ⟨⟨⟨h.slScl, by rw [lc]; rfl, by rw [hr, lc], by rw [hr, ld]⟩, h.slSda,
    fun _ => ⟨lc, ld, by rw [hr]⟩, fun e => by cases e⟩, rfl⟩

/-! ### Where a bus operation stops (R122) -/

theorem busInitBody_framing {s : State} (h : s.frame = .opened) :
    busInitBody s = .halted (raise (.framingViolation .busInit) s) := by simp [busInitBody, h]

theorem startBody_faulted {s : State} {r : FaultReason} (h : startFault s = some r) :
    startBody s = .halted (raise r s) := by simp [startBody, h]

/-- On an idle bus `START` finds nothing to report (R72, R77). -/
theorem startFault_idle {s : State} (h : AtIdle s) : startFault s = none := by
  obtain ⟨hc, hd, -⟩ := h.1.2.2.1 (by simp [h.2])
  simp [startFault, h.2, hc, hd]

/-- What `START` reports of a bus it cannot begin on (R72, R126). -/
theorem startFault_framing {s : State} (h : s.frame ≠ .idle) : startFault s = some (.framingViolation .start) := by
  simp [startFault, h]

theorem startFault_busy {s : State} (h : s.frame = .idle) (hl : level s .scl = false ∨ level s .sda = false) :
    startFault s = some .busNotIdle := by
  rw [startFault, if_neg (by simp [h]), if_pos hl]

theorem startBody_framing {s : State} (h : s.frame ≠ .idle) :
    startBody s = .halted (raise (.framingViolation .start) s) := startBody_faulted (startFault_framing h)

theorem writeBitBody_framing {s : State} (b : Bool) (h : s.frame ≠ .opened) :
    writeBitBody b s = .halted (raise (.framingViolation .writeBit) s) := by simp [writeBitBody, h]

theorem readAckBody_framing {s : State} (h : s.frame ≠ .opened) :
    readAckBody s = .halted (raise (.framingViolation .readAck) s) := by simp [readAckBody, h]

theorem writeByteBody_framing {s : State} (v : Byte) (h : s.frame ≠ .opened) :
    writeByteBody v s = .halted (raise (.framingViolation .writeByte) s) := by simp [writeByteBody, h]

theorem stopBody_framing {s : State} (h : s.frame ≠ .opened) :
    stopBody s = .halted (raise (.framingViolation .stop) s) := by simp [stopBody, h]

end Sys2Proof.Machine
end

