-- ==== Sys2Proof/Laws/Driver.lean ====
section
/-! SUPPORT. What a run of transfers does (42_driver R88 to R92), once: the exact state it ends in when the slave gives every
byte a meaning, for either ACK policy. -/

namespace Sys2Proof.Machine

/-! ### Runs of symbols -/

theorem stepsOf_append (a b : List Sym) : stepsOf (a ++ b) = stepsOf a + stepsOf b := by
  induction a with
  | nil => simp [stepsOf]
  | cons x rest ih => cases x <;> simp [stepsOf, ih] <;> omega

theorem nacked_append (a b : List SDrive) : nacked (a ++ b) = (nacked a || nacked b) := List.any_append

theorem lastAckAfter_append (old : Option Bool) (a b : List SDrive) :
    lastAckAfter old (a ++ b) = lastAckAfter (lastAckAfter old a) b := by
  induction a generalizing old with
  | nil => rfl
  | cons d rest ih => exact ih _

/-- The data level a run of symbols leaves. -/
def endLevel : Bool → List Sym → Bool
  | sda, [] => sda
  | _, .start :: rest => endLevel false rest
  | _, .byte _ :: rest => endLevel true rest
  | _, .stop :: rest => endLevel true rest

theorem endLevel_append (sda : Bool) (a b : List Sym) : endLevel sda (a ++ b) = endLevel (endLevel sda a) b := by
  induction a generalizing sda with
  | nil => rfl
  | cons x rest ih => cases x <;> exact ih _

theorem slaveRun_append {par : Params} {a b : List Sym} {da db : List SDrive} {p q r : Side}
    (ha : slaveRun par a p = .ok (da, q)) (hb : slaveRun par b q = .ok (db, r)) :
    slaveRun par (a ++ b) p = .ok (da ++ db, r) := by
  induction a generalizing p da with
  | nil =>
    simp only [slaveRun, Except.ok.injEq, Prod.mk.injEq] at ha
    obtain ⟨rfl, rfl⟩ := ha
    exact hb
  | cons x rest ih =>
    cases x with
    | start => exact ih ha
    | stop => exact ih ha
    | byte v =>
      simp only [List.cons_append, slaveRun] at ha ⊢
      cases h1 : answerSide par (some v) p with
      | error e => simp [h1] at ha
      | ok dq =>
        obtain ⟨d, q'⟩ := dq
        simp only [h1] at ha ⊢
        cases h2 : slaveRun par rest q' with
        | error e => simp [h2] at ha
        | ok dq2 =>
          obtain ⟨ds, q2⟩ := dq2
          simp only [h2, Except.ok.injEq, Prod.mk.injEq] at ha
          obtain ⟨rfl, rfl⟩ := ha
          rw [ih h2]
          rfl

/-- A run of symbols that the slave gives a meaning, taken apart at any place. -/
theorem slaveRun_split {par : Params} {a b : List Sym} {ds : List SDrive} {p r : Side}
    (h : slaveRun par (a ++ b) p = .ok (ds, r)) :
    ∃ da db q, slaveRun par a p = .ok (da, q) ∧ slaveRun par b q = .ok (db, r) ∧ ds = da ++ db := by
  induction a generalizing p ds with
  | nil => exact ⟨[], ds, p, rfl, h, rfl⟩
  | cons x rest ih =>
    cases x with
    | start =>
      obtain ⟨da, db, q, h1, h2, h3⟩ := ih h
      exact ⟨da, db, q, h1, h2, h3⟩
    | stop =>
      obtain ⟨da, db, q, h1, h2, h3⟩ := ih h
      exact ⟨da, db, q, h1, h2, h3⟩
    | byte v =>
      simp only [List.cons_append, slaveRun] at h ⊢
      cases h1 : answerSide par (some v) p with
      | error e => simp [h1] at h
      | ok dq =>
        obtain ⟨d, q'⟩ := dq
        simp only [h1] at h
        cases h2 : slaveRun par (rest ++ b) q' with
        | error e => simp [h2] at h
        | ok dq2 =>
          obtain ⟨ds2, q2⟩ := dq2
          simp only [h2, Except.ok.injEq, Prod.mk.injEq] at h
          obtain ⟨rfl, rfl⟩ := h
          obtain ⟨da, db, q, h3, h4, h5⟩ := ih h2
          exact ⟨d :: da, db, q, by simp [h3], h4, by simp [h5]⟩

theorem slaveRun_byte {par : Params} {v : Byte} {ds : List SDrive} {p q : Side}
    (h : slaveRun par [.byte v] p = .ok (ds, q)) : ∃ d, ds = [d] ∧ answerSide par (some v) p = .ok (d, q) := by
  simp only [slaveRun] at h
  cases h1 : answerSide par (some v) p with
  | error e => simp [h1] at h
  | ok dq =>
    obtain ⟨d, q'⟩ := dq
    simp only [h1, Except.ok.injEq, Prod.mk.injEq] at h
    exact ⟨d, h.1.symm, by rw [h.2]⟩

/-- An unconstrained slave refuses nothing. -/
theorem slaveRun_free {par : Params} (hp : par.slave = .free) (syms : List Sym) (p : Side) :
    ∃ ds q, slaveRun par syms p = .ok (ds, q) := by
  induction syms generalizing p with
  | nil => exact ⟨[], p, rfl⟩
  | cons x rest ih =>
    cases x with
    | start => exact ih _
    | stop => exact ih _
    | byte v =>
      have h1 : answerSide par (some v) p = .ok (drawAnswer p) := by
        simp [answerSide, controllerTakes, controllerDrive, hp]
      obtain ⟨ds, q, h⟩ := ih (drawAnswer p).2
      exact ⟨(drawAnswer p).1 :: ds, q, by simp [slaveRun, h1, h]⟩

theorem eventsOf_append {par : Params} {a : List Sym} {da : List SDrive} {p q : Side} (sda : Bool) (b : List Sym)
    (db : List SDrive) (h : slaveRun par a p = .ok (da, q)) :
    eventsOf sda (a ++ b) (da ++ db) = eventsOf sda a da ++ eventsOf (endLevel sda a) b db := by
  induction a generalizing sda p da with
  | nil =>
    simp only [slaveRun, Except.ok.injEq, Prod.mk.injEq] at h
    rw [← h.1]; rfl
  | cons x rest ih =>
    cases x with
    | start => simp [eventsOf, endLevel, ih false h]
    | stop => simp [eventsOf, endLevel, ih true h]
    | byte v =>
      simp only [slaveRun] at h
      cases h1 : answerSide par (some v) p with
      | error e => simp [h1] at h
      | ok dq =>
        obtain ⟨d, q'⟩ := dq
        simp only [h1] at h
        cases h2 : slaveRun par rest q' with
        | error e => simp [h2] at h
        | ok dq2 =>
          obtain ⟨ds, q2⟩ := dq2
          simp only [h2, Except.ok.injEq, Prod.mk.injEq] at h
          obtain ⟨rfl, rfl⟩ := h
          simp [eventsOf, endLevel, ih true h2]

/-! ### What a piece of a driver operation can do -/

/-- From `s` to `t` the driver put `syms` on the wire and the slave answered the bytes by `ds`; what it never writes is kept. -/
structure Moved (syms : List Sym) (ds : List SDrive) (s t : State) : Prop where
  side     : slaveRun s.par syms (sideOf s) = .ok (ds, sideOf t)
  trace    : t.trace = s.trace ++ eventsOf (level s .sda) syms ds
  mpc      : t.mpc = s.mpc + stepsOf syms
  data     : level t .sda = endLevel (level s .sda) syms
  opNack   : t.opNack = (s.opNack || nacked ds)
  lastAck  : t.lastAck = lastAckAfter s.lastAck ds
  cfg      : t.cfg = s.cfg
  par      : t.par = s.par
  dstate   : t.dstate = s.dstate
  curCol   : t.curCol = s.curCol
  curRow   : t.curRow = s.curRow
  fault    : t.fault = s.fault
  refused  : t.refused = s.refused
  queue    : t.queue = s.queue
  buf      : t.buf = s.buf
  slScl    : t.slScl = s.slScl
  slSda    : t.slSda = s.slSda

theorem Moved.trans {a b : List Sym} {da db : List SDrive} {s t u : State} (h : Moved a da s t) (k : Moved b db t u) :
    Moved (a ++ b) (da ++ db) s u where
  side := slaveRun_append h.side (by rw [← h.par]; exact k.side)
  trace := by
    rw [k.trace, h.trace, h.data, eventsOf_append _ _ _ h.side, List.append_assoc]
  mpc := by rw [k.mpc, h.mpc, stepsOf_append]; omega
  data := by rw [k.data, h.data, endLevel_append]
  opNack := by rw [k.opNack, h.opNack, nacked_append, Bool.or_assoc]
  lastAck := by rw [k.lastAck, h.lastAck, lastAckAfter_append]
  cfg := k.cfg.trans h.cfg
  par := k.par.trans h.par
  dstate := k.dstate.trans h.dstate
  curCol := k.curCol.trans h.curCol
  curRow := k.curRow.trans h.curRow
  fault := k.fault.trans h.fault
  refused := k.refused.trans h.refused
  queue := k.queue.trans h.queue
  buf := k.buf.trans h.buf
  slScl := k.slScl.trans h.slScl
  slSda := k.slSda.trans h.slSda

theorem Moved.refl (s : State) : Moved [] [] s s := by
  constructor <;> simp [slaveRun, eventsOf, stepsOf, endLevel, nacked, lastAckAfter]

theorem moved_start {s : State} (h : AtIdle s) : startBody s = .ok () (afterStart s) ∧
    Moved [.start] [] s (afterStart s) ∧ AtByte (afterStart s) := by
  refine ⟨startBody_ok h.1 h.2, ?_, atByte_afterStart h.1 h.2⟩
  have ld : level (afterStart s) .sda = false := level_sda (s := afterStart s) h.1.slSda
  constructor
  case data => exact ld
  all_goals first
    | rfl
    | simp [nacked, afterStart]

theorem moved_byte {s : State} {v : Byte} {d : SDrive} {q : Side} (h : AtByte s)
    (ha : answerSide s.par (some v) (sideOf s) = .ok (d, q)) :
    writeByteBody v s = .ok (d == .low) (afterByte v d (withSide q s)) ∧
      Moved [.byte v] [d] s { afterByte v d (withSide q s) with opNack := s.opNack || (d == .hiz) } ∧
      AtByte (afterByte v d (withSide q s)) := by
  have hb : answerByte (some v) s = .ok (d, withSide q s) := by rw [answerByte_eq, ha]
  refine ⟨writeByteBody_ok v h hb, ?_, atByte_afterByte v h hb⟩
  have ls : level (withSide q s) .sda = level s .sda := rfl
  have ld : level { afterByte v d (withSide q s) with opNack := s.opNack || (d == .hiz) } .sda = true :=
    level_afterByte v d (withSide q s)
  constructor
  case side => simp only [slaveRun, ha]; rfl
  case data => rw [ld]; rfl
  case slSda => exact h.1.slSda.symm
  case trace => simp only [eventsOf, afterByte, ls, List.append_nil]; rfl
  all_goals first
    | rfl
    | simp [nacked]

theorem moved_stop {s : State} (h : AtByte s) : stopBody s = .ok () (afterStop s.ctl s) ∧
    Moved [.stop] [] s (afterStop s.ctl s) ∧ AtIdle (afterStop s.ctl s) := by
  have hc : clockTakes s = .ok s.ctl := clockTakes_midByte (by rw [h.2.2]; simp)
  refine ⟨stopBody_ok _ h.1 h.2.1 hc, ?_, atIdle_afterStop _ h.1 h.2.1⟩
  have ld : level (afterStop s.ctl s) .sda = true := level_sda_eq h.1.slSda (highDrive_not_low s.cfg .sda)
  constructor
  case data => exact ld
  all_goals first
    | rfl
    | simp [eventsOf, nacked, afterStop]

/-! ### Bytes and transfers that go through -/

/-- `WB` of a byte whose answer lets the operation go on: an ACK, or a NACK under `IGNORE` (R88, R89). -/
theorem wb_ok {s : State} {v : Byte} {d : SDrive} {q : Side} (h : AtByte s)
    (ha : answerSide s.par (some v) (sideOf s) = .ok (d, q)) (hp : d = .low ∨ s.cfg.ackPolicy = .ignore) :
    ∃ t, wb v s = .ok () t ∧ Moved [.byte v] [d] s t ∧ AtByte t := by
  obtain ⟨h1, h2, h3⟩ := moved_byte h ha
  refine ⟨_, ?_, h2, h3⟩
  cases d with
  | low => simp [wb, h1, afterByte, withSide]
  | hiz =>
    have hi : (afterByte v .hiz (withSide q s)).cfg.ackPolicy = .ignore := by
      rcases hp with e | e
      · cases e
      · exact e
    simp only [wb, h1, Flow.bind_ok, applyNackPolicy, hi, noteNack, beq_self_eq_true, Bool.or_true]
    rfl

/-- The answers of a run let the operation go on. -/
abbrev GoesOn (s : State) (ds : List SDrive) : Prop := nacked ds = false ∨ s.cfg.ackPolicy = .ignore

theorem GoesOn.left {s : State} {a b : List SDrive} (h : GoesOn s (a ++ b)) : GoesOn s a := by
  rcases h with h | h
  · rw [nacked_append, Bool.or_eq_false_iff] at h; exact .inl h.1
  · exact .inr h

theorem GoesOn.right {s t : State} {a b : List SDrive} (h : GoesOn s (a ++ b)) (hc : t.cfg = s.cfg) : GoesOn t b := by
  rcases h with h | h
  · rw [nacked_append, Bool.or_eq_false_iff] at h; exact .inl h.2
  · exact .inr (by rw [hc]; exact h)

/-! ### The driver working through a run of symbols -/

/-- Each symbol put on the wire in turn, each byte through `WB` (R88, R90 to R92). -/
def runSyms : List Sym → State → Flow Unit
  | [], s => .ok () s
  | .start :: rest, s => (startBody s).andThen (runSyms rest)
  | .byte v :: rest, s => (wb v s).andThen (runSyms rest)
  | .stop :: rest, s => (stopBody s).andThen (runSyms rest)

theorem runSyms_append (a b : List Sym) (s : State) : runSyms (a ++ b) s = (runSyms a s).andThen (runSyms b) := by
  induction a generalizing s with
  | nil => rfl
  | cons x rest ih =>
    cases x <;> simp only [List.cons_append, runSyms, Flow.andThen_assoc] <;> congr 1 <;> funext t <;> exact ih t

/-- Whether a run of symbols is well framed, from inside a transfer (true) or outside one. -/
def framed : Bool → List Sym → Bool
  | _, [] => true
  | false, .start :: rest => framed true rest
  | true, .byte _ :: rest => framed true rest
  | true, .stop :: rest => framed false rest
  | _, _ :: _ => false

/-- Whether a well framed run of symbols ends inside a transfer. -/
def endsOpen : Bool → List Sym → Bool
  | o, [] => o
  | _, .start :: rest => endsOpen true rest
  | _, .byte _ :: rest => endsOpen true rest
  | _, .stop :: rest => endsOpen false rest

theorem framed_append (o : Bool) (a b : List Sym) : framed o (a ++ b) = (framed o a && framed (endsOpen o a) b) := by
  induction a generalizing o with
  | nil => simp [framed, endsOpen]
  | cons x rest ih => cases x <;> cases o <;> simp [framed, endsOpen, ih]

theorem endsOpen_append (o : Bool) (a b : List Sym) : endsOpen o (a ++ b) = endsOpen (endsOpen o a) b := by
  induction a generalizing o with
  | nil => rfl
  | cons x rest ih => cases x <;> exact ih _

/-- A bus at the place where a run of symbols can go on. -/
def AtPlace (o : Bool) (s : State) : Prop := if o then AtByte s else AtIdle s

/-- The master's drivers as the end of a transfer leaves them. -/
def Released (s : State) : Prop := s.drvSda = highDrive s.cfg .sda ∧ s.drvScl = highDrive s.cfg .scl

theorem released_afterStop (c : Controller) (s : State) : Released (afterStop c s) := ⟨rfl, rfl⟩

theorem sideOf_of_moved {a : List Sym} {da : List SDrive} {s t : State} {p : Side} (m : Moved a da s t)
    (h : slaveRun s.par a (sideOf s) = .ok (da, p)) : sideOf t = p := by
  have := m.side; rw [h] at this; simpa using this.symm

/-- A run of symbols that the slave gives a meaning and that no NACK cuts short. -/
theorem runSyms_done {o : Bool} {syms : List Sym} {s : State} {ds : List SDrive} {q : Side} (h : AtPlace o s)
    (hf : framed o syms = true) (ha : slaveRun s.par syms (sideOf s) = .ok (ds, q)) (hg : GoesOn s ds) :
    ∃ t, runSyms syms s = .ok () t ∧ Moved syms ds s t ∧ AtPlace (endsOpen o syms) t ∧
      (syms ≠ [] → t.frame = .idle → Released t) := by
  induction syms generalizing o s ds with
  | nil =>
    simp only [slaveRun, Except.ok.injEq, Prod.mk.injEq] at ha
    rw [← ha.1]
    exact ⟨s, rfl, Moved.refl s, h, fun e => absurd rfl e⟩
  | cons x rest ih =>
    cases x with
    | start =>
      cases o with
      | true => simp [framed] at hf
      | false =>
        obtain ⟨e0, m0, b0⟩ := moved_start (s := s) h
        obtain ⟨t, e1, m1, b1, r1⟩ := ih (o := true) (s := afterStart s) b0 hf ha hg
        refine ⟨t, by simp [runSyms, e0, e1], m0.trans m1, b1, fun _ hi => ?_⟩
        cases rest with
        | nil =>
          simp only [runSyms, Flow.ok.injEq] at e1
          rw [← e1.2] at hi; cases hi
        | cons y ys => exact r1 (by simp) hi
    | byte v =>
      cases o with
      | false => simp [framed] at hf
      | true =>
        obtain ⟨da, db, p, h1, h2, rfl⟩ := slaveRun_split (a := [.byte v]) (b := rest) ha
        obtain ⟨d, rfl, h3⟩ := slaveRun_byte h1
        have hd : d = .low ∨ s.cfg.ackPolicy = .ignore := by
          rcases hg.left with e | e
          · left; cases d
            · rfl
            · simp [nacked] at e
          · exact .inr e
        obtain ⟨u, e1, m1, b1⟩ := wb_ok h h3 hd
        obtain ⟨t, e2, m2, b2, r2⟩ := ih (o := true) b1 hf (by rw [m1.par, sideOf_of_moved m1 h1]; exact h2)
          (hg.right m1.cfg)
        refine ⟨t, by simp [runSyms, e1, e2], m1.trans m2, b2, fun _ hi => ?_⟩
        cases rest with
        | nil =>
          simp only [runSyms, Flow.ok.injEq] at e2
          rw [← e2.2, b1.2.1] at hi; cases hi
        | cons y ys => exact r2 (by simp) hi
    | stop =>
      cases o with
      | false => simp [framed] at hf
      | true =>
        obtain ⟨e0, m0, b0⟩ := moved_stop (s := s) h
        obtain ⟨t, e1, m1, b1, r1⟩ := ih (o := false) (s := afterStop s.ctl s) b0 hf ha hg
        refine ⟨t, by simp [runSyms, e0, e1], m0.trans m1, b1, fun _ hi => ?_⟩
        cases rest with
        | nil =>
          simp only [runSyms, Flow.ok.injEq] at e1
          rw [← e1.2]; exact released_afterStop _ _
        | cons y ys => exact r1 (by simp) hi

/-- Under `ABORT` the first NACK closes the transfer and skips the rest (R88, R89). -/
theorem runSyms_cut {o : Bool} {pre rest : List Sym} {v : Byte} {s : State} {ds : List SDrive} {q : Side}
    (h : AtPlace o s) (hf : framed o (pre ++ [.byte v]) = true)
    (ha : slaveRun s.par (pre ++ [.byte v]) (sideOf s) = .ok (ds ++ [.hiz], q)) (hn : nacked ds = false)
    (hp : s.cfg.ackPolicy = .abort) :
    ∃ t, runSyms (pre ++ .byte v :: rest) s = .aborted t ∧
      Moved (pre ++ [.byte v, .stop]) (ds ++ [.hiz]) s t ∧ AtIdle t ∧ Released t := by
  obtain ⟨da, db, p, h1, h2, h3⟩ := slaveRun_split ha
  obtain ⟨d, rfl, h4⟩ := slaveRun_byte h2
  obtain ⟨rfl, hd⟩ := List.append_inj' h3 rfl
  obtain rfl : SDrive.hiz = d := by simpa using hd
  rw [framed_append] at hf
  simp only [Bool.and_eq_true] at hf
  obtain ⟨u, e1, m1, b1, -⟩ := runSyms_done h hf.1 h1 (.inl hn)
  have ho : endsOpen o pre = true := by
    cases e : endsOpen o pre
    · rw [e] at hf; exact absurd hf.2 (by simp [framed])
    · rfl
  rw [ho] at b1
  have h5 : answerSide u.par (some v) (sideOf u) = .ok (.hiz, q) := by rw [m1.par, sideOf_of_moved m1 h1]; exact h4
  obtain ⟨e2, m2, b2⟩ := moved_byte (s := u) b1 h5
  have e3 : ({ afterByte v .hiz (withSide q u) with opNack := u.opNack || (SDrive.hiz == .hiz) } : State) =
      noteNack (afterByte v .hiz (withSide q u)) := by simp [noteNack]
  have hpol : (noteNack (afterByte v .hiz (withSide q u))).cfg.ackPolicy = .abort :=
    (congrArg Cfg.ackPolicy m1.cfg).trans hp
  rw [e3] at m2
  obtain ⟨e4, m4, b4⟩ := moved_stop (s := noteNack (afterByte v .hiz (withSide q u))) b2
  refine ⟨_, ?_, ?_, b4, released_afterStop _ _⟩
  · have hpol' : (afterByte v .hiz (withSide q u)).cfg.ackPolicy = .abort := hpol
    rw [runSyms_append, e1]
    simp only [Flow.andThen_ok, runSyms, wb, e2, Flow.bind_ok, applyNackPolicy, hpol', e4]
    rfl
  · have := m1.trans (m2.trans m4)
    simpa using this

/-- A byte the reference slave refuses ends the run in its ACK slot, every bit of it sent (R116, R124). -/
theorem runSyms_refused {o : Bool} {pre rest : List Sym} {v : Byte} {s : State} {ds : List SDrive} {q : Side}
    {r : ControllerReason} (h : AtPlace o s) (hf : framed o (pre ++ [.byte v]) = true)
    (ha : slaveRun s.par pre (sideOf s) = .ok (ds, q)) (hg : GoesOn s ds)
    (hr : answerSide s.par (some v) q = .error r) :
    ∃ t, runSyms (pre ++ .byte v :: rest) s =
        .halted (refuse (.controllerUnmodelled r) (afterBits (bitsMsb v) t)) ∧ Moved pre ds s t ∧ AtByte t := by
  rw [framed_append] at hf
  simp only [Bool.and_eq_true] at hf
  obtain ⟨u, e1, m1, b1, -⟩ := runSyms_done h hf.1 ha hg
  have ho : endsOpen o pre = true := by
    cases e : endsOpen o pre
    · rw [e] at hf; exact absurd hf.2 (by simp [framed])
    · rfl
  rw [ho] at b1
  have h5 : answerByte (some v) u = .error r := by
    rw [answerByte_eq, m1.par, sideOf_of_moved m1 ha, hr]
  refine ⟨u, ?_, m1, b1⟩
  rw [runSyms_append, e1]
  simp only [Flow.andThen_ok, runSyms, wb, writeByteBody_refused v (s := u) b1 h5]
  rfl

/-- The state at the end of whole transfers, exactly. -/
theorem Moved.eq_after {syms : List Sym} {ds : List SDrive} {s t : State} (m : Moved syms ds s t)
    (hs : AtIdle s) (ht : AtIdle t) (hr : Released t) : t = afterTransfers syms ds (sideOf t) s := by
  have hl : level s .sda = true := (hs.1.2.2.1 (by rw [hs.2]; simp)).2.1
  have hc : t.clkPhase = true := ht.1.1.2.1.trans (ht.1.2.2.1 (by rw [ht.2]; simp)).1
  have h1 := m.slScl; have h2 := m.slSda; have h3 := m.lastAck; have h4 := m.cfg; have h5 := m.par
  have h6 := m.dstate; have h7 := m.curCol; have h8 := m.curRow; have h9 := m.opNack; have h10 := m.trace
  have h11 := m.fault; have h12 := m.refused; have h13 := m.mpc; have h14 := m.queue; have h15 := m.buf
  have h16 := ht.2; have h17 := hr.1; have h18 := hr.2
  rw [hl] at h10
  rw [h4] at h17 h18
  clear m hs ht hr hl
  cases t
  simp only at h1 h2 h3 h4 h5 h6 h7 h8 h9 h10 h11 h12 h13 h14 h15 h16 h17 h18 hc
  subst h1 h2 h3 h4 h5 h6 h7 h8 h9 h10 h11 h12 h13 h14 h15 h16 h17 h18 hc
  rfl

end Sys2Proof.Machine
end

