-- ==== Sys2Proof/Laws/Frames.lean ====
section
/-! SUPPORT. What each operation never writes, from any state and however it ends. -/

namespace Sys2Proof.Machine

variable {α β : Type}

/-- Pieces that each keep a transitive relation keep it together. -/
theorem Flow.All.andThen {R : State → State → Prop} (ht : ∀ {s t u}, R s t → R t u → R s u) {s : State}
    {r : Flow α} {f : State → Flow β} (hr : r.All (R s)) (hf : ∀ t, (f t).All (R t)) :
    (r.andThen f).All (R s) := by
  refine Flow.Ends.andThen hr fun a t h => ?_
  exact (hf t).mono (fun _ _ k => ht h k) (fun _ k => ht h k) (fun _ k => ht h k)

theorem Flow.All.bind {R : State → State → Prop} (ht : ∀ {s t u}, R s t → R t u → R s u) {s : State}
    {r : Flow α} {f : α → State → Flow β} (hr : r.All (R s)) (hf : ∀ a t, (f a t).All (R t)) :
    (r.bind f).All (R s) := by
  refine Flow.Ends.bind hr fun a t h => ?_
  exact (hf a t).mono (fun _ _ k => ht h k) (fun _ k => ht h k) (fun _ k => ht h k)

/-- What no operation writes: the configuration, the slave's clock drive, the requests and their buffer; nothing removes an
event (R21, R26, R31); the reference slave's invariant is kept, and a line whose high is a release is not driven high
(R67). -/
structure CoreKept (s t : State) : Prop where
  cfg    : t.cfg = s.cfg
  par    : t.par = s.par
  slScl  : t.slScl = s.slScl
  queue  : t.queue = s.queue
  buf    : t.buf = s.buf
  trace  : s.trace <+: t.trace
  ctlOk  : ControllerOk s.ctl → ControllerOk t.ctl
  release : ReleaseOk s → ReleaseOk t

/-- What a run of glyphs does not write (R28, R29). -/
structure DrawKept (s t : State) : Prop extends CoreKept s t where
  dstate : t.dstate = s.dstate
  curRow : t.curRow = s.curRow

/-- What no bus operation and no transfer writes (R29). -/
structure SendKept (s t : State) : Prop extends DrawKept s t where
  curCol : t.curCol = s.curCol

/-- What no bus operation writes (R30). -/
structure BusKept (s t : State) : Prop extends SendKept s t where
  opNack : t.opNack = s.opNack

/-- What no bus operation without an ACK slot writes (R21, R25). -/
structure LineKept (s t : State) : Prop extends BusKept s t where
  lastAck : t.lastAck = s.lastAck
  slSda   : t.slSda = s.slSda
  slaveIn : t.slaveIn = s.slaveIn
  draws   : t.draws = s.draws

theorem SendKept.refl (s : State) : SendKept s s :=
  ⟨⟨⟨rfl, rfl, rfl, rfl, rfl, List.prefix_refl _, id, id⟩, rfl, rfl⟩, rfl⟩

theorem CoreKept.trans {s t u : State} (h : CoreKept s t) (k : CoreKept t u) : CoreKept s u where
  cfg := k.cfg.trans h.cfg
  par := k.par.trans h.par
  slScl := k.slScl.trans h.slScl
  queue := k.queue.trans h.queue
  buf := k.buf.trans h.buf
  trace := h.trace.trans k.trace
  ctlOk := fun c => k.ctlOk (h.ctlOk c)
  release := fun c => k.release (h.release c)

theorem DrawKept.trans {s t u : State} (h : DrawKept s t) (k : DrawKept t u) : DrawKept s u :=
  ⟨h.toCoreKept.trans k.toCoreKept, k.dstate.trans h.dstate, k.curRow.trans h.curRow⟩

theorem SendKept.trans {s t u : State} (h : SendKept s t) (k : SendKept t u) : SendKept s u :=
  ⟨h.toDrawKept.trans k.toDrawKept, k.curCol.trans h.curCol⟩

theorem BusKept.refl (s : State) : BusKept s s := ⟨SendKept.refl s, rfl⟩

theorem BusKept.trans {s t u : State} (h : BusKept s t) (k : BusKept t u) : BusKept s u :=
  ⟨h.toSendKept.trans k.toSendKept, k.opNack.trans h.opNack⟩

theorem LineKept.refl (s : State) : LineKept s s := ⟨BusKept.refl s, rfl, rfl, rfl, rfl⟩

theorem LineKept.trans {s t u : State} (h : LineKept s t) (k : LineKept t u) : LineKept s u :=
  ⟨h.toBusKept.trans k.toBusKept, k.lastAck.trans h.lastAck, k.slSda.trans h.slSda, k.slaveIn.trans h.slaveIn,
    k.draws.trans h.draws⟩

theorem LineKept.seq {s : State} {r : Flow α} {f : State → Flow β} (hr : r.All (LineKept s))
    (hf : ∀ t, (f t).All (LineKept t)) : (r.andThen f).All (LineKept s) :=
  Flow.All.andThen (R := LineKept) LineKept.trans hr hf

theorem BusKept.seq {s : State} {r : Flow α} {f : State → Flow β} (hr : r.All (BusKept s))
    (hf : ∀ t, (f t).All (BusKept t)) : (r.andThen f).All (BusKept s) :=
  Flow.All.andThen (R := BusKept) BusKept.trans hr hf

theorem SendKept.seq {s : State} {r : Flow α} {f : State → Flow β} (hr : r.All (SendKept s))
    (hf : ∀ t, (f t).All (SendKept t)) : (r.andThen f).All (SendKept s) :=
  Flow.All.andThen (R := SendKept) SendKept.trans hr hf

/-! ### Line primitives -/

/-- The drives a rule puts on a line leave it undriven high when its high is a release (R67, R70). -/
theorem lineKept_setDriver (l : Line) {m : Drive} (s : State) (hm : m ≠ .high ∨ m = highDrive s.cfg l) :
    LineKept s (setDriver l m s) := by
  have hr : ReleaseOk s → ReleaseOk (setDriver l m s) := by
    intro h
    rcases hm with hm | rfl
    · cases l
      · exact ⟨fun _ => hm, h.2⟩
      · exact ⟨h.1, fun _ => hm⟩
    · cases l
      · exact ⟨fun e => by simp only [setDriver] at e; simp [setDriver, highDrive, e], h.2⟩
      · exact ⟨h.1, fun e => by simp only [setDriver] at e; simp [setDriver, highDrive, e]⟩
  cases l <;> exact ⟨⟨⟨⟨⟨rfl, rfl, rfl, rfl, rfl, List.prefix_refl _, id, hr⟩, rfl, rfl⟩, rfl⟩, rfl⟩, rfl, rfl, rfl, rfl⟩

theorem lineKept_tick (s : State) : LineKept s (tick s) :=
  ⟨⟨⟨⟨⟨rfl, rfl, rfl, rfl, rfl, List.prefix_refl _, id, id⟩, rfl, rfl⟩, rfl⟩, rfl⟩, rfl, rfl, rfl, rfl⟩

theorem lineKept_emit (e : Event) (s : State) : LineKept s (emit e s) :=
  ⟨⟨⟨⟨⟨rfl, rfl, rfl, rfl, rfl, List.prefix_append _ _, id, id⟩, rfl, rfl⟩, rfl⟩, rfl⟩, rfl, rfl, rfl, rfl⟩

theorem lineKept_raise (r : FaultReason) (s : State) : LineKept s (raise r s) :=
  ⟨⟨⟨⟨⟨rfl, rfl, rfl, rfl, rfl, List.prefix_refl _, id, id⟩, rfl, rfl⟩, rfl⟩, rfl⟩, rfl, rfl, rfl, rfl⟩

theorem lineKept_refuse (r : RefusalReason) (s : State) : LineKept s (refuse r s) :=
  ⟨⟨⟨⟨⟨rfl, rfl, rfl, rfl, rfl, List.prefix_refl _, id, id⟩, rfl, rfl⟩, rfl⟩, rfl⟩, rfl, rfl, rfl, rfl⟩

theorem lineKept_frame (f : Frame) (s : State) : LineKept s { s with frame := f } :=
  ⟨⟨⟨⟨⟨rfl, rfl, rfl, rfl, rfl, List.prefix_refl _, id, id⟩, rfl, rfl⟩, rfl⟩, rfl⟩, rfl, rfl, rfl, rfl⟩

theorem lineKept_ctl {c : Controller} {s : State} (h : ControllerOk s.ctl → ControllerOk c) :
    LineKept s { s with ctl := c } :=
  ⟨⟨⟨⟨⟨rfl, rfl, rfl, rfl, rfl, List.prefix_refl _, h, id⟩, rfl, rfl⟩, rfl⟩, rfl⟩, rfl, rfl, rfl, rfl⟩

theorem lineKept_recordEdge (old : Bool) (l : Line) (s : State) : LineKept s (recordEdge old l s) := by
  unfold recordEdge
  split
  · exact LineKept.refl s
  · exact (lineKept_ctl controllerOk_hears).trans (lineKept_emit _ _)

theorem setLine_kept (l : Line) {m : Drive} (s : State) (hm : m ≠ .high ∨ m = highDrive s.cfg l) :
    (setLine l m s).All (LineKept s) := by
  simp only [setLine]
  split
  · exact (lineKept_setDriver l s hm).trans (lineKept_raise _ _)
  · exact ((lineKept_setDriver l s hm).trans (lineKept_recordEdge _ _ _)).trans (lineKept_tick _)

theorem setLow_kept (l : Line) (s : State) : (setLow l s).All (LineKept s) := setLine_kept l s (.inl (by simp))

theorem setHigh_kept (l : Line) (s : State) : (setHigh l s).All (LineKept s) := setLine_kept l s (.inr rfl)

theorem settle_kept (s : State) : (settle s).All (LineKept s) := (lineKept_emit _ s).trans (lineKept_tick _)

theorem setFrame_kept (f : Frame) (s : State) : (setFrame f s).All (LineKept s) := lineKept_frame f s

theorem slaveClocked_kept (s : State) : (slaveClocked s).All (LineKept s) := by
  unfold slaveClocked
  split
  · exact LineKept.refl s
  · split
    · exact lineKept_refuse _ s
    · rename_i c hc
      exact lineKept_ctl fun h => controllerOk_takes h hc

theorem raiseClock_kept (s : State) : (raiseClock s).All (LineKept s) :=
  LineKept.seq (slaveClocked_kept s) (setHigh_kept .scl)

/-! ### Bus operations without an ACK slot -/

theorem setData_kept (b : Bool) (s : State) : (setData b s).All (LineKept s) := by
  unfold setData
  split
  · exact setHigh_kept _ s
  · exact setLow_kept _ s

theorem writeBitBody_kept (b : Bool) (s : State) : (writeBitBody b s).All (LineKept s) := by
  unfold writeBitBody
  split
  · exact lineKept_raise _ s
  · repeat' first
      | exact settle_kept _
      | exact setData_kept b _
      | exact raiseClock_kept _
      | exact setLow_kept _ _
      | exact setHigh_kept _ _
      | refine LineKept.seq ?_ fun _ => ?_

theorem busInitBody_kept (s : State) : (busInitBody s).All (LineKept s) := by
  unfold busInitBody
  split
  · exact lineKept_raise _ s
  · repeat' first
      | exact settle_kept _
      | exact raiseClock_kept _
      | exact setFrame_kept _ _
      | exact setLow_kept _ _
      | exact setHigh_kept _ _
      | refine LineKept.seq ?_ fun _ => ?_

theorem startBody_kept (s : State) : (startBody s).All (LineKept s) := by
  unfold startBody
  split
  · exact lineKept_raise _ s
  · repeat' first
      | exact settle_kept _
      | exact setFrame_kept _ _
      | exact setLow_kept _ _
      | refine LineKept.seq ?_ fun _ => ?_

theorem stopBody_kept (s : State) : (stopBody s).All (LineKept s) := by
  unfold stopBody
  split
  · exact lineKept_raise _ s
  · repeat' first
      | exact settle_kept _
      | exact raiseClock_kept _
      | exact setFrame_kept _ _
      | exact setLow_kept _ _
      | exact setHigh_kept _ _
      | refine LineKept.seq ?_ fun _ => ?_

theorem writeBits_kept (bs : List Bool) (s : State) : (writeBits bs s).All (LineKept s) := by
  induction bs generalizing s with
  | nil => exact LineKept.refl s
  | cons b rest ih => exact LineKept.seq (writeBitBody_kept b s) ih

/-! ### The ACK slot -/

theorem Flow.All.mono {r : Flow α} {P Q : State → Prop} (h : r.All P) (k : ∀ s, P s → Q s) : r.All Q :=
  Flow.Ends.mono h (fun _ => k) k k

theorem busKept_withSide {p : Side} {s : State} (h : ControllerOk s.ctl → ControllerOk p.ctl) :
    BusKept s (withSide p s) :=
  ⟨⟨⟨⟨rfl, rfl, rfl, rfl, rfl, List.prefix_refl _, h, id⟩, rfl, rfl⟩, rfl⟩, rfl⟩

theorem busKept_drives {m : Drive} (d : SDrive) (s : State) (hm : m = .hiz ∨ m = s.drvSda) :
    BusKept s { s with drvSda := m, slSda := d } :=
  ⟨⟨⟨⟨rfl, rfl, rfl, rfl, rfl, List.prefix_refl _, id,
    fun h => ⟨h.1, fun e => by rcases hm with rfl | rfl; exacts [by simp, h.2 e]⟩⟩, rfl, rfl⟩, rfl⟩, rfl⟩

theorem ackSlotOpen_kept (s : State) : (ackSlotOpen s).All (BusKept s) := by
  unfold ackSlotOpen
  split
  · exact (lineKept_refuse _ s).toBusKept
  · rename_i d t h
    obtain ⟨p, hp, rfl⟩ := answerSide_of h
    exact ((busKept_withSide fun k => controllerOk_takes k (answerSide_ctl hp)).trans (busKept_drives d _ (.inl rfl))).trans
      ((lineKept_recordEdge _ _ _).trans (lineKept_tick _)).toBusKept

theorem slaveRelease_kept (s : State) : (slaveRelease s).All (BusKept s) :=
  (busKept_drives .hiz s (.inr rfl)).trans ((lineKept_recordEdge _ _ _).trans (lineKept_tick _)).toBusKept

theorem sampleSda_kept (s : State) : (sampleSda s).All (BusKept s) :=
  ((lineKept_emit _ s).trans (lineKept_tick _)).toBusKept

theorem recordAck_kept (a : Bool) (s : State) : (recordAck a s).All (BusKept s) :=
  ⟨⟨⟨⟨rfl, rfl, rfl, rfl, rfl, List.prefix_refl _, id, id⟩, rfl, rfl⟩, rfl⟩, rfl⟩

theorem readAckBody_kept (s : State) : (readAckBody s).All (BusKept s) := by
  have lk {β : Type} {r : Flow β} {t : State} (h : r.All (LineKept t)) : r.All (BusKept t) :=
    h.mono fun _ => LineKept.toBusKept
  unfold readAckBody
  split
  · exact (lineKept_raise _ s).toBusKept
  · refine Flow.All.bind (R := BusKept) BusKept.trans
      (BusKept.seq (BusKept.seq (BusKept.seq (BusKept.seq (ackSlotOpen_kept s) fun t => lk (settle_kept t))
        fun t => lk (setHigh_kept .scl t)) fun t => lk (settle_kept t)) sampleSda_kept) fun v t => ?_
    exact BusKept.seq (BusKept.seq (BusKept.seq (lk (setLow_kept .scl t)) slaveRelease_kept)
      fun u => lk (settle_kept u)) (recordAck_kept _)

theorem writeByteBody_kept (v : Byte) (s : State) : (writeByteBody v s).All (BusKept s) := by
  unfold writeByteBody
  split
  · exact (lineKept_raise _ s).toBusKept
  · exact BusKept.seq ((writeBits_kept _ s).mono fun _ => LineKept.toBusKept) readAckBody_kept

/-! ### The driver -/

theorem sendKept_noteNack (s : State) : SendKept s (noteNack s) :=
  ⟨⟨⟨rfl, rfl, rfl, rfl, rfl, List.prefix_refl _, id, id⟩, rfl, rfl⟩, rfl⟩

theorem wb_kept (v : Byte) (s : State) : (wb v s).All (SendKept s) := by
  refine Flow.All.bind (R := SendKept) SendKept.trans ((writeByteBody_kept v s).mono fun _ => BusKept.toSendKept) fun a t => ?_
  split
  · exact SendKept.refl t
  · unfold applyNackPolicy
    split
    · exact sendKept_noteNack t
    · exact Flow.Ends.andThen (P := fun _ u => SendKept t u)
        ((stopBody_kept (noteNack t)).mono fun _ h => (sendKept_noteNack t).trans h.toSendKept) (fun _ _ h => h)

theorem runSyms_kept (syms : List Sym) (s : State) : (runSyms syms s).All (SendKept s) := by
  induction syms generalizing s with
  | nil => exact SendKept.refl s
  | cons x rest ih =>
    cases x with
    | start => exact SendKept.seq ((startBody_kept s).mono fun _ h => h.toSendKept) ih
    | byte v => exact SendKept.seq (wb_kept v s) ih
    | stop => exact SendKept.seq ((stopBody_kept s).mono fun _ h => h.toSendKept) ih

end Sys2Proof.Machine
end

