-- ==== Sys2Proof/Laws/Script.lean ====
section
/-! SUPPORT. The operations of the driver as runs of symbols (42_driver R90 to R105), from any state. -/

namespace Sys2Proof.Machine

variable {α β : Type}

theorem Flow.andThen_congr {r : Flow α} {f g : State → Flow β} {P : State → Prop} (hr : r.All P)
    (h : ∀ t, P t → f t = g t) : r.andThen f = r.andThen g := by
  cases r with
  | ok a s => exact h s hr
  | halted s => rfl
  | aborted s => rfl

theorem Flow.andThen_ok_unit (r : Flow Unit) : r.andThen (.ok ()) = r := by cases r <;> rfl

theorem SendKept.address {s t : State} (h : SendKept s t) : blockAddressByte t = blockAddressByte s := by
  simp [blockAddressByte, h.cfg]

theorem beginTransfer_script (ctl : Byte) (s : State) :
    beginTransfer ctl s = runSyms [.start, .byte (blockAddressByte s), .byte ctl] s := by
  simp [beginTransfer, runSyms, Flow.andThen_assoc, Flow.andThen_ok_unit]

theorem sendBytes_script (vs : List Byte) (s : State) : sendBytes vs s = runSyms (vs.map .byte) s := by
  induction vs generalizing s with
  | nil => rfl
  | cons v rest ih => simp only [sendBytes, List.map_cons, runSyms]; congr 1; funext t; exact ih t

theorem dataTransfer_script (vs : List Byte) (s : State) :
    dataTransfer vs s = runSyms (dataOf (blockAddressByte s) vs) s := by
  have e : dataOf (blockAddressByte s) vs =
      [.start, .byte (blockAddressByte s), .byte Config.ctrlData] ++ (vs.map .byte ++ [.stop]) := by
    simp [dataOf, transferOf]
  rw [e, runSyms_append, ← beginTransfer_script, dataTransfer, Flow.andThen_assoc]
  congr 1
  funext t
  rw [runSyms_append, ← sendBytes_script]
  simp [runSyms, Flow.andThen_ok_unit]

theorem sendCommandTransfer_script (c : Byte) (s : State) :
    sendCommandTransfer c s = runSyms (commandOf (blockAddressByte s) c) s := by
  have e : commandOf (blockAddressByte s) c =
      [.start, .byte (blockAddressByte s), .byte Config.ctrlCmd] ++ ([.byte c] ++ [.stop]) := by
    simp [commandOf, transferOf]
  rw [e, runSyms_append, ← beginTransfer_script, sendCommandTransfer, Flow.andThen_assoc]
  congr 1
  funext t
  rw [runSyms_append]
  simp [runSyms, Flow.andThen_ok_unit]

theorem sendCommands_script (cs : List Byte) (s : State) :
    sendCommands cs s = runSyms (commandsOf (blockAddressByte s) cs) s := by
  induction cs generalizing s with
  | nil => rfl
  | cons c rest ih =>
    rw [commandsOf, List.flatMap_cons, runSyms_append, sendCommands, sendCommandTransfer_script]
    refine Flow.andThen_congr (P := SendKept s) (runSyms_kept _ s) fun t h => ?_
    rw [ih, h.address]
    rfl

/-- A run of symbols and then a piece that is itself a run of symbols. -/
theorem runSyms_then {a b : List Sym} {s : State} {f : State → Flow Unit}
    (h : ∀ t, SendKept s t → f t = runSyms b t) : (runSyms a s).andThen f = runSyms (a ++ b) s := by
  rw [runSyms_append]
  exact Flow.andThen_congr (P := SendKept s) (runSyms_kept _ s) h

/-- The two windows of a drawing, as a run of symbols (R100, R101). -/
def windowsOf (par : Params) (ab c0 c1 p0 p1 : Byte) : List Sym :=
  commandsOf ab [par.cmdColwin, c0, c1] ++ commandsOf ab [par.cmdPagewin, p0, p1]

theorem windows_script (c0 c1 p0 p1 : Byte) (s : State) :
    (setColumnWindow c0 c1 s).andThen (setPageWindow p0 p1) =
      runSyms (windowsOf s.par (blockAddressByte s) c0 c1 p0 p1) s := by
  rw [setColumnWindow, sendCommands_script, windowsOf]
  refine runSyms_then fun t h => ?_
  rw [setPageWindow, sendCommands_script, h.address, h.par]

theorem clear_script (s : State) :
    ((setColumnWindow 0#8 (u8 ((panelWidth s.cfg.shape : Int) - 1)) s)
      |>.andThen (setPageWindow 0#8 (u8 ((panelPages s.cfg.shape : Int) - 1)))
      |>.andThen (dataTransfer (List.replicate (clearCount s.cfg.shape) 0#8))) = runSyms (clearOf s) s := by
  rw [windows_script]
  refine runSyms_then (b := dataOf (blockAddressByte s) (List.replicate (clearCount s.cfg.shape) 0#8)) fun t h => ?_
  rw [dataTransfer_script, h.address]

/-! ### Glyphs -/

theorem glyphByte_kept {s t : State} (h : SendKept s t) (src : Source) (off : Byte) (k j : Nat) :
    glyphByte src off k j t = glyphByte src off k j s := by
  cases src <;> simp [glyphByte, sourceBytes, h.cfg, h.par, h.buf]

theorem glyphByte_ok {s : State} {src : Source} {off : Byte} {k j : Nat}
    (h : glyphIndex s.cfg.bufBase src off k j < (sourceBytes src s).length) :
    glyphByte src off k j s = .ok (sourceBytes src s)[glyphIndex s.cfg.bufBase src off k j] := by
  simp [glyphByte, List.getElem?_eq_getElem h]

theorem glyphByte_error {s : State} {src : Source} {off : Byte} {k j : Nat}
    (h : (sourceBytes src s).length ≤ glyphIndex s.cfg.bufBase src off k j) :
    glyphByte src off k j s = .error (indexFault src (glyphIndex s.cfg.bufBase src off k j)) := by
  simp [glyphByte, List.getElem?_eq_none h]

/-- The bytes at some places of a glyph, those off the end left out. -/
def bytesAt (src : Source) (off : Byte) (k : Nat) (s : State) (js : List Nat) : List Byte :=
  js.filterMap (fun j => (sourceBytes src s)[glyphIndex s.cfg.bufBase src off k j]?)

theorem bytesAt_kept {s t : State} (h : SendKept s t) (src : Source) (off : Byte) (k : Nat) (js : List Nat) :
    bytesAt src off k t js = bytesAt src off k s js := by
  cases src <;> simp [bytesAt, sourceBytes, h.cfg, h.par, h.buf]

theorem sendGlyphBytes_script {src : Source} {off : Byte} {k : Nat} {js : List Nat} {s : State}
    (h : ∀ j ∈ js, glyphIndex s.cfg.bufBase src off k j < (sourceBytes src s).length) :
    sendGlyphBytes src off k js s = runSyms ((bytesAt src off k s js).map .byte) s := by
  induction js generalizing s with
  | nil => rfl
  | cons j rest ih =>
    have hj := h j (by simp)
    simp only [sendGlyphBytes, glyphByte_ok hj, bytesAt, List.filterMap_cons, List.getElem?_eq_getElem hj,
      List.map_cons, runSyms]
    refine Flow.andThen_congr (P := SendKept s) (wb_kept _ s) fun t ht => ?_
    have hs : sourceBytes src t = sourceBytes src s := by cases src <;> simp [sourceBytes, ht.par, ht.buf]
    rw [ih (by rw [hs, ht.cfg]; exact fun i hi => h i (by simp [hi]))]
    change runSyms ((bytesAt src off k t rest).map .byte) t = runSyms ((bytesAt src off k s rest).map .byte) t
    rw [bytesAt_kept ht]

/-- The bytes before the first index off the end are sent, then the index fault is raised (R40, R41). -/
theorem sendGlyphBytes_fault {src : Source} {off : Byte} {k j : Nat} {pre rest : List Nat} {s : State}
    (h : ∀ i ∈ pre, glyphIndex s.cfg.bufBase src off k i < (sourceBytes src s).length)
    (hj : (sourceBytes src s).length ≤ glyphIndex s.cfg.bufBase src off k j) :
    sendGlyphBytes src off k (pre ++ j :: rest) s =
      (runSyms ((bytesAt src off k s pre).map .byte) s).andThen
        (fun t => .halted (raise (indexFault src (glyphIndex s.cfg.bufBase src off k j)) t)) := by
  induction pre generalizing s with
  | nil =>
    simp only [List.nil_append, sendGlyphBytes, glyphByte_error hj, bytesAt, List.filterMap_nil, List.map_nil, runSyms,
      Flow.andThen_ok]
  | cons i pre ih =>
    have hi := h i (by simp)
    simp only [List.cons_append, sendGlyphBytes, glyphByte_ok hi, bytesAt, List.filterMap_cons,
      List.getElem?_eq_getElem hi, List.map_cons, runSyms, Flow.andThen_assoc]
    refine Flow.andThen_congr (P := SendKept s) (wb_kept _ s) fun t ht => ?_
    have hs : sourceBytes src t = sourceBytes src s := by cases src <;> simp [sourceBytes, ht.par, ht.buf]
    rw [ih (by rw [hs, ht.cfg]; exact fun i hi => h i (by simp [hi])) (by rw [hs, ht.cfg]; exact hj), ht.cfg]
    change (runSyms ((bytesAt src off k t pre).map .byte) t).andThen _ =
      (runSyms ((bytesAt src off k s pre).map .byte) t).andThen _
    rw [bytesAt_kept ht]

theorem drawGlyph_script {src : Source} {off : Byte} {k : Nat} {s : State} {col row : Byte}
    (hc : s.curCol = some col) (hr : s.curRow = some row)
    (h : ∀ j ∈ [0, 1, 2, 3, 4], glyphIndex s.cfg.bufBase src off k j < (sourceBytes src s).length) :
    drawGlyph src off k s =
      (runSyms (glyphOf s.par (blockAddressByte s) col row (glyphBytes src off k s)) s).andThen (advanceCursor col) := by
  simp only [drawGlyph, hc, hr]
  congr 1
  rw [windows_script]
  have e : glyphOf s.par (blockAddressByte s) col row (glyphBytes src off k s) =
      ((windowsOf s.par (blockAddressByte s) (windowStart col) (windowEnd col) (windowPage row) (windowPage row) ++
        [.start, .byte (blockAddressByte s), .byte Config.ctrlData]) ++
        (bytesAt src off k s [0, 1, 2, 3, 4]).map .byte) ++ [.stop] := by
    simp [glyphOf, dataOf, transferOf, glyphBytes, bytesAt, windowsOf]
  rw [e, runSyms_then (b := [.start, .byte (blockAddressByte s), .byte Config.ctrlData])
    (fun t ht => by rw [beginTransfer_script, ht.address]),
    runSyms_then (b := (bytesAt src off k s [0, 1, 2, 3, 4]).map .byte) (fun t ht => ?_),
    runSyms_then (b := [.stop]) (fun t _ => by simp [runSyms, Flow.andThen_ok_unit])]
  have hs : sourceBytes src t = sourceBytes src s := by cases src <;> simp [sourceBytes, ht.par, ht.buf]
  rw [sendGlyphBytes_script (by rw [hs, ht.cfg]; exact h), bytesAt_kept ht]

end Sys2Proof.Machine
end

