-- ==== Sys2Proof/Laws/Draw.lean ====
section
/-! SUPPORT. What a run of glyphs does (42_driver R102), glyph after glyph: drawn whole, cut short by a NACK under `ABORT`, or
stopped at an index off the end of its source. -/

namespace Sys2Proof.Machine

theorem nextColumn_eq (col : Byte) : nextColumn col = col + 1#8 := by
  revert col; decide

/-- The cursor moved does not touch what a transfer does. -/
theorem Moved.withCursor {syms : List Sym} {ds : List SDrive} {s t : State} (m : Moved syms ds s t) (c : Option Byte) :
    Moved syms ds { s with curCol := c } { t with curCol := c } where
  side := m.side
  trace := m.trace
  mpc := m.mpc
  data := m.data
  opNack := m.opNack
  lastAck := m.lastAck
  cfg := m.cfg
  par := m.par
  dstate := m.dstate
  curCol := rfl
  curRow := m.curRow
  fault := m.fault
  refused := m.refused
  queue := m.queue
  buf := m.buf
  slScl := m.slScl
  slSda := m.slSda

theorem controllerOk_slaveRun {par : Params} {syms : List Sym} {ds : List SDrive} {p q : Side}
    (h : slaveRun par syms p = .ok (ds, q)) (hc : ControllerOk p.ctl) : ControllerOk q.ctl := by
  induction syms generalizing p ds with
  | nil =>
    simp only [slaveRun, Except.ok.injEq, Prod.mk.injEq] at h
    rw [← h.2]; exact hc
  | cons x rest ih =>
    cases x with
    | start => exact ih h (controllerOk_hears hc)
    | stop => exact ih h (controllerOk_hears hc)
    | byte v =>
      obtain ⟨da, db, u, h1, h2, -⟩ := slaveRun_split (a := [.byte v]) (b := rest) h
      obtain ⟨d, -, h3⟩ := slaveRun_byte h1
      exact ih h2 (controllerOk_takes hc (answerSide_ctl h3))

theorem sourceBytes_kept {s t : State} (hp : t.par = s.par) (hb : t.buf = s.buf) (src : Source) :
    sourceBytes src t = sourceBytes src s := by
  cases src <;> simp [sourceBytes, hp, hb]

theorem glyphsOf_kept {s t : State} (hc : t.cfg = s.cfg) (hp : t.par = s.par) (hb : t.buf = s.buf) (src : Source)
    (off row : Byte) (m k : Nat) (col : Byte) : glyphsOf src off t row m k col = glyphsOf src off s row m k col := by
  induction m generalizing k col with
  | zero => rfl
  | succ m ih =>
    have hs : sourceBytes src t = sourceBytes src s := by cases src <;> simp [sourceBytes, hp, hb]
    simp [glyphsOf, ih, hp, blockAddressByte, hc, glyphBytes, hs]

theorem glyphsOf_succ (src : Source) (off : Byte) (s : State) (row : Byte) (i k : Nat) (col : Byte) :
    glyphsOf src off s row (i + 1) k col = glyphsOf src off s row i k col ++
      glyphOf s.par (blockAddressByte s) (col + BitVec.ofNat 8 i) row (glyphBytes src off (k + i) s) := by
  induction i generalizing k col with
  | zero => simp [glyphsOf]
  | succ i ih =>
    rw [glyphsOf, ih, glyphsOf, List.append_assoc]
    have e : nextColumn col + BitVec.ofNat 8 i = col + BitVec.ofNat 8 (i + 1) := by
      rw [nextColumn_eq, BitVec.ofNat_add]
      ac_rfl
    rw [e, show k + 1 + i = k + (i + 1) by omega]

theorem framed_commandOf (ab c : Byte) : framed false (commandOf ab c) = true ∧ endsOpen false (commandOf ab c) = false :=
  ⟨rfl, rfl⟩

theorem framed_commandsOf (ab : Byte) (cs : List Byte) :
    framed false (commandsOf ab cs) = true ∧ endsOpen false (commandsOf ab cs) = false := by
  induction cs with
  | nil => exact ⟨rfl, rfl⟩
  | cons c rest ih =>
    rw [commandsOf, List.flatMap_cons, framed_append, endsOpen_append, (framed_commandOf ab c).1, (framed_commandOf ab c).2]
    exact ⟨by rw [Bool.true_and]; exact ih.1, ih.2⟩

theorem framed_bytes (vs : List Byte) (rest : List Sym) :
    framed true (vs.map .byte ++ rest) = framed true rest ∧ endsOpen true (vs.map .byte ++ rest) = endsOpen true rest := by
  induction vs with
  | nil => exact ⟨rfl, rfl⟩
  | cons v vs ih => exact ih

theorem framed_transferOf (vs : List Byte) :
    framed false (transferOf vs) = true ∧ endsOpen false (transferOf vs) = false :=
  ⟨(framed_bytes vs [.stop]).1, (framed_bytes vs [.stop]).2⟩

theorem framed_dataOf (ab : Byte) (vs : List Byte) :
    framed false (dataOf ab vs) = true ∧ endsOpen false (dataOf ab vs) = false := framed_transferOf _

theorem framed_both {a b : List Sym} (ha : framed false a = true ∧ endsOpen false a = false)
    (hb : framed false b = true ∧ endsOpen false b = false) :
    framed false (a ++ b) = true ∧ endsOpen false (a ++ b) = false := by
  rw [framed_append, endsOpen_append, ha.1, ha.2]
  exact ⟨by rw [Bool.true_and]; exact hb.1, hb.2⟩

theorem framed_glyphOf (par : Params) (ab col row : Byte) (vs : List Byte) :
    framed false (glyphOf par ab col row vs) = true ∧ endsOpen false (glyphOf par ab col row vs) = false :=
  framed_both (framed_both (framed_commandsOf _ _) (framed_commandsOf _ _)) (framed_dataOf _ _)

theorem framed_glyphOpenOf (par : Params) (ab col row : Byte) (vs : List Byte) :
    framed false (glyphOpenOf par ab col row vs) = true ∧ endsOpen false (glyphOpenOf par ab col row vs) = true := by
  have hw := framed_both (framed_commandsOf ab [par.cmdColwin, windowStart col, windowEnd col])
    (framed_commandsOf ab [par.cmdPagewin, windowPage row, windowPage row])
  have hb := framed_bytes vs []
  rw [List.append_nil] at hb
  unfold glyphOpenOf
  generalize commandsOf ab [par.cmdColwin, windowStart col, windowEnd col] ++
    commandsOf ab [par.cmdPagewin, windowPage row, windowPage row] = w at hw ⊢
  rw [framed_append, endsOpen_append, hw.1, hw.2, Bool.true_and]
  exact hb

/-- The bytes of a glyph whose first index off the end is that of byte `j`. -/
theorem glyphBytes_short {src : Source} {off : Byte} {k j : Nat} {s : State} (hj : j < 5)
    (he : (sourceBytes src s).length ≤ glyphIndex s.cfg.bufBase src off k j) :
    glyphBytes src off k s = bytesAt src off k s (List.range j) := by
  have hn : ∀ i, j ≤ i → (sourceBytes src s)[glyphIndex s.cfg.bufBase src off k i]? = none := by
    intro i hi
    refine List.getElem?_eq_none (he.trans ?_)
    cases src <;> cases hb : s.cfg.bufBase <;> simp [glyphIndex] <;> omega
  have hsplit : ([0, 1, 2, 3, 4] : List Nat) = List.range j ++ List.range' j (5 - j) := by
    interval_cases j <;> rfl
  rw [glyphBytes, hsplit, List.filterMap_append, bytesAt]
  have hr : (List.range' j (5 - j)).filterMap
      (fun j => (sourceBytes src s)[glyphIndex s.cfg.bufBase src off k j]?) = [] := by
    rw [List.filterMap_eq_nil_iff]
    intro i hi
    exact hn i (List.mem_range'_1.mp hi).1
  rw [hr, List.append_nil]

theorem framed_glyphsOf (src : Source) (off : Byte) (s : State) (row : Byte) (m k : Nat) (col : Byte) :
    framed false (glyphsOf src off s row m k col) = true ∧ endsOpen false (glyphsOf src off s row m k col) = false := by
  induction m generalizing k col with
  | zero => exact ⟨rfl, rfl⟩
  | succ m ih => exact framed_both (framed_glyphOf _ _ _ _ _) (ih _ _)

theorem framed_clearOf (s : State) : framed false (clearOf s) = true ∧ endsOpen false (clearOf s) = false :=
  framed_both (framed_both (framed_commandsOf _ _) (framed_commandsOf _ _)) (framed_dataOf _ _)

/-- `m` glyphs drawn whole. -/
theorem drawGlyphsFrom_done {src : Source} {off : Byte} {m k : Nat} {s : State} {col row : Byte} {ds : List SDrive}
    {q : Side} (h : AtIdle s) (hc : s.curCol = some col) (hr : s.curRow = some row)
    (hi : ∀ i < m, ∀ j < 5, glyphIndex s.cfg.bufBase src off (k + i) j < (sourceBytes src s).length)
    (ha : slaveRun s.par (glyphsOf src off s row m k col) (sideOf s) = .ok (ds, q)) (hg : GoesOn s ds) :
    ∃ t, drawGlyphsFrom src off m k s = .ok () t ∧
      Moved (glyphsOf src off s row m k col) ds { s with curCol := t.curCol } t ∧ AtIdle t ∧ (m ≠ 0 → Released t) ∧
      t.curCol = some (col + BitVec.ofNat 8 m) := by
  induction m generalizing k s col ds with
  | zero =>
    simp only [glyphsOf, slaveRun, Except.ok.injEq, Prod.mk.injEq] at ha
    rw [← ha.1]
    exact ⟨s, rfl, Moved.refl s, h, fun e => absurd rfl e, by simp [hc]⟩
  | succ m ih =>
    rw [glyphsOf] at ha
    obtain ⟨da, db, p, h1, h2, rfl⟩ := slaveRun_split ha
    have hi0 : ∀ j ∈ [0, 1, 2, 3, 4], glyphIndex s.cfg.bufBase src off k j < (sourceBytes src s).length := by
      intro j hj
      exact hi 0 (by omega) j (by simp at hj; omega)
    have hf := framed_glyphOf s.par (blockAddressByte s) col row (glyphBytes src off k s)
    obtain ⟨u, e1, m1, b1, r1⟩ := runSyms_done (o := false) h hf.1 h1 hg.left
    rw [hf.2] at b1
    have hu : drawGlyph src off k s = .ok () { u with curCol := some (nextColumn col) } := by
      rw [drawGlyph_script hc hr hi0, e1]; rfl
    have hs1 : sourceBytes src { u with curCol := some (nextColumn col) } = sourceBytes src s := sourceBytes_kept m1.par m1.buf src
    have hgl : ∀ m' k' c', glyphsOf src off { u with curCol := some (nextColumn col) } row m' k' c' =
        glyphsOf src off s row m' k' c' := fun m' k' c' =>
      glyphsOf_kept (t := { u with curCol := some (nextColumn col) }) m1.cfg m1.par m1.buf src off row m' k' c'
    obtain ⟨t, e2, m2, b2, r2, c2⟩ := ih (k := k + 1) (s := { u with curCol := some (nextColumn col) })
      (col := nextColumn col) (ds := db) b1 rfl (m1.curRow.trans hr)
      (fun i hi' j hj => by
        have := hi (i + 1) (by omega) j hj
        rw [hs1]
        simpa [m1.cfg, show k + 1 + i = k + (i + 1) by omega] using this)
      (by
        rw [hgl]
        rw [← sideOf_of_moved m1 h1] at h2
        change slaveRun u.par _ (sideOf u) = _
        rw [m1.par]
        exact h2)
      (hg.right m1.cfg)
    rw [hgl] at m2
    refine ⟨t, by simp [drawGlyphsFrom, hu, e2], ?_, b2, fun _ => ?_, ?_⟩
    · exact (m1.withCursor t.curCol).trans m2
    · cases m with
      | zero =>
        simp only [drawGlyphsFrom, Flow.ok.injEq] at e2
        rw [← e2.2]
        exact r1 (by simp [glyphOf, commandsOf, commandOf, transferOf]) b1.2
      | succ m => exact r2 (by simp)
    · rw [c2, nextColumn_eq, BitVec.ofNat_add]
      congr 1
      ac_rfl

theorem drawGlyphsFrom_add (src : Source) (off : Byte) (i m k : Nat) (s : State) :
    drawGlyphsFrom src off (i + m) k s =
      (drawGlyphsFrom src off i k s).andThen (drawGlyphsFrom src off m (k + i)) := by
  induction i generalizing k s with
  | zero => simp [drawGlyphsFrom]
  | succ i ih =>
    rw [show i + 1 + m = (i + m) + 1 by omega]
    simp only [drawGlyphsFrom, Flow.andThen_assoc]
    congr 1
    funext t
    rw [ih, show k + 1 + i = k + (i + 1) by omega]

/-- Under `ABORT` a NACK in a glyph ends the run of glyphs with the cursor at that glyph (R102 abort clause). -/
theorem drawGlyphsFrom_cut {src : Source} {off : Byte} {i m k : Nat} {s : State} {col row v : Byte}
    {d0 d1 : List SDrive} {p q : Side} {pre rest : List Sym} (h : AtIdle s) (hc : s.curCol = some col)
    (hr : s.curRow = some row) (hp : s.cfg.ackPolicy = .abort)
    (hi : ∀ i' ≤ i, ∀ j < 5, glyphIndex s.cfg.bufBase src off (k + i') j < (sourceBytes src s).length)
    (ha : slaveRun s.par (glyphsOf src off s row i k col) (sideOf s) = .ok (d0, p)) (hn : nacked d0 = false)
    (hb : glyphOf s.par (blockAddressByte s) (col + BitVec.ofNat 8 i) row (glyphBytes src off (k + i) s) =
      pre ++ .byte v :: rest)
    (hq : slaveRun s.par (pre ++ [.byte v]) p = .ok (d1 ++ [.hiz], q)) (hn1 : nacked d1 = false) :
    ∃ t, drawGlyphsFrom src off (i + (m + 1)) k s = .aborted t ∧
      Moved (glyphsOf src off s row i k col ++ (pre ++ [.byte v, .stop])) (d0 ++ (d1 ++ [.hiz]))
        { s with curCol := t.curCol } t ∧
      AtIdle t ∧ Released t ∧ t.curCol = some (col + BitVec.ofNat 8 i) := by
  obtain ⟨u, e0, m0, b0, -, c0⟩ := drawGlyphsFrom_done h hc hr (fun i' h' => hi i' (by omega)) ha (.inl hn)
  have hs : sourceBytes src u = sourceBytes src s := by
    have := sourceBytes_kept m0.par m0.buf src
    rw [this]; cases src <;> rfl
  have hcfg : u.cfg = s.cfg := m0.cfg
  have hpar : u.par = s.par := m0.par
  have hi0 : ∀ j ∈ [0, 1, 2, 3, 4], glyphIndex u.cfg.bufBase src off (k + i) j < (sourceBytes src u).length := by
    intro j hj
    rw [hs, hcfg]
    exact hi i (by omega) j (by simp at hj; omega)
  have hglyph : glyphOf u.par (blockAddressByte u) (col + BitVec.ofNat 8 i) row (glyphBytes src off (k + i) u) =
      pre ++ .byte v :: rest := by
    rw [← hb]; simp [hpar, blockAddressByte, hcfg, glyphBytes, hs]
  have hside : sideOf u = p := sideOf_of_moved m0 ha
  have hfr : framed false (pre ++ [.byte v]) = true := by
    have := (framed_glyphOf u.par (blockAddressByte u) (col + BitVec.ofNat 8 i) row (glyphBytes src off (k + i) u)).1
    rw [hglyph, show pre ++ Sym.byte v :: rest = (pre ++ [.byte v]) ++ rest by simp, framed_append] at this
    exact (Bool.and_eq_true _ _ ▸ this).1
  obtain ⟨t, e1, m1, b1, r1⟩ := runSyms_cut (o := false) (rest := rest) (s := u) b0 hfr
    (by rw [hpar, hside]; exact hq) hn1 (by rw [hcfg]; exact hp)
  have hct : t.curCol = some (col + BitVec.ofNat 8 i) := m1.curCol.trans c0
  refine ⟨t, ?_, ?_, b1, r1, hct⟩
  · rw [drawGlyphsFrom_add, e0]
    simp only [Flow.andThen_ok, drawGlyphsFrom, drawGlyph_script c0 (m0.curRow.trans hr) hi0, hglyph, e1,
      Flow.andThen_aborted]
  · rw [c0] at m0
    rw [hct]
    exact m0.trans m1

/-- A glyph whose byte `j` is off the end of its source: the transfers up to that byte, then the fault (R41, R124). -/
theorem drawGlyph_short {src : Source} {off : Byte} {k j : Nat} {s : State} {col row : Byte}
    (hc : s.curCol = some col) (hr : s.curRow = some row) (hj : j < 5)
    (hi : ∀ j' < j, glyphIndex s.cfg.bufBase src off k j' < (sourceBytes src s).length)
    (he : (sourceBytes src s).length ≤ glyphIndex s.cfg.bufBase src off k j) :
    drawGlyph src off k s =
      (runSyms (glyphOpenOf s.par (blockAddressByte s) col row (glyphBytes src off k s)) s).andThen
        (fun t => .halted (raise (indexFault src (glyphIndex s.cfg.bufBase src off k j)) t)) := by
  have hsplit : ([0, 1, 2, 3, 4] : List Nat) = List.range j ++ j :: (List.range' (j + 1) (4 - j)) := by
    interval_cases j <;> rfl
  simp only [drawGlyph, hc, hr, windows_script]
  rw [runSyms_then (b := [.start, .byte (blockAddressByte s), .byte Config.ctrlData])
    (fun t ht => by rw [beginTransfer_script, ht.address])]
  have hsend : ∀ w, SendKept s w → sendGlyphBytes src off k [0, 1, 2, 3, 4] w =
      (runSyms ((glyphBytes src off k s).map .byte) w).andThen
        (fun t => .halted (raise (indexFault src (glyphIndex s.cfg.bufBase src off k j)) t)) := by
    intro w hw
    have hsw : sourceBytes src w = sourceBytes src s := sourceBytes_kept hw.par hw.buf src
    have hcw : w.cfg = s.cfg := hw.cfg
    rw [hsplit, sendGlyphBytes_fault (by rw [hsw, hcw]; intro j' hj'; exact hi j' (by simpa using hj'))
      (by rw [hsw, hcw]; exact he), hcw, glyphBytes_short hj he, bytesAt_kept hw]
  rw [Flow.andThen_congr (P := SendKept s) (runSyms_kept _ s) hsend, ← Flow.andThen_assoc, ← runSyms_append]
  have e2 : windowsOf s.par (blockAddressByte s) (windowStart col) (windowEnd col) (windowPage row) (windowPage row) ++
      [.start, .byte (blockAddressByte s), .byte Config.ctrlData] ++ (glyphBytes src off k s).map .byte =
      glyphOpenOf s.par (blockAddressByte s) col row (glyphBytes src off k s) := by
    simp [windowsOf, glyphOpenOf]
  rw [e2]
  cases runSyms (glyphOpenOf s.par (blockAddressByte s) col row (glyphBytes src off k s)) s <;> rfl

/-- An index off the end of the source stops the run of glyphs at the byte it is needed for (R40, R41, R102). -/
theorem drawGlyphsFrom_fault {src : Source} {off : Byte} {i m k j : Nat} {s : State} {col row : Byte}
    {ds : List SDrive} {q : Side} (h : AtIdle s) (hc : s.curCol = some col) (hr : s.curRow = some row) (hj : j < 5)
    (hi : ∀ i' < i, ∀ j < 5, glyphIndex s.cfg.bufBase src off (k + i') j < (sourceBytes src s).length)
    (hi' : ∀ j' < j, glyphIndex s.cfg.bufBase src off (k + i) j' < (sourceBytes src s).length)
    (he : (sourceBytes src s).length ≤ glyphIndex s.cfg.bufBase src off (k + i) j)
    (ha : slaveRun s.par (glyphsOf src off s row i k col ++ glyphOpenOf s.par (blockAddressByte s)
      (col + BitVec.ofNat 8 i) row (glyphBytes src off (k + i) s)) (sideOf s) = .ok (ds, q)) (hg : GoesOn s ds) :
    ∃ t, drawGlyphsFrom src off (i + (m + 1)) k s =
        .halted (raise (indexFault src (glyphIndex s.cfg.bufBase src off (k + i) j)) t) ∧
      Moved (glyphsOf src off s row i k col ++ glyphOpenOf s.par (blockAddressByte s) (col + BitVec.ofNat 8 i) row
        (glyphBytes src off (k + i) s)) ds { s with curCol := t.curCol } t ∧
      AtByte t ∧ t.curCol = some (col + BitVec.ofNat 8 i) := by
  obtain ⟨d0, d1, p, h1, h2, rfl⟩ := slaveRun_split ha
  obtain ⟨u, e0, m0, b0, -, c0⟩ := drawGlyphsFrom_done h hc hr hi h1 hg.left
  have hs : sourceBytes src u = sourceBytes src s := by
    have := sourceBytes_kept m0.par m0.buf src
    rw [this]; cases src <;> rfl
  have hcfg : u.cfg = s.cfg := m0.cfg
  have hpar : u.par = s.par := m0.par
  have hab : blockAddressByte u = blockAddressByte s := by simp [blockAddressByte, hcfg]
  have hf := framed_glyphOpenOf s.par (blockAddressByte s) (col + BitVec.ofNat 8 i) row (glyphBytes src off (k + i) s)
  obtain ⟨t, e1, m1, b1, -⟩ := runSyms_done (o := false) (s := u) b0 hf.1
    (by rw [hpar, sideOf_of_moved m0 h1]; exact h2) (hg.right hcfg)
  rw [hf.2] at b1
  have hct : t.curCol = some (col + BitVec.ofNat 8 i) := m1.curCol.trans c0
  refine ⟨t, ?_, ?_, b1, hct⟩
  · have hb : glyphBytes src off (k + i) u = glyphBytes src off (k + i) s := by simp [glyphBytes, hs, hcfg]
    rw [drawGlyphsFrom_add, e0, Flow.andThen_ok, drawGlyphsFrom,
      drawGlyph_short c0 (m0.curRow.trans hr) hj (by rw [hs, hcfg]; exact hi') (by rw [hs, hcfg]; exact he),
      hab, hpar, hb, hcfg, e1]
    rfl
  · rw [c0] at m0
    rw [hct]
    exact m0.trans m1

end Sys2Proof.Machine
end

