-- ==== Sys2Proof/Laws/Request.lean ====
section
/-! SUPPORT. The frame of a request (42_driver R86), once: what it answers at a live state, and every way it can end in a next
state. -/

namespace Sys2Proof.Machine

variable {α : Type}

theorem whenLive_live {s : State} (h : Live s) (k : State → Host.Outcome State Fault Refusal) :
    whenLive s k = k s := by
  unfold whenLive; rw [h.1, h.2]

theorem whenLive_next {s t : State} {k : State → Host.Outcome State Fault Refusal} (h : whenLive s k = .next t) :
    Live s ∧ k s = .next t := by
  unfold whenLive at h
  split at h
  · cases h
  · cases h
  · rename_i h1 h2; exact ⟨⟨h1, h2⟩, h⟩

theorem whenLive_fault {s : State} {r : FaultReason} {m : Nat} (h : s.fault = some (r, m))
    (k : State → Host.Outcome State Fault Refusal) : whenLive s k = .fault (.stopped r m) := by
  unfold whenLive; rw [h]

theorem whenLive_refused {s : State} {r : RefusalReason} (h : s.fault = none) (hr : s.refused = some r)
    (k : State → Host.Outcome State Fault Refusal) : whenLive s k = .refused (.stopped r) := by
  unfold whenLive; rw [h, hr]

/-! ### A bus operation as a request -/

theorem runBus_ok {i : Instr} {body : State → Flow α} {res : α → Result} {s t : State} {a : α} (h : Live s)
    (hb : body (beginOp i s) = .ok a t) : runBus i body res s = .next (endOp (res a) t) := by
  rw [runBus, whenLive_live h]; simp only [hb]

theorem runBus_halted {i : Instr} {body : State → Flow α} {res : α → Result} {s t : State} (h : Live s)
    (hb : body (beginOp i s) = .halted t) : runBus i body res s = .next t := by
  rw [runBus, whenLive_live h]; simp only [hb]

theorem runBus_next {i : Instr} {body : State → Flow α} {res : α → Result} {s t : State}
    (h : runBus i body res s = .next t) :
    Live s ∧ ((∃ a u, body (beginOp i s) = .ok a u ∧ t = endOp (res a) u) ∨ body (beginOp i s) = .halted t ∨
      body (beginOp i s) = .aborted t) := by
  obtain ⟨hl, h⟩ := whenLive_next h
  refine ⟨hl, ?_⟩
  cases hb : body (beginOp i s) with
  | ok a u => simp only [hb, Host.Outcome.next.injEq] at h; exact .inl ⟨a, u, rfl, h.symm⟩
  | halted u => simp only [hb, Host.Outcome.next.injEq] at h; exact .inr (.inl (by rw [h]))
  | aborted u => simp only [hb, Host.Outcome.next.injEq] at h; exact .inr (.inr (by rw [h]))

/-! ### A driver operation as a request -/

theorem runDriver_ok {i : Instr} {body : State → Flow Unit} {clause : State → State} {res : State → Result}
    {s t : State} (h : Live s) (hb : body (begun i s) = .ok () t) :
    runDriver i body clause res s = .next (endOp (res t) t) := by
  unfold begun at hb
  rw [runDriver, whenLive_live h]; simp only [hb]

theorem runDriver_halted {i : Instr} {body : State → Flow Unit} {clause : State → State} {res : State → Result}
    {s t : State} (h : Live s) (hb : body (begun i s) = .halted t) : runDriver i body clause res s = .next t := by
  unfold begun at hb
  rw [runDriver, whenLive_live h]; simp only [hb]

theorem runDriver_aborted {i : Instr} {body : State → Flow Unit} {clause : State → State} {res : State → Result}
    {s t : State} (h : Live s) (hb : body (begun i s) = .aborted t) :
    runDriver i body clause res s = .next (endOp (.status .nack) (clause t)) := by
  unfold begun at hb
  rw [runDriver, whenLive_live h]; simp only [hb]

theorem runDriver_next {i : Instr} {body : State → Flow Unit} {clause : State → State} {res : State → Result}
    {s t : State} (h : runDriver i body clause res s = .next t) :
    Live s ∧ ((∃ u, body (begun i s) = .ok () u ∧ t = endOp (res u) u) ∨ body (begun i s) = .halted t ∨
      ∃ u, body (begun i s) = .aborted u ∧ t = endOp (.status .nack) (clause u)) := by
  obtain ⟨hl, h⟩ := whenLive_next h
  refine ⟨hl, ?_⟩
  change (match body (begun i s) with | .ok _ t => _ | .halted t => _ | .aborted t => _) = _ at h
  cases hb : body (begun i s) with
  | ok a u => simp only [hb, Host.Outcome.next.injEq] at h; exact .inl ⟨u, rfl, h.symm⟩
  | halted u => simp only [hb, Host.Outcome.next.injEq] at h; exact .inr (.inl (by rw [h]))
  | aborted u => simp only [hb, Host.Outcome.next.injEq] at h; exact .inr (.inr ⟨u, rfl, h.symm⟩)

/-! ### A wire byte -/

theorem runWireByte_ok {body : State → Flow Unit} {s t : State} (h : Live s) (hb : body s = .ok () t) :
    runWireByte body s = .next { t with mpc := 0 } := by
  rw [runWireByte, whenLive_live h]; simp only [hb]

theorem runWireByte_halted {body : State → Flow Unit} {s t : State} (h : Live s) (hb : body s = .halted t) :
    runWireByte body s = .next t := by
  rw [runWireByte, whenLive_live h]; simp only [hb]

theorem runWireByte_aborted {body : State → Flow Unit} {s t : State} (h : Live s) (hb : body s = .aborted t) :
    runWireByte body s = .next { t with mpc := 0 } := by
  rw [runWireByte, whenLive_live h]; simp only [hb]

theorem runWireByte_next {body : State → Flow Unit} {s t : State} (h : runWireByte body s = .next t) :
    Live s ∧ ((∃ u, body s = .ok () u ∧ t = { u with mpc := 0 }) ∨ body s = .halted t ∨
      ∃ u, body s = .aborted u ∧ t = { u with mpc := 0 }) := by
  obtain ⟨hl, h⟩ := whenLive_next h
  refine ⟨hl, ?_⟩
  cases hb : body s with
  | ok a u => simp only [hb, Host.Outcome.next.injEq] at h; exact .inl ⟨u, rfl, h.symm⟩
  | halted u => simp only [hb, Host.Outcome.next.injEq] at h; exact .inr (.inl (by rw [h]))
  | aborted u => simp only [hb, Host.Outcome.next.injEq] at h; exact .inr (.inr ⟨u, rfl, h.symm⟩)

/-! ### The driver state check -/

theorem whenReady_ready {s : State} (h : s.dstate = .ready) (body : State → Flow Unit) : whenReady body s = body s := by
  simp [whenReady, h]

theorem whenReady_not {s : State} (h : s.dstate ≠ .ready) (body : State → Flow Unit) :
    whenReady body s = .halted (raise .notReady s) := by
  simp [whenReady, h]

/-! ### One step -/

/-- Every way a step can end in a next state: it waits, an illegal word sets its mark, or an operation runs. -/
theorem step_next {s t : State} (h : step s = .next t) :
    Live s ∧ ((s.queue = [] ∧ t = s) ∨
      (∃ w e rest, s.queue = e :: rest ∧ e.code = .word w ∧ decode e.code = none ∧ t = refuse (.illegalRequest w) s) ∨
      ∃ e rest i, s.queue = e :: rest ∧ decode e.code = some i ∧ exec i (issue e rest s) = .next t) := by
  obtain ⟨hl, h⟩ := whenLive_next h
  refine ⟨hl, ?_⟩
  unfold nextRequest at h
  split at h
  · rename_i hq
    exact .inl ⟨hq, (Host.Outcome.next.inj h).symm⟩
  · rename_i e rest hq
    split at h
    · rename_i i hd
      exact .inr (.inr ⟨e, rest, i, hq, hd, h⟩)
    · rename_i hd
      unfold unknownCode at h
      split at h
      · rename_i w hw
        exact .inr (.inl ⟨w, e, rest, hq, hw, hd, (Host.Outcome.next.inj h).symm⟩)
      · cases h

end Sys2Proof.Machine
end

