-- ==== Sys2Proof/Laws/Bits.lean ====
section
/-! SUPPORT. A byte written from any place in a byte of an open transfer (41_bus R73 to R75, R81): the state it ends in, and
what a receiver reads of it. -/

namespace Sys2Proof.Machine

/-! ### The bits -/

/-- What a run of data bits does, from any place in a byte. -/
structure BitsSent (bs : List Bool) (s u : State) : Prop where
  busOk : BusOk u
  frame : u.frame = .opened
  trace : u.trace = s.trace ++ bitsEvents (level s .sda) bs
  data  : level u .sda = bs.getLastD (level s .sda)
  bits  : (receiver u.trace).bits = bs.foldl nextBits (receiver s.trace).bits
  mpc   : u.mpc = s.mpc + 6 * bs.length
  ok    : writeBits bs s = .ok () u

theorem bitsSent {bs : List Bool} {s u : State} (h : BusOk s) (ho : s.frame = .opened) (e : sendBits bs s = .ok u) :
    BitsSent bs s u := by
  induction bs generalizing s with
  | nil =>
    simp only [sendBits, Except.ok.injEq] at e
    subst e
    exact ⟨h, ho, by simp [bitsEvents], rfl, rfl, rfl, rfl⟩
  | cons b rest ih =>
    unfold sendBits at e
    split at e
    · cases e
    · rename_i c hc
      have ld : level (afterBit b c s) .sda = b := level_sda_eq h.slSda (dataDrive_not_low s.cfg b)
      have k := ih (busOk_afterBit b c h ho) ho e
      refine ⟨k.busOk, k.frame, ?_, ?_, ?_, ?_, ?_⟩
      · rw [k.trace, ld]; simp [afterBit, bitsEvents]
      · rw [k.data, ld, List.getLastD_cons]
      · rw [k.bits, receiver_afterBit b c h ho]; rfl
      · rw [k.mpc, List.length_cons]; simp only [afterBit]; omega
      · rw [writeBits, writeBitBody_ok b c h ho hc, Flow.andThen_ok, k.ok]

/-- A byte written from any place in a byte (R75). -/
theorem writeByteBody_from {s u : State} {v : Byte} {d : SDrive} {p : Side} (h : BusOk s) (ho : s.frame = .opened)
    (e : sendBits (bitsMsb v) s = .ok u)
    (ha : answerSide u.par (pendingByte (receiver u.trace)) (sideOf u) = .ok (d, p)) :
    writeByteBody v s = .ok (d == .low) (afterAck d (withSide p u)) := by
  have k := bitsSent h ho e
  have hs : slaveAnswer u = .ok (d, withSide p u) := by rw [slaveAnswer, answerByte_eq, ha]
  simp only [writeByteBody, ho, ne_eq, not_true_eq_false, if_false, k.ok, Flow.andThen_ok]
  exact readAckBody_ok k.busOk k.frame hs

/-! ### What a receiver reads -/

/-- The item a receiver reads when a bit completes a byte (R81). -/
def bitItem (bits : List Bool) (b : Bool) : List Item :=
  if bits.length = 8 then [.byte (byteOfBits bits) b] else []

/-- The items of a run of bits, after the bits already held. -/
def bitItems : List Bool → List Bool → List Item
  | _, [] => []
  | bits, b :: rest => bitItem bits b ++ bitItems (nextBits bits b) rest

theorem decodeFrom_bitEvents_any (r : Receiver) (b : Bool) (h : r.scl = false) (ha : r.active = true) :
    decodeFrom r (bitEvents r.sda b) = bitItem r.bits b := by
  rw [bitEvents, decodeFrom_append, decodeFrom_changeEvents r _ b h, hearAll_changeEvents r b h]
  by_cases hl : r.bits.length = 8 <;> simp [decodeFrom, itemAt, hear, ha, hl, bitItem]

theorem bitsEvents_any (r : Receiver) (bs : List Bool) (h : r.scl = false) (ha : r.active = true) :
    decodeFrom r (bitsEvents r.sda bs) = bitItems r.bits bs ∧
      hearAll r (bitsEvents r.sda bs) = { r with sda := bs.getLastD r.sda, bits := bs.foldl nextBits r.bits } := by
  induction bs generalizing r with
  | nil => exact ⟨rfl, rfl⟩
  | cons b rest ih =>
    obtain ⟨h1, h2⟩ := ih { r with sda := b, bits := nextBits r.bits b } h ha
    rw [bitsEvents, decodeFrom_append, hearAll_append, decodeFrom_bitEvents_any r b h ha, hearAll_bitEvents r b h ha]
    exact ⟨by rw [h1]; rfl, by rw [h2]; cases rest <;> rfl⟩

/-- Nine bits after at most eight complete one byte, and the bits beyond its ninth begin the next (R81). -/
theorem bitItems_nine (bits bs : List Bool) (hb : bits.length ≤ 8) (hn : bs.length = 9) :
    bitItems bits bs = [.byte (byteOfBits ((bits ++ bs).take 8)) ((bits ++ bs).getD 8 false)] ∧
      bs.foldl nextBits bits = (bits ++ bs).drop 9 := by
  have short : ∀ (l bits : List Bool), bits.length + l.length ≤ 8 →
      bitItems bits l = [] ∧ l.foldl nextBits bits = bits ++ l := by
    intro l
    induction l with
    | nil => intro bits _; simp [bitItems]
    | cons b rest ih =>
      intro bits h
      have hne : bits.length ≠ 8 := by simp at h; omega
      have := ih (bits ++ [b]) (by simp at h ⊢; omega)
      simp [bitItems, bitItem, nextBits, hne, this]
  have happ : ∀ (a b bits : List Bool), bitItems bits (a ++ b) = bitItems bits a ++ bitItems (a.foldl nextBits bits) b := by
    intro a
    induction a with
    | nil => intro b bits; rfl
    | cons x rest ih => intro b bits; simp [bitItems, ih]
  obtain ⟨a, x, b, rfl, hm⟩ : ∃ a x b, bs = a ++ x :: b ∧ bits.length + a.length = 8 :=
    ⟨bs.take (8 - bits.length), bs[8 - bits.length], bs.drop (8 - bits.length + 1), by simp, by simp; omega⟩
  have h1 := short a bits (by omega)
  have h2 := short b [] (by simp at hn ⊢; omega)
  have hl : (bits ++ a).length = 8 := by simp [hm]
  rw [← List.append_assoc, happ, h1.1, h1.2, List.foldl_append, h1.2]
  constructor
  · rw [List.take_append_of_le_length (by omega), List.take_of_length_le (by omega), List.getD_eq_getElem?_getD,
      List.getElem?_append_right (by omega), hl]
    simp [bitItems, bitItem, hl, nextBits, h2.1]
  · rw [List.foldl_cons, nextBits, if_pos hl, h2.2, List.drop_append, List.drop_of_length_le (by omega), hl]
    rfl

/-- What a receiver reads of a byte written from any place in a byte. -/
theorem byte_read {s u : State} {v : Byte} {d : SDrive} {p : Side} (h : BusOk s) (ho : s.frame = .opened)
    (e : sendBits (bitsMsb v) s = .ok u)
    (ha : answerSide u.par (pendingByte (receiver u.trace)) (sideOf u) = .ok (d, p)) :
    BusOk (afterAck d (withSide p u)) ∧
      (let bits := (receiver s.trace).bits ++ (bitsMsb v ++ [releasedLevel d])
       decodeTrace (afterAck d (withSide p u)).trace =
          decodeTrace s.trace ++ [.byte (byteOfBits (bits.take 8)) (bits.getD 8 false)] ∧
        (receiver (afterAck d (withSide p u)).trace).bits = bits.drop 9) := by
  have k := bitsSent h ho e
  have hs : slaveAnswer u = .ok (d, withSide p u) := by rw [slaveAnswer, answerByte_eq, ha]
  have hn := bitItems_nine (receiver s.trace).bits (bitsMsb v ++ [releasedLevel d]) (h.bits ho) (by simp)
  refine ⟨busOk_afterAck k.busOk k.frame hs, ?_, ?_⟩
  · have hb := bitsEvents_any (receiver s.trace) (bitsMsb v) (h.rcvLow ho) (h.active ho)
    have hl : level (withSide p u) .sda = (receiver u.trace).sda := k.busOk.data.symm
    have hdec : decodeTrace u.trace = decodeTrace s.trace ++ bitItems (receiver s.trace).bits (bitsMsb v) := by
      rw [k.trace, decodeTrace_append, ← h.data, hb.1]
    have happ : bitItems (receiver s.trace).bits (bitsMsb v ++ [releasedLevel d]) =
        bitItems (receiver s.trace).bits (bitsMsb v) ++ bitItem (receiver u.trace).bits (releasedLevel d) := by
      rw [k.bits]; simp [bitItems, bitsMsb]
    rw [← hn.1, happ, ← List.append_assoc, ← hdec]
    simp only [afterAck, hl]
    rw [show (withSide p u).trace = u.trace from rfl, decodeTrace_append,
      decodeFrom_ackEvents _ d (k.busOk.rcvLow k.frame) (k.busOk.active k.frame)]
    rfl
  · rw [receiver_afterAck k.busOk k.frame hs, ← hn.2, List.foldl_append, ← k.bits]
    rfl

end Sys2Proof.Machine
end

