-- ==== Sys2Proof/Laws/Bodies.lean ====
section
/-! SUPPORT. The body of each driver operation as the symbols it puts on the wire (42_driver R93 to R106), and the state a
whole run of transfers leaves. -/

namespace Sys2Proof.Machine

/-- One or more whole transfers that nothing cuts short, from an idle bus. -/
theorem runSyms_after {syms : List Sym} {s : State} {ds : List SDrive} {q : Side} (h : AtIdle s)
    (hf : framed false syms = true ∧ endsOpen false syms = false) (hne : syms ≠ [])
    (ha : slaveRun s.par syms (sideOf s) = .ok (ds, q)) (hg : GoesOn s ds) :
    runSyms syms s = .ok () (afterTransfers syms ds q s) := by
  obtain ⟨t, e, m, p, r⟩ := runSyms_done (o := false) h hf.1 ha hg
  rw [hf.2] at p
  have p' : AtIdle t := p
  rw [e, m.eq_after h p' (r hne p'.2), sideOf_of_moved m ha]

theorem commandOf_ne (ab c : Byte) : commandOf ab c ≠ [] := by simp [commandOf, transferOf]

theorem clearOf_ne (s : State) : clearOf s ≠ [] := by simp [clearOf, commandsOf, commandOf, transferOf]

theorem scriptOf_init_ne (s : State) : scriptOf .init s ≠ [] := by
  simp [scriptOf, initSeq, commandsOf, commandOf, transferOf]

theorem framed_scriptOf (i : Instr) (s : State) :
    framed false (scriptOf i s) = true ∧ endsOpen false (scriptOf i s) = false := by
  cases i with
  | sendCommand c => exact framed_commandOf _ _
  | init => exact framed_commandsOf _ _
  | drawGlyphs src off n =>
    cases h1 : s.curCol with
    | none => simp only [scriptOf, h1]; exact ⟨rfl, rfl⟩
    | some col =>
      cases h2 : s.curRow with
      | none => simp only [scriptOf, h1, h2]; exact ⟨rfl, rfl⟩
      | some row => simp only [scriptOf, h1, h2]; exact framed_glyphsOf _ _ _ _ _ _ _
  | clear => exact framed_clearOf s
  | _ => exact ⟨rfl, rfl⟩

theorem setDState_then (d : DState) (s : State) (f : State → Flow Unit) :
    (setDState d s).andThen f = f { s with dstate := d } := rfl

theorem sendCommandBody_script {s : State} (c : Byte) (h : s.dstate = .ready) :
    sendCommandBody c s = runSyms (scriptOf (.sendCommand c) s) s := by
  rw [sendCommandBody, whenReady_ready h, sendCommandTransfer_script]; rfl

theorem initBody_script {s : State} (h : s.dstate ≠ .configuring) :
    initBody s = (runSyms (scriptOf .init s) { s with dstate := .configuring }).andThen (setDState .ready) := by
  rw [initBody, if_neg h, setDState_then, sendCommands_script]; rfl

theorem clearBody_script {s : State} (h : s.dstate = .ready) : clearBody s = runSyms (scriptOf .clear s) s := by
  rw [clearBody, whenReady_ready h, clear_script]; rfl

/-- A command transfer, a run of them, and each operation on a bus on which `START` finds a fault (R72, R94, R102, R105). -/
theorem sendCommandTransfer_faulted {s : State} {r : FaultReason} (c : Byte) (h : startFault s = some r) :
    sendCommandTransfer c s = .halted (raise r s) := by
  simp [sendCommandTransfer, beginTransfer, startBody_faulted h]

theorem sendCommands_faulted {s : State} {r : FaultReason} (c : Byte) (cs : List Byte) (h : startFault s = some r) :
    sendCommands (c :: cs) s = .halted (raise r s) := by
  rw [sendCommands, sendCommandTransfer_faulted c h]; rfl

theorem setColumnWindow_faulted {s : State} {r : FaultReason} (a b : Byte) (h : startFault s = some r) :
    setColumnWindow a b s = .halted (raise r s) := sendCommands_faulted _ _ h

theorem initSeq_cons (b : InitBytes) (shape : Shape) (power : Power) :
    ∃ c cs, initSeq b shape power = c :: cs := ⟨_, _, rfl⟩

theorem initBody_faulted {s : State} {r : FaultReason} (h : startFault s = some r) (hd : s.dstate ≠ .configuring) :
    initBody s = .halted (raise r { s with dstate := .configuring }) := by
  obtain ⟨c, cs, e⟩ := initSeq_cons s.par.initBytes s.cfg.shape s.cfg.power
  rw [initBody, if_neg hd, setDState_then, e, sendCommands_faulted c cs (by exact h)]; rfl

/-- The first glyph, whether or not the cursor is set (R126; log 27). -/
theorem drawGlyph_faulted {s : State} {r : FaultReason} (src : Source) (off : Byte) (k : Nat) (h : startFault s = some r) :
    drawGlyph src off k s = .halted (raise r s) := by
  unfold drawGlyph
  split
  · rw [setColumnWindow_faulted _ _ h]; rfl
  · rw [cursorFault, h]; rfl

theorem drawGlyphsBody_faulted {s : State} {r : FaultReason} (src : Source) (off : Byte) {n : Byte} (hn : n ≠ 0#8)
    (hd : s.dstate = .ready) (h : startFault s = some r) : drawGlyphsBody src off n s = .halted (raise r s) := by
  have : n.toNat ≠ 0 := fun e => hn (BitVec.eq_of_toNat_eq e)
  obtain ⟨m, hm⟩ := Nat.exists_eq_succ_of_ne_zero this
  rw [drawGlyphsBody, whenReady_ready hd, hm, drawGlyphsFrom, drawGlyph_faulted src off 0 h]; rfl

theorem clearBody_faulted {s : State} {r : FaultReason} (hd : s.dstate = .ready) (h : startFault s = some r) :
    clearBody s = .halted (raise r s) := by
  rw [clearBody, whenReady_ready hd, setColumnWindow_faulted _ _ h]; rfl

/-- A public operation outside `READY` (R87). -/
theorem notReady_request {s : State} (i : Instr) (body : State → Flow Unit) (res : State → Result) (hl : Live s)
    (hd : s.dstate ≠ .ready) :
    runDriver i (whenReady body) noAbortClause res s = .next (raise .notReady (begun i s)) :=
  runDriver_halted hl (whenReady_not (s := begun i s) hd body)

theorem scriptOf_begun (i j : Instr) (s : State) : scriptOf i (begun j s) = scriptOf i s := by
  cases i with
  | drawGlyphs src off n =>
    have hc : (begun j s).curCol = s.curCol := rfl
    have hr : (begun j s).curRow = s.curRow := rfl
    cases h1 : s.curCol with
    | none => simp only [scriptOf, hc, h1]
    | some col =>
      cases h2 : s.curRow with
      | none => simp only [scriptOf, hc, hr, h1, h2]
      | some row => simp only [scriptOf, hc, hr, h1, h2]; exact glyphsOf_kept (s := s) (t := begun j s) rfl rfl rfl src off _ _ _ _
  | _ => rfl

end Sys2Proof.Machine
end

