-- ==== Sys2Proof/Laws/Codec.lean ====
section
/-! SUPPORT. The fields of a request word and of a wire byte, and the words put together from them (30_encoding R54, R55,
R60). -/

namespace Sys2Proof

@[simp] theorem fieldOpc_packWord (opc a b c : Byte) : fieldOpc (packWord opc a b c) = opc := by
  apply BitVec.eq_of_getLsbD_eq
  intro i hi
  simp only [fieldOpc, packWord, BitVec.getLsbD_extractLsb', BitVec.getLsbD_append, hi, decide_true, Bool.true_and]
  have h1 : ¬ 24 + i < 8 := by omega
  have h2 : ¬ 24 + i - 8 < 8 := by omega
  have h3 : ¬ 24 + i - 8 - 8 < 8 := by omega
  simp only [h1, h2, h3, if_false]
  congr 1
  omega

@[simp] theorem fieldA_packWord (opc a b c : Byte) : fieldA (packWord opc a b c) = a := by
  apply BitVec.eq_of_getLsbD_eq
  intro i hi
  simp only [fieldA, packWord, BitVec.getLsbD_extractLsb', BitVec.getLsbD_append, hi, decide_true, Bool.true_and]
  have h1 : ¬ 16 + i < 8 := by omega
  have h2 : ¬ 16 + i - 8 < 8 := by omega
  have h3 : 16 + i - 8 - 8 < 8 := by omega
  simp only [h1, h2, h3, if_false, if_true]
  congr 1
  omega

@[simp] theorem fieldB_packWord (opc a b c : Byte) : fieldB (packWord opc a b c) = b := by
  apply BitVec.eq_of_getLsbD_eq
  intro i hi
  simp only [fieldB, packWord, BitVec.getLsbD_extractLsb', BitVec.getLsbD_append, hi, decide_true, Bool.true_and]
  have h1 : ¬ 8 + i < 8 := by omega
  have h2 : 8 + i - 8 < 8 := by omega
  simp only [h1, h2, if_false, if_true]
  congr 1
  omega

@[simp] theorem fieldC_packWord (opc a b c : Byte) : fieldC (packWord opc a b c) = c := by
  apply BitVec.eq_of_getLsbD_eq
  intro i hi
  simp only [fieldC, packWord, BitVec.getLsbD_extractLsb', BitVec.getLsbD_append, hi, decide_true, Bool.true_and]
  have h1 : 0 + i < 8 := by omega
  simp only [h1, if_true]
  congr 1
  omega

/-- A word is its four fields. -/
theorem packWord_fields (w : Word) : packWord (fieldOpc w) (fieldA w) (fieldB w) (fieldC w) = w := by
  apply BitVec.eq_of_getLsbD_eq
  intro i hi
  simp only [packWord, BitVec.getLsbD_append, fieldOpc, fieldA, fieldB, fieldC, BitVec.getLsbD_extractLsb']
  split
  · rename_i h
    simp only [h, decide_true, Bool.true_and]
    congr 1
    omega
  · split
    · rename_i h
      simp only [h, decide_true, Bool.true_and]
      congr 1
      omega
    · split
      · rename_i h
        simp only [h, decide_true, Bool.true_and]
        congr 1
        omega
      · have h : i - 8 - 8 - 8 < 8 := by omega
        simp only [h, decide_true, Bool.true_and]
        congr 1
        omega

theorem bitByte_bit (c : Byte) (h : highSeven c = 0#7) : bitByte (c.getLsbD 0) = c := by
  revert h; revert c; decide

theorem bitByte_getLsbD (b : Bool) : (bitByte b).getLsbD 0 = b ∧ highSeven (bitByte b) = 0#7 := by
  cases b <;> decide

theorem sourceOf_sourceBit (s : Source) : sourceOf (sourceBit s) = s := by cases s <;> rfl

theorem sourceBit_sourceOf (b : Bool) : sourceBit (sourceOf b) = b := by cases b <;> rfl

theorem addressByte_field (a : BitVec 7) :
    (a ++ 0#1 : Byte).getLsbD 0 = false ∧ (a ++ 0#1 : Byte).extractLsb' 1 7 = a := by
  revert a; decide

theorem addressByte_bits (b : Byte) (h : b.getLsbD 0 = false) : (b.extractLsb' 1 7 ++ 0#1 : Byte) = b := by
  revert h; revert b; decide

/-! ### The reserved bits of R55, field by field -/

theorem append_zero {n m : Nat} (x : BitVec n) (y : BitVec m) : x ++ y = 0#(n + m) ↔ x = 0#n ∧ y = 0#m := by
  constructor
  · intro h
    constructor <;> apply BitVec.eq_of_getLsbD_eq <;> intro i hi
    · have := congrArg (fun v => BitVec.getLsbD v (m + i)) h
      simp only [BitVec.getLsbD_append, show ¬ m + i < m by omega, if_false, Nat.add_sub_cancel_left] at this
      rw [this]; simp
    · have := congrArg (fun v => BitVec.getLsbD v i) h
      simp only [BitVec.getLsbD_append, hi, if_true] at this
      rw [this]; simp
  · rintro ⟨rfl, rfl⟩
    apply BitVec.eq_of_getLsbD_eq
    intro i hi
    simp

theorem low24_zero (w : Word) :
    w.extractLsb' 0 24 = 0#24 ↔ fieldA w = 0#8 ∧ fieldB w = 0#8 ∧ fieldC w = 0#8 := by
  have e : w.extractLsb' 0 24 = (fieldA w ++ fieldB w ++ fieldC w : BitVec 24) := by
    apply BitVec.eq_of_getLsbD_eq
    intro i hi
    simp only [BitVec.getLsbD_append, fieldA, fieldB, fieldC, BitVec.getLsbD_extractLsb', hi, decide_true, Bool.true_and]
    split
    · rename_i h; simp only [h, decide_true, Bool.true_and]
    · split
      · rename_i h; simp only [h, decide_true, Bool.true_and]; congr 1; omega
      · have h : i - 8 - 8 < 8 := by omega
        simp only [h, decide_true, Bool.true_and]; congr 1; omega
  rw [e]
  exact (append_zero _ _).trans ((and_congr_left' (append_zero _ _)).trans and_assoc)

theorem high16_zero (w : Word) : w.extractLsb' 8 16 = 0#16 ↔ fieldA w = 0#8 ∧ fieldB w = 0#8 := by
  have e : w.extractLsb' 8 16 = (fieldA w ++ fieldB w : BitVec 16) := by
    apply BitVec.eq_of_getLsbD_eq
    intro i hi
    simp only [BitVec.getLsbD_append, fieldA, fieldB, BitVec.getLsbD_extractLsb', hi, decide_true, Bool.true_and]
    split
    · rename_i h; simp only [h, decide_true, Bool.true_and]
    · have h : i - 8 < 8 := by omega
      simp only [h, decide_true, Bool.true_and]; congr 1; omega
  rw [e]
  exact append_zero _ _

theorem bits1to23_zero (w : Word) :
    w.extractLsb' 1 23 = 0#23 ↔ fieldA w = 0#8 ∧ fieldB w = 0#8 ∧ highSeven (fieldC w) = 0#7 := by
  have e : w.extractLsb' 1 23 = (fieldA w ++ fieldB w ++ highSeven (fieldC w) : BitVec 23) := by
    apply BitVec.eq_of_getLsbD_eq
    intro i hi
    simp only [BitVec.getLsbD_append, fieldA, fieldB, fieldC, highSeven, BitVec.getLsbD_extractLsb', hi, decide_true,
      Bool.true_and]
    split
    · rename_i h
      have h' : 1 + i < 8 := by omega
      simp only [h, h', decide_true, Bool.true_and]; congr 1; omega
    · split
      · rename_i h; simp only [h, decide_true, Bool.true_and]; congr 1; omega
      · have h : i - 7 - 8 < 8 := by omega
        simp only [h, decide_true, Bool.true_and]; congr 1; omega
  rw [e]
  exact (append_zero _ _).trans ((and_congr_left' (append_zero _ _)).trans and_assoc)

theorem bits17to23 (w : Word) : w.extractLsb' 17 7 = highSeven (fieldA w) := by
  apply BitVec.eq_of_getLsbD_eq
  intro i hi
  have h : 1 + i < 8 := by omega
  simp only [fieldA, highSeven, BitVec.getLsbD_extractLsb', hi, h, decide_true, Bool.true_and]
  congr 1
  omega

/-- A legal request word, field by field (R55, R56). -/
theorem requestWordLegal_fields (w : Word) :
    requestWordLegal w =
      if bareOpcodes.contains (fieldOpc w) then decide (fieldA w = 0#8 ∧ fieldB w = 0#8 ∧ fieldC w = 0#8)
      else if fieldOpc w = 0x03#8 then decide (fieldA w = 0#8 ∧ fieldB w = 0#8 ∧ highSeven (fieldC w) = 0#7)
      else if fieldOpc w = 0x05#8 ∨ fieldOpc w = 0x10#8 then decide (fieldA w = 0#8 ∧ fieldB w = 0#8)
      else if fieldOpc w = 0x12#8 then decide (fieldA w = 0#8)
      else if fieldOpc w = 0x13#8 then decide (highSeven (fieldA w) = 0#7)
      else false := by
  have e : w.extractLsb' 24 8 = fieldOpc w := rfl
  have ea : w.extractLsb' 16 8 = fieldA w := rfl
  simp only [requestWordLegal, e, ea, beq_eq_decide, low24_zero, high16_zero, bits1to23_zero, bits17to23, Bool.or_eq_true,
    decide_eq_true_eq]

end Sys2Proof
end

