-- ==== Sys2Proof/Laws/Marks.lean ====
section
/-! SUPPORT. A piece of an operation halts exactly when it sets a mark, and then it sets one, at the micro-step the mark
names, with no `OpEnd` (60_exceptions R124, R125). -/

namespace Sys2Proof.Machine

/-- No `OpEnd` among the events. -/
def NoEnd (es : List Event) : Prop := ∀ res, Event.opEnd res ∉ es
/-- A piece that set no mark: it only added events, no `OpEnd` among them. -/
def Unmarked (s t : State) : Prop :=
  (∃ es, t.trace = s.trace ++ es ∧ NoEnd es) ∧ t.fault = s.fault ∧ t.refused = s.refused
/-- A piece that set one mark, a fault's with the micro-step it was raised at (R124). -/
def Marked (s t : State) : Prop := (∃ es, t.trace = s.trace ++ es ∧ NoEnd es) ∧
  (((∃ r, t.fault = some (r, t.mpc)) ∧ t.refused = s.refused) ∨ (t.fault = s.fault ∧ ∃ r, t.refused = some r))
/-- A piece halts exactly by setting a mark. -/
abbrev Marks {α : Type} (r : Flow α) (s : State) : Prop := r.Ends (fun _ t => Unmarked s t) (Marked s) (Unmarked s)

theorem Unmarked.refl (s : State) : Unmarked s s := ⟨⟨[], by simp, by simp [NoEnd]⟩, rfl, rfl⟩

theorem NoEnd.append {a b : List Event} (h : NoEnd a) (k : NoEnd b) : NoEnd (a ++ b) := by
  intro r hr
  rcases List.mem_append.1 hr with hr | hr
  · exact h _ hr
  · exact k _ hr

theorem Unmarked.trans {s t u : State} (h : Unmarked s t) (k : Unmarked t u) : Unmarked s u := by
  obtain ⟨⟨e, h1, h2⟩, h3, h4⟩ := h
  obtain ⟨⟨e', k1, k2⟩, k3, k4⟩ := k
  exact ⟨⟨e ++ e', by rw [k1, h1, List.append_assoc], h2.append k2⟩, k3.trans h3, k4.trans h4⟩

theorem Unmarked.marks {s t u : State} (h : Unmarked s t) (k : Marked t u) : Marked s u := by
  obtain ⟨⟨e, h1, h2⟩, h3, h4⟩ := h
  obtain ⟨⟨e', k1, k2⟩, k3⟩ := k
  refine ⟨⟨e ++ e', by rw [k1, h1, List.append_assoc], h2.append k2⟩, ?_⟩
  rw [h3, h4] at k3; exact k3

theorem Marks.of {α : Type} {r : Flow α} {s t : State} (h : Unmarked s t) (k : Marks r t) : Marks r s :=
  Flow.Ends.mono k (fun _ _ x => h.trans x) (fun _ x => h.marks x) (fun _ x => h.trans x)

theorem Marks.andThen {α β : Type} {s : State} {r : Flow α} {f : State → Flow β} (hr : Marks r s)
    (hf : ∀ t, Marks (f t) t) : Marks (r.andThen f) s := by
  cases r with
  | ok a t => exact Marks.of hr (hf t)
  | halted t => exact hr
  | aborted t => exact hr

theorem Marks.bind {α β : Type} {s : State} {r : Flow α} {f : α → State → Flow β} (hr : Marks r s)
    (hf : ∀ a t, Marks (f a t) t) : Marks (r.bind f) s := by
  cases r with
  | ok a t => exact Marks.of hr (hf a t)
  | halted t => exact hr
  | aborted t => exact hr

theorem unmarked_same {s t : State} (h : t.trace = s.trace) (h1 : t.fault = s.fault) (h2 : t.refused = s.refused) :
    Unmarked s t :=
  ⟨⟨[], by simp [h], by simp [NoEnd]⟩, h1, h2⟩

theorem marked_raise (r : FaultReason) (s : State) : Marked s (raise r s) :=
  ⟨⟨[], by simp [raise], by simp [NoEnd]⟩, .inl ⟨⟨r, rfl⟩, rfl⟩⟩

theorem marked_refuse (r : RefusalReason) (s : State) : Marked s (refuse r s) :=
  ⟨⟨[], by simp [refuse], by simp [NoEnd]⟩, .inr ⟨rfl, r, rfl⟩⟩

theorem unmarked_emit (e : Event) (s : State) (h : ∀ r, e ≠ .opEnd r) : Unmarked s (emit e s) :=
  ⟨⟨[e], rfl, by intro r; simpa using (h r).symm⟩, rfl, rfl⟩

theorem unmarked_recordEdge (o : Bool) (l : Line) (s : State) : Unmarked s (recordEdge o l s) := by
  unfold recordEdge emitEdge; split
  · exact Unmarked.refl s
  · exact (unmarked_same (t := slaveHears _ s) rfl rfl rfl).trans (unmarked_emit _ _ (by simp))

theorem unmarked_tick (s : State) : Unmarked s (tick s) := unmarked_same rfl rfl rfl

theorem setLine_marks (l : Line) (m : Drive) (s : State) : Marks (setLine l m s) s := by
  have h : Unmarked s (setDriver l m s) := by cases l <;> exact unmarked_same rfl rfl rfl
  unfold setLine; simp only; split
  · exact h.marks (marked_raise _ _)
  · exact (h.trans (unmarked_recordEdge _ _ _)).trans (unmarked_tick _)

theorem settle_marks (s : State) : Marks (settle s) s := (unmarked_emit _ _ (by simp)).trans (unmarked_tick _)

theorem setFrame_marks (f : Frame) (s : State) : Marks (setFrame f s) s := unmarked_same rfl rfl rfl

theorem raiseClock_marks (s : State) : Marks (raiseClock s) s := by
  refine Marks.andThen ?_ fun t => setLine_marks _ _ _
  unfold slaveClocked; split
  · exact Unmarked.refl _
  · split
    · exact marked_refuse _ _
    · exact unmarked_same rfl rfl rfl

theorem writeBitBody_marks (b : Bool) (s : State) : Marks (writeBitBody b s) s := by
  unfold writeBitBody; split
  · exact marked_raise _ _
  · refine Marks.andThen (Marks.andThen (Marks.andThen (Marks.andThen (Marks.andThen ?_ settle_marks)
      raiseClock_marks) settle_marks) (setLine_marks _ _)) settle_marks
    rw [setData_eq]; exact setLine_marks _ _ _

theorem writeBits_marks (bs : List Bool) (s : State) : Marks (writeBits bs s) s := by
  induction bs generalizing s with
  | nil => exact Unmarked.refl _
  | cons b r ih => exact Marks.andThen (writeBitBody_marks b s) ih

theorem busInitBody_marks (s : State) : Marks (busInitBody s) s := by
  unfold busInitBody; split
  · exact marked_raise _ _
  · exact Marks.andThen (Marks.andThen (Marks.andThen (Marks.andThen (setLine_marks _ _ _) settle_marks)
      raiseClock_marks) settle_marks) (setFrame_marks _)

theorem startBody_marks (s : State) : Marks (startBody s) s := by
  unfold startBody; split
  · exact marked_raise _ _
  · exact Marks.andThen (Marks.andThen (Marks.andThen (Marks.andThen (setLine_marks _ _ _) settle_marks)
        (setLine_marks _ _)) settle_marks) (setFrame_marks _)

theorem stopBody_marks (s : State) : Marks (stopBody s) s := by
  unfold stopBody; split
  · exact marked_raise _ _
  · exact Marks.andThen (Marks.andThen (Marks.andThen (Marks.andThen (Marks.andThen (Marks.andThen (setLine_marks _
      _ _) settle_marks) raiseClock_marks) settle_marks) (fun t => setLine_marks _ _ _)) settle_marks)
      (setFrame_marks _)

theorem readAckBody_marks (s : State) : Marks (readAckBody s) s := by
  unfold readAckBody; split
  · exact marked_raise _ _
  · refine Marks.bind (Marks.andThen (Marks.andThen (Marks.andThen (Marks.andThen ?_ settle_marks) (fun t =>
      setLine_marks _ _ _)) settle_marks) fun t => (unmarked_emit _ _ (by simp)).trans (unmarked_tick _)) ?_
    · unfold ackSlotOpen; split
      · exact marked_refuse _ _
      · rename_i d t h
        obtain ⟨p, -, rfl⟩ := answerSide_of h
        refine Unmarked.trans (Unmarked.trans ?_ (unmarked_recordEdge _ _ _)) (unmarked_tick _)
        exact unmarked_same rfl rfl rfl
    · intro v t
      refine Marks.andThen (Marks.andThen (Marks.andThen (setLine_marks _ _ _) fun u => ?_) settle_marks) fun u =>
          unmarked_same rfl rfl rfl
      refine Unmarked.trans (Unmarked.trans ?_ (unmarked_recordEdge _ _ _)) (unmarked_tick _)
      exact unmarked_same rfl rfl rfl

theorem writeByteBody_marks (v : Byte) (s : State) : Marks (writeByteBody v s) s := by
  unfold writeByteBody; split
  · exact marked_raise _ _
  · exact Marks.andThen (writeBits_marks _ _) readAckBody_marks

theorem wb_marks (v : Byte) (s : State) : Marks (wb v s) s := by
  refine Marks.bind (writeByteBody_marks v s) fun a t => ?_
  split
  · exact Unmarked.refl _
  · unfold applyNackPolicy; split
    · exact unmarked_same rfl rfl rfl
    · exact Marks.andThen (Marks.of (unmarked_same rfl rfl rfl) (stopBody_marks _)) fun u => Unmarked.refl _

theorem runSyms_marks (l : List Sym) (s : State) : Marks (runSyms l s) s := by
  induction l generalizing s with
  | nil => exact Unmarked.refl _
  | cons x r ih => cases x with
    | start => exact Marks.andThen (startBody_marks s) ih
    | byte v => exact Marks.andThen (wb_marks v s) ih
    | stop => exact Marks.andThen (stopBody_marks s) ih

theorem sendGlyphBytes_marks (src : Source) (off : Byte) (k : Nat) (js : List Nat) (s : State) :
    Marks (sendGlyphBytes src off k js s) s := by
  induction js generalizing s with
  | nil => exact Unmarked.refl _
  | cons j r ih =>
    unfold sendGlyphBytes; split
    · exact marked_raise _ _
    · exact Marks.andThen (wb_marks _ _) ih

theorem drawGlyph_marks (src : Source) (off : Byte) (k : Nat) (s : State) : Marks (drawGlyph src off k s) s := by
  unfold drawGlyph; split
  · rw [windows_script]
    refine Marks.andThen (Marks.andThen (Marks.andThen (Marks.andThen (runSyms_marks _ _) fun t => ?_) fun t =>
        sendGlyphBytes_marks _ _ _ _ _) stopBody_marks) fun t => unmarked_same rfl rfl rfl
    rw [beginTransfer_script]; exact runSyms_marks _ _
  · exact marked_raise _ _

theorem drawGlyphsFrom_marks (src : Source) (off : Byte) (m k : Nat) (s : State) :
    Marks (drawGlyphsFrom src off m k s) s := by
  induction m generalizing k s with
  | zero => exact Unmarked.refl _
  | succ m ih => exact Marks.andThen (drawGlyph_marks _ _ _ _) fun t => ih _ t

theorem whenReady_marks {body : State → Flow Unit} (s : State) (h : Marks (body s) s) : Marks (whenReady body s) s
    := by
  unfold whenReady; split
  · exact marked_raise _ _
  · exact h

theorem initBody_marks (s : State) : Marks (initBody s) s := by
  unfold initBody; split
  · exact marked_raise _ _
  · refine Marks.andThen (Marks.andThen (unmarked_same rfl rfl rfl : Marks (setDState .configuring s) s) fun t =>
      ?_) fun t => unmarked_same rfl rfl rfl
    rw [sendCommands_script]; exact runSyms_marks _ _

theorem sendCommandBody_marks (c : Byte) (s : State) : Marks (sendCommandBody c s) s := by
  refine whenReady_marks s ?_
  rw [sendCommandTransfer_script]; exact runSyms_marks _ _

theorem setPositionBody_marks (col row : Byte) (s : State) : Marks (setPositionBody col row s) s :=
  whenReady_marks s (unmarked_same rfl rfl rfl : Marks (.ok () { s with curCol := some col, curRow := some row }) s)

theorem drawGlyphsBody_marks (src : Source) (off n : Byte) (s : State) : Marks (drawGlyphsBody src off n s) s :=
  whenReady_marks s (drawGlyphsFrom_marks src off _ 0 s)

theorem clearBody_marks (s : State) : Marks (clearBody s) s := by
  refine whenReady_marks s ?_
  rw [clear_script]; exact runSyms_marks _ _

/-- A body that halted at a state with a next step left it marked. -/
theorem Marked.notLive {s t : State} (h : Marked s t) : ¬ Live t := by
  rintro ⟨h1, h2⟩
  rcases h.2 with ⟨⟨r, hr⟩, -⟩ | ⟨-, r, hr⟩
  · rw [h1] at hr; cases hr
  · rw [h2] at hr; cases hr

end Sys2Proof.Machine
end

