-- ==== Sys2Proof/Laws/Counts.lean ====
section
/-! SUPPORT. The micro-steps and the settle delays of each piece of an operation (70_reset_and_hazards R145), from any state;
and that a piece aborts only under `ABORT`, with a NACK noted (42_driver R88). -/

namespace Sys2Proof.Machine

variable {α β : Type}

/-- A piece that runs to its end takes `n` micro-steps, `k` of them settle delays; `A` holds where it aborts. -/
abbrev Flow.CountsOr (A : State → Prop) (r : Flow α) (n k : Nat) (s : State) : Prop :=
  r.Ends (fun _ t => Spent n k s t) (fun _ => True) A

/-- No bus operation aborts. -/
abbrev Flow.Ticks (r : Flow α) (n k : Nat) (s : State) : Prop := r.CountsOr (fun _ => False) n k s

/-- A piece of the driver aborts only under `ABORT`, with a NACK noted (R88). -/
abbrev Flow.Counts (r : Flow α) (n k : Nat) (s : State) : Prop :=
  r.CountsOr (fun t => t.opNack = true ∧ t.cfg.ackPolicy = .abort) n k s

theorem Spent.refl (s : State) : Spent 0 0 s s := ⟨rfl, rfl⟩

theorem Spent.trans {n k n' k' : Nat} {s t u : State} (h : Spent n k s t) (g : Spent n' k' t u) :
    Spent (n + n') (k + k') s u :=
  ⟨by rw [g.1, h.1]; omega, by rw [g.2, h.2]; omega⟩

variable {A : State → Prop} {n k n' k' : Nat} {s : State}

theorem Flow.CountsOr.andThen {r : Flow α} {f : State → Flow β} (hr : r.CountsOr A n k s)
    (hf : ∀ t, (f t).CountsOr A n' k' t) : (r.andThen f).CountsOr A (n + n') (k + k') s := by
  cases r with
  | ok a t => exact (hf t).mono (fun _ _ h => hr.trans h) (fun _ h => h) (fun _ h => h)
  | halted t => trivial
  | aborted t => exact hr

theorem Flow.CountsOr.bind {r : Flow α} {f : α → State → Flow β} (hr : r.CountsOr A n k s)
    (hf : ∀ a t, (f a t).CountsOr A n' k' t) : (r.bind f).CountsOr A (n + n') (k + k') s := by
  cases r with
  | ok a t => exact (hf a t).mono (fun _ _ h => hr.trans h) (fun _ h => h) (fun _ h => h)
  | halted t => trivial
  | aborted t => exact hr

theorem Flow.CountsOr.of_eq {r : Flow α} (h : r.CountsOr A n k s) (hn : n = n') (hk : k = k') :
    r.CountsOr A n' k' s := hn ▸ hk ▸ h

theorem Flow.CountsOr.ok {t : State} {r : Flow α} {a : α} (h : r.CountsOr A n k s) (e : r = .ok a t) :
    Spent n k s t := by
  subst e; exact h

theorem Flow.Ticks.counts {r : Flow α} (h : r.Ticks n k s) : r.Counts n k s :=
  h.mono (fun _ _ g => g) (fun _ g => g) (fun _ g => g.elim)

/-! ### Line primitives -/

theorem spent_recordEdge (old : Bool) (l : Line) (s : State) : Spent 0 0 s (recordEdge old l s) := by
  unfold recordEdge
  split
  · exact Spent.refl s
  · exact ⟨rfl, by simp [emitEdge, emit, slaveHears]⟩

theorem spent_tick (s : State) : Spent 1 0 s (tick s) := ⟨rfl, rfl⟩

theorem setLine_ticks (l : Line) (m : Drive) (s : State) : (setLine l m s).Ticks 1 0 s := by
  have h : Spent 0 0 s (setDriver l m s) := by cases l <;> exact ⟨rfl, rfl⟩
  simp only [setLine]
  split
  · trivial
  · exact (h.trans (spent_recordEdge _ _ _)).trans (spent_tick _)

theorem setLow_ticks (l : Line) (s : State) : (setLow l s).Ticks 1 0 s := setLine_ticks l .low s

theorem setHigh_ticks (l : Line) (s : State) : (setHigh l s).Ticks 1 0 s := setLine_ticks l _ s

theorem settle_ticks (s : State) : (settle s).Ticks 1 1 s := ⟨rfl, by simp [tick, emit]⟩

theorem sampleSda_ticks (s : State) : (sampleSda s).Ticks 1 0 s := ⟨rfl, by simp [tick, emit]⟩

theorem setFrame_ticks (f : Frame) (s : State) : (setFrame f s).Ticks 0 0 s := ⟨rfl, rfl⟩

theorem setDState_ticks (d : DState) (s : State) : (setDState d s).Ticks 0 0 s := ⟨rfl, rfl⟩

theorem recordAck_ticks (a : Bool) (s : State) : (recordAck a s).Ticks 0 0 s := ⟨rfl, rfl⟩

theorem raiseClock_ticks (s : State) : (raiseClock s).Ticks 1 0 s := by
  have h : (slaveClocked s).Ticks 0 0 s := by
    unfold slaveClocked
    split
    · exact Spent.refl s
    · split
      · trivial
      · exact ⟨rfl, rfl⟩
  exact (h.andThen (setHigh_ticks .scl)).of_eq rfl rfl

theorem ackSlotOpen_ticks (s : State) : (ackSlotOpen s).Ticks 1 0 s := by
  unfold ackSlotOpen
  split
  · trivial
  · rename_i d t h
    obtain ⟨p, -, rfl⟩ := answerSide_of h
    have h0 : Spent 0 0 s { withSide p s with drvSda := .hiz, slSda := d } := ⟨rfl, rfl⟩
    exact (h0.trans (spent_recordEdge _ _ _)).trans (spent_tick _)

theorem slaveRelease_ticks (s : State) : (slaveRelease s).Ticks 1 0 s := by
  have h0 : Spent 0 0 s { s with slSda := .hiz } := ⟨rfl, rfl⟩
  exact (h0.trans (spent_recordEdge _ _ _)).trans (spent_tick _)

/-! ### Bus operations -/

theorem busInitBody_ticks (s : State) : (busInitBody s).Ticks 4 2 s := by
  unfold busInitBody
  split
  · trivial
  · exact ((((setHigh_ticks .sda s).andThen settle_ticks).andThen raiseClock_ticks).andThen settle_ticks).andThen
      (setFrame_ticks .idle)

theorem startBody_ticks (s : State) : (startBody s).Ticks 4 2 s := by
  unfold startBody
  split
  · trivial
  · exact ((((setLow_ticks .sda s).andThen settle_ticks).andThen (setLow_ticks .scl)).andThen settle_ticks).andThen
      (setFrame_ticks .opened)

theorem writeBitBody_ticks (b : Bool) (s : State) : (writeBitBody b s).Ticks 6 3 s := by
  have hd : (setData b s).Ticks 1 0 s := by rw [setData_eq]; exact setLine_ticks _ _ s
  unfold writeBitBody
  split
  · trivial
  · exact ((((hd.andThen settle_ticks).andThen raiseClock_ticks).andThen settle_ticks).andThen
      (setLow_ticks .scl)).andThen settle_ticks

theorem readAckBody_ticks (s : State) : (readAckBody s).Ticks 8 3 s := by
  unfold readAckBody
  split
  · trivial
  · refine Flow.CountsOr.bind (n := 5) (k := 2) (n' := 3) (k' := 1)
      ((((ackSlotOpen_ticks s).andThen settle_ticks).andThen (setHigh_ticks .scl)).andThen settle_ticks |>.andThen
        sampleSda_ticks) fun v t => ?_
    exact (((setLow_ticks .scl t).andThen slaveRelease_ticks).andThen settle_ticks).andThen (recordAck_ticks _)

theorem writeBits_ticks (bs : List Bool) (s : State) : (writeBits bs s).Ticks (6 * bs.length) (3 * bs.length) s := by
  induction bs generalizing s with
  | nil => exact Spent.refl s
  | cons b rest ih =>
    exact ((writeBitBody_ticks b s).andThen ih).of_eq (by rw [List.length_cons]; omega) (by rw [List.length_cons]; omega)

theorem writeByteBody_ticks (v : Byte) (s : State) : (writeByteBody v s).Ticks 56 27 s := by
  unfold writeByteBody
  split
  · trivial
  · exact (writeBits_ticks (bitsMsb v) s).andThen readAckBody_ticks

theorem stopBody_ticks (s : State) : (stopBody s).Ticks 6 3 s := by
  unfold stopBody
  split
  · trivial
  · exact ((((((setLow_ticks .sda s).andThen settle_ticks).andThen raiseClock_ticks).andThen settle_ticks).andThen
      (setHigh_ticks .sda)).andThen settle_ticks).andThen (setFrame_ticks .idle)

/-! ### The driver -/

theorem wb_counts (v : Byte) (s : State) : (wb v s).Counts 56 27 s := by
  refine Flow.CountsOr.bind (n' := 0) (k' := 0) (writeByteBody_ticks v s).counts fun a t => ?_
  split
  · exact Spent.refl t
  · unfold applyNackPolicy
    split
    · exact ⟨rfl, rfl⟩
    · rename_i hp
      have hk := stopBody_kept (noteNack t)
      cases hs : stopBody (noteNack t) with
      | ok a u => rw [hs] at hk; exact ⟨hk.opNack, by rw [hk.cfg]; exact hp⟩
      | halted u => trivial
      | aborted u => rw [hs] at hk; exact ⟨hk.opNack, by rw [hk.cfg]; exact hp⟩

theorem sendBytes_counts (vs : List Byte) (s : State) :
    (sendBytes vs s).Counts (56 * vs.length) (27 * vs.length) s := by
  induction vs generalizing s with
  | nil => exact Spent.refl s
  | cons v rest ih =>
    exact ((wb_counts v s).andThen ih).of_eq (by rw [List.length_cons]; omega) (by rw [List.length_cons]; omega)

theorem beginTransfer_counts (ctl : Byte) (s : State) : (beginTransfer ctl s).Counts 116 56 s :=
  ((startBody_ticks s).counts.andThen (wb_counts _)).andThen (wb_counts ctl)

theorem sendCommandTransfer_counts (c : Byte) (s : State) : (sendCommandTransfer c s).Counts 178 86 s :=
  ((beginTransfer_counts _ s).andThen (wb_counts c)).andThen fun t => (stopBody_ticks t).counts

theorem sendCommands_counts (cs : List Byte) (s : State) :
    (sendCommands cs s).Counts (178 * cs.length) (86 * cs.length) s := by
  induction cs generalizing s with
  | nil => exact Spent.refl s
  | cons c rest ih =>
    exact ((sendCommandTransfer_counts c s).andThen ih).of_eq (by rw [List.length_cons]; omega)
      (by rw [List.length_cons]; omega)

theorem setColumnWindow_counts (a b : Byte) (s : State) : (setColumnWindow a b s).Counts 534 258 s :=
  sendCommands_counts [s.par.cmdColwin, a, b] s

theorem setPageWindow_counts (a b : Byte) (s : State) : (setPageWindow a b s).Counts 534 258 s :=
  sendCommands_counts [s.par.cmdPagewin, a, b] s

theorem dataTransfer_counts (vs : List Byte) (s : State) :
    (dataTransfer vs s).Counts (10 + 56 * (vs.length + 2)) (5 + 27 * (vs.length + 2)) s :=
  (((beginTransfer_counts _ s).andThen (sendBytes_counts vs)).andThen fun t => (stopBody_ticks t).counts).of_eq (by omega) (by omega)

theorem initSeq_length (b : InitBytes) (shape : Shape) (power : Power) : (initSeq b shape power).length = 25 := rfl

theorem whenReady_counts {body : State → Flow Unit} (h : (body s).Counts n k s) :
    (whenReady body s).Counts n k s := by
  unfold whenReady
  split
  · trivial
  · exact h

theorem initBody_counts (s : State) : (initBody s).Counts 4450 2150 s := by
  unfold initBody
  split
  · trivial
  · refine Flow.CountsOr.of_eq (Flow.CountsOr.andThen (Flow.CountsOr.andThen (setDState_ticks .configuring s).counts
      fun t => sendCommands_counts _ t) fun t => (setDState_ticks .ready t).counts) ?_ ?_ <;> rw [initSeq_length]

theorem sendGlyphBytes_counts (src : Source) (off : Byte) (k : Nat) (js : List Nat) (s : State) :
    (sendGlyphBytes src off k js s).Counts (56 * js.length) (27 * js.length) s := by
  induction js generalizing s with
  | nil => exact Spent.refl s
  | cons j rest ih =>
    unfold sendGlyphBytes
    split
    · trivial
    · exact ((wb_counts _ s).andThen ih).of_eq (by rw [List.length_cons]; omega) (by rw [List.length_cons]; omega)

theorem drawGlyph_counts (src : Source) (off : Byte) (k : Nat) (s : State) :
    (drawGlyph src off k s).Counts 1470 710 s := by
  unfold drawGlyph
  split
  · rename_i col row _ _
    exact (((((setColumnWindow_counts _ _ s).andThen (setPageWindow_counts _ _)).andThen
      (beginTransfer_counts _)).andThen (sendGlyphBytes_counts src off k [0, 1, 2, 3, 4])).andThen
      fun t => (stopBody_ticks t).counts).andThen (n' := 0) (k' := 0) fun t => ⟨rfl, rfl⟩
  · trivial

theorem drawGlyphsFrom_counts (src : Source) (off : Byte) (m k : Nat) (s : State) :
    (drawGlyphsFrom src off m k s).Counts (1470 * m) (710 * m) s := by
  induction m generalizing k s with
  | zero => exact Spent.refl s
  | succ m ih => exact ((drawGlyph_counts src off k s).andThen fun t => ih (k + 1) t).of_eq (by omega) (by omega)

theorem clearBody_counts (s : State) :
    (clearBody s).Counts (6 * 178 + 10 + 56 * (clearCount s.cfg.shape + 2))
      (6 * 86 + 5 + 27 * (clearCount s.cfg.shape + 2)) s := by
  refine whenReady_counts ?_
  have hd := dataTransfer_counts (List.replicate (clearCount s.cfg.shape) 0#8)
  rw [List.length_replicate] at hd
  exact (((setColumnWindow_counts _ _ s).andThen (setPageWindow_counts _ _)).andThen hd).of_eq (by omega) (by omega)

/-! ### Requests -/

theorem runBus_settles {i : Instr} {body : State → Flow α} {res : α → Result} {t : State}
    (hb : ∀ u, (body u).Ticks n k u) (hm : ∀ u, Marks (body u) u) (e : runBus i body res s = .next t) (ht : Live t) :
    t.trace.count .settle = s.trace.count .settle + k := by
  have hk := hb (beginOp i s)
  have hn := hm (beginOp i s)
  obtain ⟨-, ⟨a, u, h, rfl⟩ | h | h⟩ := runBus_next e <;> rw [h] at hk hn
  · have := hk.2
    simpa [endOp, emit, beginOp] using this
  · exact absurd ht hn.notLive
  · exact hk.elim

/-- A driver operation whose abort clause keeps the trace, the NACK and the policy. -/
theorem runDriver_settles {i : Instr} {body : State → Flow Unit} {clause : State → State} {res : State → Result}
    {t : State} (hb : (body (begun i s)).Counts n k (begun i s)) (hm : ∀ u, Marks (body u) u)
    (hc : ∀ u, (clause u).opNack = u.opNack ∧ (clause u).cfg = u.cfg) (e : runDriver i body clause res s = .next t)
    (ht : Live t) (hp : t.cfg.ackPolicy = .ignore ∨ t.opNack = false) :
    t.trace.count .settle = s.trace.count .settle + k := by
  have hn := hm (begun i s)
  obtain ⟨-, ⟨u, h, rfl⟩ | h | ⟨u, h, rfl⟩⟩ := runDriver_next e <;> rw [h] at hb hn
  · have := hb.2
    simpa [endOp, emit, begun, beginOp] using this
  · exact absurd ht hn.notLive
  · obtain ⟨h1, h2⟩ := hb
    simp [endOp, emit, (hc u).1, (hc u).2, h1, h2] at hp

end Sys2Proof.Machine
end

