-- ==== Sys2Proof/Laws/ExecFrames.lean ====
section
/-! SUPPORT. What a request never writes, from any state and however it ends: the frames of 10_state R21, R26, R28, R29, R30
and R31 for each operation. -/

namespace Sys2Proof.Machine

variable {α : Type}

theorem DrawKept.refl (s : State) : DrawKept s s := (SendKept.refl s).toDrawKept

theorem lineKept_endOp (r : Result) (s : State) : LineKept s (endOp r s) :=
  (lineKept_emit (.opEnd r) s).trans ⟨⟨⟨⟨⟨rfl, rfl, rfl, rfl, rfl, List.prefix_refl _, id, id⟩, rfl, rfl⟩, rfl⟩, rfl⟩, rfl, rfl, rfl, rfl⟩

theorem lineKept_mpc (n : Nat) (s : State) : LineKept s { s with mpc := n } :=
  ⟨⟨⟨⟨⟨rfl, rfl, rfl, rfl, rfl, List.prefix_refl _, id, id⟩, rfl, rfl⟩, rfl⟩, rfl⟩, rfl, rfl, rfl, rfl⟩

/-! ### Pieces of the driver -/

theorem DrawKept.seq {α β : Type} {s : State} {r : Flow α} {f : State → Flow β} (hr : r.All (DrawKept s))
    (hf : ∀ t, (f t).All (DrawKept t)) : (r.andThen f).All (DrawKept s) :=
  Flow.All.andThen (R := DrawKept) DrawKept.trans hr hf

theorem sendGlyphBytes_kept (src : Source) (off : Byte) (k : Nat) (js : List Nat) (s : State) :
    (sendGlyphBytes src off k js s).All (SendKept s) := by
  induction js generalizing s with
  | nil => exact SendKept.refl s
  | cons j rest ih =>
    unfold sendGlyphBytes
    split
    · exact (lineKept_raise _ s).toSendKept
    · exact SendKept.seq (wb_kept _ s) ih

theorem drawGlyph_kept (src : Source) (off : Byte) (k : Nat) (s : State) :
    (drawGlyph src off k s).All (DrawKept s) := by
  unfold drawGlyph
  split
  · rw [windows_script]
    refine DrawKept.seq (Flow.All.mono (P := SendKept s) (SendKept.seq (SendKept.seq (SendKept.seq (runSyms_kept _ s)
      fun t => ?_) (sendGlyphBytes_kept src off k _)) fun t => ?_) fun _ h => h.toDrawKept) fun t => ?_
    · rw [beginTransfer_script]; exact runSyms_kept _ t
    · exact (stopBody_kept t).mono fun _ h => h.toSendKept
    · exact ⟨⟨rfl, rfl, rfl, rfl, rfl, List.prefix_refl _, id, id⟩, rfl, rfl⟩
  · exact (lineKept_raise _ s).toDrawKept

theorem drawGlyphsFrom_kept (src : Source) (off : Byte) (m k : Nat) (s : State) :
    (drawGlyphsFrom src off m k s).All (DrawKept s) := by
  induction m generalizing k s with
  | zero => exact DrawKept.refl s
  | succ m ih => exact DrawKept.seq (drawGlyph_kept src off k s) (ih (k + 1))

/-- What `INIT` does not write (R94). -/
structure InitKept (s t : State) : Prop extends CoreKept s t where
  curCol : t.curCol = s.curCol
  curRow : t.curRow = s.curRow

theorem InitKept.trans {s t u : State} (h : InitKept s t) (k : InitKept t u) : InitKept s u :=
  ⟨h.toCoreKept.trans k.toCoreKept, k.curCol.trans h.curCol, k.curRow.trans h.curRow⟩

theorem SendKept.toInitKept {s t : State} (h : SendKept s t) : InitKept s t := ⟨h.toCoreKept, h.curCol, h.curRow⟩

theorem initKept_dstate (d : DState) (s : State) : InitKept s { s with dstate := d } :=
  ⟨⟨rfl, rfl, rfl, rfl, rfl, List.prefix_refl _, id, id⟩, rfl, rfl⟩

theorem initBody_kept (s : State) : (initBody s).All (InitKept s) := by
  unfold initBody
  split
  · exact (lineKept_raise _ s).toSendKept.toInitKept
  · refine Flow.All.andThen (R := InitKept) InitKept.trans (Flow.All.andThen (R := InitKept) InitKept.trans
      (initKept_dstate .configuring s) fun t => ?_) fun t => initKept_dstate .ready t
    rw [sendCommands_script]
    exact (runSyms_kept _ t).mono fun _ h => h.toInitKept

theorem whenReady_kept {s : State} {body : State → Flow Unit} (h : (body s).All (DrawKept s)) :
    (whenReady body s).All (DrawKept s) := by
  unfold whenReady
  split
  · exact (lineKept_raise _ s).toDrawKept
  · exact h

/-! ### Requests -/

theorem runBus_kept {i : Instr} {body : State → Flow α} {res : α → Result} {s t : State}
    (hb : ∀ u, (body u).All (BusKept u)) (e : runBus i body res s = .next t) : BusKept s t := by
  have hk := hb (beginOp i s)
  have h0 : BusKept s (beginOp i s) := (lineKept_emit _ s).toBusKept
  obtain ⟨-, ⟨a, u, k, rfl⟩ | k | k⟩ := runBus_next e <;> rw [k] at hk
  · exact (h0.trans hk).trans (lineKept_endOp _ u).toBusKept
  · exact h0.trans hk
  · exact h0.trans hk

theorem runBus_lineKept {i : Instr} {body : State → Flow α} {res : α → Result} {s t : State}
    (hb : ∀ u, (body u).All (LineKept u)) (e : runBus i body res s = .next t) : LineKept s t := by
  have hk := hb (beginOp i s)
  have h0 : LineKept s (beginOp i s) := lineKept_emit _ s
  obtain ⟨-, ⟨a, u, k, rfl⟩ | k | k⟩ := runBus_next e <;> rw [k] at hk
  · exact (h0.trans hk).trans (lineKept_endOp _ u)
  · exact h0.trans hk
  · exact h0.trans hk

theorem sendKept_begun (i : Instr) (s : State) : SendKept s (begun i s) :=
  (lineKept_emit (.opBegin (requestOf i s)) s).toSendKept.trans
    ⟨⟨⟨rfl, rfl, rfl, rfl, rfl, List.prefix_refl _, id, id⟩, rfl, rfl⟩, rfl⟩

/-- A driver operation keeps what its body and its abort clause keep. -/
theorem runDriver_kept {R : State → State → Prop} (ht : ∀ {s t u}, R s t → R t u → R s u)
    (hs : ∀ {s t}, SendKept s t → R s t) {i : Instr} {body : State → Flow Unit} {clause : State → State}
    {res : State → Result} {s t : State} (hb : ∀ u, (body u).All (R u)) (hc : ∀ u, R u (clause u))
    (e : runDriver i body clause res s = .next t) : R s t := by
  have hk := hb (begun i s)
  have h0 : R s (begun i s) := hs (sendKept_begun i s)
  obtain ⟨-, ⟨u, k, rfl⟩ | k | ⟨u, k, rfl⟩⟩ := runDriver_next e <;> rw [k] at hk
  · exact ht (ht h0 hk) (hs (lineKept_endOp _ u).toSendKept)
  · exact ht h0 hk
  · exact ht (ht (ht h0 hk) (hc u)) (hs (lineKept_endOp _ _).toSendKept)

theorem runWireByte_kept {body : State → Flow Unit} {s t : State} (hb : ∀ u, (body u).All (SendKept u))
    (e : runWireByte body s = .next t) : SendKept s t := by
  have hk := hb s
  obtain ⟨-, ⟨u, k, rfl⟩ | k | ⟨u, k, rfl⟩⟩ := runWireByte_next e <;> rw [k] at hk
  · exact SendKept.trans hk (lineKept_mpc 0 u).toSendKept
  · exact hk
  · exact SendKept.trans hk (lineKept_mpc 0 u).toSendKept

theorem execSendCommand_kept {c : Byte} {s t : State} (e : execSendCommand c s = .next t) : SendKept s t := by
  refine runDriver_kept (R := SendKept) SendKept.trans id (fun u => ?_) SendKept.refl e
  unfold sendCommandBody whenReady
  split
  · exact (lineKept_raise _ u).toSendKept
  · rw [sendCommandTransfer_script]; exact runSyms_kept _ u

theorem execClear_kept {s t : State} (e : execClear s = .next t) : SendKept s t := by
  refine runDriver_kept (R := SendKept) SendKept.trans id (fun u => ?_) SendKept.refl e
  unfold clearBody whenReady
  split
  · exact (lineKept_raise _ u).toSendKept
  · simp only; rw [clear_script]; exact runSyms_kept _ u

theorem execDrawGlyphs_kept {src : Source} {off n : Byte} {s t : State} (e : execDrawGlyphs src off n s = .next t) :
    DrawKept s t :=
  runDriver_kept (R := DrawKept) DrawKept.trans SendKept.toDrawKept
    (fun u => whenReady_kept (drawGlyphsFrom_kept src off _ _ u)) DrawKept.refl e

theorem execInit_kept {s t : State} (e : execInit s = .next t) : InitKept s t :=
  runDriver_kept (R := InitKept) InitKept.trans SendKept.toInitKept initBody_kept
    (fun u => initKept_dstate .uninitialized u) e

theorem coreKept_cursor (col row : Byte) (s : State) : CoreKept s { s with curCol := some col, curRow := some row } :=
  ⟨rfl, rfl, rfl, rfl, rfl, List.prefix_refl _, id, id⟩

theorem execSetPosition_kept {col row : Byte} {s t : State} (e : execSetPosition col row s = .next t) :
    CoreKept s t := by
  refine runDriver_kept (R := CoreKept) CoreKept.trans (fun h => h.toCoreKept) (fun u => ?_)
    (fun u => (SendKept.refl u).toCoreKept) e
  unfold setPositionBody whenReady
  split
  · exact (lineKept_raise _ u).toCoreKept
  · exact coreKept_cursor col row u

/-- What no operation writes, whichever it is. -/
theorem exec_coreKept {i : Instr} {s t : State} (e : exec i s = .next t) : CoreKept s t := by
  cases i with
  | busInit => exact (runBus_lineKept busInitBody_kept e).toCoreKept
  | start => exact (runBus_lineKept startBody_kept e).toCoreKept
  | writeBit b => exact (runBus_lineKept (writeBitBody_kept b) e).toCoreKept
  | readAck => exact (runBus_kept readAckBody_kept e).toCoreKept
  | writeByte v => exact (runBus_kept (writeByteBody_kept v) e).toCoreKept
  | stop => exact (runBus_lineKept stopBody_kept e).toCoreKept
  | sendCommand c => exact (execSendCommand_kept e).toCoreKept
  | init => exact (execInit_kept e).toCoreKept
  | setPosition col row => exact execSetPosition_kept e
  | drawGlyphs src off n => exact (execDrawGlyphs_kept e).toCoreKept
  | clear => exact (execClear_kept e).toCoreKept
  | addressByte a => exact (runWireByte_kept (wb_kept _) e).toCoreKept
  | ctrlCmd => exact (runWireByte_kept (wb_kept _) e).toCoreKept
  | ctrlData => exact (runWireByte_kept (wb_kept _) e).toCoreKept

end Sys2Proof.Machine
end

