-- ==== Sys2Proof/Laws/Slave.lean ====
section
/-! SUPPORT. The slave along whole transfers: the unconstrained slave answers everything, and the reference slave at the
block's address takes the transfers the driver sends (45_controller_reference R110 to R115, R118, R119). -/

namespace Sys2Proof.Machine

/-! ### The unconstrained slave -/

theorem answerSide_free {par : Params} (hp : par.slave = .free) (byte : Option Byte) (p : Side) :
    answerSide par byte p = .ok (drawAnswer p) := by
  simp [answerSide, controllerTakes, controllerDrive, hp]

/-- An unconstrained slave never refuses, and keeps no state (U2). -/
theorem slaveRun_free_ctl {par : Params} (hp : par.slave = .free) (syms : List Sym) (p : Side) :
    ∃ ds q, slaveRun par syms p = .ok (ds, q) ∧ q.ctl = p.ctl := by
  induction syms generalizing p with
  | nil => exact ⟨[], p, rfl, rfl⟩
  | cons x rest ih =>
    cases x with
    | start =>
      obtain ⟨ds, q, h, hc⟩ := ih { p with ctl := controllerHears par.slave (some .start) p.ctl }
      exact ⟨ds, q, h, hc.trans (by simp [hp, controllerHears])⟩
    | stop =>
      obtain ⟨ds, q, h, hc⟩ := ih { p with ctl := controllerHears par.slave (some .stop) p.ctl }
      exact ⟨ds, q, h, hc.trans (by simp [hp, controllerHears])⟩
    | byte v =>
      obtain ⟨ds, q, h, hc⟩ := ih (drawAnswer p).2
      exact ⟨(drawAnswer p).1 :: ds, q, by simp [slaveRun, answerSide_free hp, h], hc.trans (drawAnswer_ctl p)⟩

/-! ### The reference slave -/

/-- A command byte does not read the receive phase. -/
theorem commandByte_phase (v : Byte) (ph : Phase) (c : Controller) :
    commandByte v { c with phase := ph } = (commandByte v c).map (fun d => { d with phase := ph }) := by
  have hx : ∀ (op : Byte) (args : List Byte) (c : Controller),
      executeCommand op args { c with phase := ph } =
        (executeCommand op args c).map (fun d => { d with phase := ph }) := by
    intro op args c
    unfold executeCommand setColumns setPages
    split
    · split <;> rfl
    · split
      · split <;> rfl
      · split
        · cases addrModeOf (args.getD 0 0#8) <;> rfl
        · split
          · rfl
          · split <;> rfl
  obtain ⟨phase, pending, addrMode, colStart, colEnd, pageStart, pageEnd, col, page, gddram, displayOn, settings⟩ := c
  cases pending with
  | none =>
    simp only [commandByte]
    cases argCount v with
    | none => rfl
    | some n =>
      cases n with
      | zero => exact hx v [] ⟨phase, none, addrMode, colStart, colEnd, pageStart, pageEnd, col, page, gddram, displayOn, settings⟩
      | succ n => rfl
  | some p =>
    simp only [commandByte]
    split
    · rfl
    · exact hx p.opcode (p.args ++ [v])
        ⟨phase, none, addrMode, colStart, colEnd, pageStart, pageEnd, col, page, gddram, displayOn, settings⟩

/-- A list of command bytes parsed in order. -/
def parseCommands : List Byte → Controller → Except ControllerReason Controller
  | [], c => .ok c
  | v :: rest, c =>
    match commandByte v c with
    | .ok d => parseCommands rest d
    | .error r => .error r

/-- A list of data bytes taken in order. -/
def takeData : List Byte → Controller → Except ControllerReason Controller
  | [], c => .ok c
  | v :: rest, c =>
    match dataByte v c with
    | .ok d => takeData rest d
    | .error r => .error r

theorem slaveRun_command {par : Params} {c : Byte} {p : Side} {d : Controller} (hp : par.slave = .reference)
    (h : commandByte c p.ctl = .ok d) :
    slaveRun par (commandOf (addressByteOf par.slaveAddr7) c) p =
      .ok ([.low, .low, .low], { p with ctl := { d with phase := .waitStart } }) := by
  have h' : commandByte c { p.ctl with phase := .cmdStream } = .ok { d with phase := .cmdStream } := by
    rw [commandByte_phase, h]; rfl
  simp [commandOf, transferOf, slaveRun, controllerHears, hp, controllerStart, answerSide, controllerTakes,
    controllerDrive, controllerByte, ackDrive, h', controllerStop, Config.ctrlCmd]

theorem slaveRun_command_refused {par : Params} {c : Byte} {p : Side} {r : ControllerReason}
    (hp : par.slave = .reference) (h : commandByte c p.ctl = .error r) :
    slaveRun par [.start, .byte (addressByteOf par.slaveAddr7), .byte Config.ctrlCmd] p =
        .ok ([.low, .low], { p with ctl := { p.ctl with phase := .cmdStream } }) ∧
      answerSide par (some c) { p with ctl := { p.ctl with phase := .cmdStream } } = .error r := by
  have h' : commandByte c { p.ctl with phase := .cmdStream } = .error r := by
    rw [commandByte_phase, h]; rfl
  constructor
  · simp [slaveRun, controllerHears, hp, controllerStart, answerSide, controllerTakes, controllerDrive, controllerByte,
      ackDrive, Config.ctrlCmd]
  · simp [answerSide, controllerTakes, hp, controllerByte, h']

theorem parseCommands_phase (cs : List Byte) (ph : Phase) (c : Controller) :
    parseCommands cs { c with phase := ph } = (parseCommands cs c).map (fun d => { d with phase := ph }) := by
  induction cs generalizing c with
  | nil => rfl
  | cons v rest ih =>
    simp only [parseCommands, commandByte_phase]
    cases commandByte v c with
    | error r => rfl
    | ok d => exact ih d

theorem commandsOf_cons (ab c : Byte) (cs : List Byte) : commandsOf ab (c :: cs) = commandOf ab c ++ commandsOf ab cs :=
  rfl

theorem commandsOf_append (ab : Byte) (a b : List Byte) : commandsOf ab (a ++ b) = commandsOf ab a ++ commandsOf ab b := by
  simp [commandsOf]

theorem slaveRun_commands {par : Params} {cs : List Byte} {p : Side} {d : Controller} (hp : par.slave = .reference)
    (hw : p.ctl.phase = .waitStart) (h : parseCommands cs p.ctl = .ok d) :
    slaveRun par (commandsOf (addressByteOf par.slaveAddr7) cs) p =
      .ok (List.replicate (3 * cs.length) .low, { p with ctl := { d with phase := .waitStart } }) := by
  induction cs generalizing p d with
  | nil =>
    simp only [parseCommands, Except.ok.injEq] at h
    subst h
    obtain ⟨ctl, sin, dr⟩ := p
    obtain ⟨ph, _⟩ := ctl
    simp only at hw
    subst hw
    rfl
  | cons c rest ih =>
    simp only [parseCommands] at h
    cases hc : commandByte c p.ctl with
    | error r => simp [hc] at h
    | ok e =>
      simp only [hc] at h
      have h2 := ih (p := { p with ctl := { e with phase := .waitStart } }) rfl (d := { d with phase := .waitStart })
        (by rw [parseCommands_phase, h]; rfl)
      rw [commandsOf_cons, slaveRun_append (slaveRun_command hp hc) h2]
      rfl

theorem slaveRun_dataBytes {par : Params} {vs : List Byte} {p : Side} {d : Controller} (hp : par.slave = .reference)
    (hw : p.ctl.phase = .dataStream) (h : takeData vs p.ctl = .ok d) :
    slaveRun par (vs.map .byte ++ [.stop]) p =
      .ok (List.replicate vs.length .low, { p with ctl := { d with phase := .waitStart } }) := by
  induction vs generalizing p with
  | nil =>
    simp only [takeData, Except.ok.injEq] at h
    subst h
    simp [slaveRun, controllerHears, hp, controllerStop]
  | cons v rest ih =>
    simp only [takeData] at h
    cases hc : dataByte v p.ctl with
    | error r => simp [hc] at h
    | ok e =>
      simp only [hc] at h
      have he : e.phase = .dataStream := by
        unfold dataByte at hc
        split at hc
        · cases hc
        · split at hc
          · simp only [Except.ok.injEq] at hc
            rw [← hc]
            unfold advancePointer
            split <;> exact hw
          · cases hc
      have h2 := ih (p := { p with ctl := e }) he h
      have h1 : answerSide par (some v) p = .ok (.low, { p with ctl := e }) := by
        simp [answerSide, controllerTakes, controllerDrive, hp, controllerByte, hw, hc, ackDrive]
      simp only [List.map_cons, List.cons_append, slaveRun, h1, h2]
      rfl

theorem dataByte_phase (v : Byte) (ph : Phase) (c : Controller) :
    dataByte v { c with phase := ph } = (dataByte v c).map (fun d => { d with phase := ph }) := by
  by_cases h1 : c.addrMode = .horizontal <;> by_cases h2 : gddramHas c.page c.col = true <;>
    by_cases h3 : c.col = c.colEnd <;>
    first
      | (rw [h3] at h2; simp [dataByte, advancePointer, Except.map, h1, h2, h3])
      | simp [dataByte, advancePointer, Except.map, h1, h2, h3]

theorem takeData_phase (vs : List Byte) (ph : Phase) (c : Controller) :
    takeData vs { c with phase := ph } = (takeData vs c).map (fun d => { d with phase := ph }) := by
  induction vs generalizing c with
  | nil => rfl
  | cons v rest ih =>
    simp only [takeData, dataByte_phase]
    cases dataByte v c with
    | error r => rfl
    | ok d => exact ih d

theorem slaveRun_data {par : Params} {vs : List Byte} {p : Side} {d : Controller} (hp : par.slave = .reference)
    (h : takeData vs p.ctl = .ok d) :
    slaveRun par (dataOf (addressByteOf par.slaveAddr7) vs) p =
      .ok (List.replicate (vs.length + 2) .low, { p with ctl := { d with phase := .waitStart } }) := by
  have h1 : slaveRun par [.start, .byte (addressByteOf par.slaveAddr7), .byte Config.ctrlData] p =
      .ok ([.low, .low], { p with ctl := { p.ctl with phase := .dataStream } }) := by
    simp [slaveRun, controllerHears, hp, controllerStart, answerSide, controllerTakes, controllerDrive, controllerByte,
      ackDrive, Config.ctrlData, Config.ctrlCmd]
  have h2 := slaveRun_dataBytes (vs := vs) (p := { p with ctl := { p.ctl with phase := .dataStream } })
    (d := { d with phase := .dataStream }) hp rfl (by rw [takeData_phase, h]; rfl)
  have e : dataOf (addressByteOf par.slaveAddr7) vs =
      [.start, .byte (addressByteOf par.slaveAddr7), .byte Config.ctrlData] ++ (vs.map .byte ++ [.stop]) := by
    simp [dataOf, transferOf]
  rw [e, slaveRun_append h1 h2]
  rfl

/-- The two windows of a drawing set, from no partial command (R112, R114). -/
theorem parse_windows {c : Controller} {c0 c1 p0 p1 : Byte} (hp : c.pending = none)
    (hc : c0.toNat ≤ c1.toNat ∧ c1.toNat < 128) (hg : p0.toNat ≤ p1.toNat ∧ p1.toNat < 8) :
    parseCommands [0x21#8, c0, c1, 0x22#8, p0, p1] c = .ok { c with
      colStart := c0.toNat, colEnd := c1.toNat, col := c0.toNat
      pageStart := p0.toNat, pageEnd := p1.toNat, page := p0.toNat } := by
  have hc' : c0.toNat < 128 ∧ c1.toNat < 128 ∧ c0.toNat ≤ c1.toNat := ⟨by omega, hc.2, hc.1⟩
  have hg' : p0.toNat < 8 ∧ p1.toNat < 8 ∧ p0.toNat ≤ p1.toNat := ⟨by omega, hg.2, hg.1⟩
  obtain ⟨phase, pending, addrMode, colStart, colEnd, pageStart, pageEnd, col, page, gddram, displayOn, settings⟩ := c
  simp only at hp
  subst hp
  simp [parseCommands, commandByte, argCount, executeCommand, setColumns, setPages, Config.ramCols, Config.ramPages,
    hc', hg']

/-! ### Data bytes that fill a window -/

theorem takeData_append (a b : List Byte) {c d : Controller} (h : takeData a c = .ok d) :
    takeData (a ++ b) c = takeData b d := by
  induction a generalizing c with
  | nil =>
    simp only [takeData, Except.ok.injEq] at h
    rw [h]; rfl
  | cons v rest ih =>
    simp only [List.cons_append, takeData] at h ⊢
    cases hv : dataByte v c with
    | error r => simp [hv] at h
    | ok e => simp only [hv] at h ⊢; exact ih h

/-- Bytes written from column `c` of page `p` on. -/
def fillRow (m : List Host.Cell) (p c : Nat) : List Byte → List Host.Cell
  | [] => m
  | v :: vs => fillRow (memWrite m (gddramAddr p c) v) p (c + 1) vs

theorem memRead_fillRow (m : List Host.Cell) (p c : Nat) (vs : List Byte) (a : Nat) :
    memRead (fillRow m p c vs) a =
      if gddramAddr p c ≤ a ∧ a < gddramAddr p c + vs.length then vs[a - gddramAddr p c]? else memRead m a := by
  induction vs generalizing m c with
  | nil =>
    simp only [fillRow, List.length_nil, Nat.add_zero]
    rw [if_neg (by omega)]
  | cons v vs ih =>
    have hg : gddramAddr p (c + 1) = gddramAddr p c + 1 := by simp only [gddramAddr]; omega
    rw [fillRow, ih, hg, memRead_memWrite, List.length_cons]
    by_cases h1 : a = gddramAddr p c
    · rw [if_neg (by omega), if_pos h1, if_pos (by omega), h1, Nat.sub_self]
      rfl
    · rw [if_neg h1]
      by_cases h2 : gddramAddr p c + 1 ≤ a ∧ a < gddramAddr p c + 1 + vs.length
      · rw [if_pos h2, if_pos (by omega), show a - gddramAddr p c = (a - (gddramAddr p c + 1)) + 1 by omega]
        rfl
      · rw [if_neg h2, if_neg (by omega)]

theorem dataByte_ok {c : Controller} {v : Byte} (hm : c.addrMode = .horizontal)
    (hh : gddramHas c.page c.col = true) :
    dataByte v c = .ok (advancePointer { c with gddram := memWrite c.gddram (gddramAddr c.page c.col) v }) := by
  rw [dataByte, if_neg (by simp [hm]), if_pos hh]

/-- One row of the window filled from its pointer to its last column (R115). -/
theorem takeData_row {c : Controller} {v : Byte} {vs : List Byte} (hm : c.addrMode = .horizontal) (hp : c.page < 8)
    (hc : c.colEnd < 128) (hl : c.col + vs.length = c.colEnd) :
    takeData (v :: vs) c = .ok { c with
      gddram := fillRow c.gddram c.page c.col (v :: vs), col := c.colStart
      page := if c.page = c.pageEnd then c.pageStart else c.page + 1 } := by
  induction vs generalizing c v with
  | nil =>
    have hh : gddramHas c.page c.col = true := by
      rw [gddramHas_iff]; exact ⟨hp, by simp only [Config.ramCols]; simp at hl; omega⟩
    have hl' : c.col = c.colEnd := hl
    simp only [takeData, dataByte_ok hm hh, advancePointer, if_pos hl', fillRow]
  | cons w ws ih =>
    have hl' : c.col + (ws.length + 1) = c.colEnd := hl
    have hh : gddramHas c.page c.col = true := by
      rw [gddramHas_iff]; exact ⟨hp, by simp only [Config.ramCols]; omega⟩
    have hne : ¬ c.col = c.colEnd := by omega
    rw [takeData, dataByte_ok hm hh]
    simp only [advancePointer, if_neg hne]
    have := ih (c := { c with col := c.col + 1, gddram := memWrite c.gddram (gddramAddr c.page c.col) v }) (v := w)
      hm hp hc (by simp only; omega)
    rw [this]
    rfl

/-- The last `r` rows of a window of `P` pages that begins at (0, 0), filled with zeros (R115). -/
theorem takeData_zeros {c : Controller} {w P r : Nat} (hm : c.addrMode = .horizontal) (hw : 0 < w ∧ w ≤ 128)
    (hP : P ≤ 8) (hr : 0 < r ∧ r ≤ P) (hs : c.colStart = 0) (he : c.colEnd = w - 1) (hps : c.pageStart = 0)
    (hpe : c.pageEnd = P - 1) (hcol : c.col = 0) (hpage : c.page = P - r) :
    ∃ m, takeData (List.replicate (w * r) 0#8) c = .ok { c with gddram := m, col := 0, page := 0 } ∧
      ∀ p x, p < 8 → x < 128 → memRead m (gddramAddr p x) =
        if P - r ≤ p ∧ p < P ∧ x < w then some 0#8 else memRead c.gddram (gddramAddr p x) := by
  induction r generalizing c with
  | zero => omega
  | succ r ih =>
    have hrow : List.replicate w 0#8 = 0#8 :: List.replicate (w - 1) 0#8 := by
      rw [← List.replicate_succ]; congr 1; omega
    have h1 := takeData_row (c := c) (v := 0#8) (vs := List.replicate (w - 1) 0#8) hm (by omega) (by omega)
      (by rw [List.length_replicate, hcol, he]; omega)
    rw [← hrow] at h1
    have hread : ∀ p x, p < 8 → x < 128 →
        memRead (fillRow c.gddram c.page c.col (List.replicate w 0#8)) (gddramAddr p x) =
          if p = P - (r + 1) ∧ x < w then some 0#8 else memRead c.gddram (gddramAddr p x) := by
      intro p x hp hx
      rw [memRead_fillRow, hcol, hpage, List.length_replicate]
      by_cases h : p = P - (r + 1) ∧ x < w
      · rw [if_pos (by obtain ⟨rfl, h⟩ := h; simp only [gddramAddr, Config.ramCols]; omega), if_pos h,
          List.getElem?_replicate, if_pos (by obtain ⟨rfl, h⟩ := h; simp only [gddramAddr, Config.ramCols]; omega)]
      · rw [if_neg (by simp only [gddramAddr, Config.ramCols]; omega), if_neg h]
    by_cases hr0 : r = 0
    · subst hr0
      refine ⟨fillRow c.gddram c.page c.col (List.replicate w 0#8), ?_, ?_⟩
      · rw [Nat.zero_add, Nat.mul_one, h1, if_pos (by omega), hs, hps]
      · intro p x hp hx
        rw [hread p x hp hx]
        by_cases h : p = P - (0 + 1) ∧ x < w
        · rw [if_pos h, if_pos (by omega)]
        · rw [if_neg h, if_neg (by omega)]
    · have hlen : List.replicate (w * (r + 1)) 0#8 = List.replicate w 0#8 ++ List.replicate (w * r) 0#8 := by
        rw [← List.replicate_add]; congr 1; rw [Nat.mul_succ]; omega
      rw [if_neg (by omega)] at h1
      obtain ⟨m, h2, h3⟩ := ih (c := { c with
        gddram := fillRow c.gddram c.page c.col (List.replicate w 0#8), col := c.colStart, page := c.page + 1 })
        hm (by omega) hs he hps hpe hs (by simp only; omega)
      refine ⟨m, ?_, ?_⟩
      · rw [hlen, takeData_append _ _ h1, h2]
      · intro p x hp hx
        rw [h3 p x hp hx]
        simp only
        rw [hread p x hp hx]
        by_cases h : P - r ≤ p ∧ p < P ∧ x < w
        · rw [if_pos h, if_pos (by omega)]
        · rw [if_neg h]
          by_cases h' : p = P - (r + 1) ∧ x < w
          · rw [if_pos h', if_pos (by omega)]
          · rw [if_neg h', if_neg (by omega)]

end Sys2Proof.Machine
end

