-- ==== Sys2Proof/Laws/Glyphs.lean ====
section
/-! SUPPORT. A run of glyphs at the reference slave (45_controller_reference R118): what each glyph's transfers leave in its
state and its frame buffer, and that the windows of a run do not meet. -/

namespace Sys2Proof.Machine

/-! ### The windows of a run (R99, R102) -/

theorem windowEnd_fits (col : Byte) (h : (windowStart col).toNat + 4 < 128) :
    (windowEnd col).toNat = (windowStart col).toNat + 4 := by
  have : ∀ c : Byte, (windowStart c).toNat + 4 < 128 → (windowEnd c).toNat = (windowStart c).toNat + 4 := by decide
  exact this col h

theorem windowStart_next (col : Byte) (h : (windowStart col).toNat + 4 < 128) :
    (windowStart (col + 1#8)).toNat = (windowStart col).toNat + 6 := by
  have : ∀ c : Byte, (windowStart c).toNat + 4 < 128 → (windowStart (c + 1#8)).toNat = (windowStart c).toNat + 6 := by
    decide
  exact this col h

/-- Where the windows of a run fit, each begins six columns after the one before. -/
theorem windowStart_run {col : Byte} {m : Nat} (h : ∀ i < m, (windowStart (col + BitVec.ofNat 8 i)).toNat + 4 < 128) :
    ∀ i < m, (windowStart (col + BitVec.ofNat 8 i)).toNat = (windowStart col).toNat + 6 * i := by
  intro i hi
  induction i with
  | zero => simp
  | succ i ih =>
    have e : col + BitVec.ofNat 8 (i + 1) = col + BitVec.ofNat 8 i + 1#8 := by
      rw [BitVec.ofNat_add, ← BitVec.add_assoc]
    rw [e, windowStart_next _ (h i (by omega)), ih (by omega)]; omega

/-! ### One glyph -/

/-- A run of command transfers from any phase, no command of them refused. -/
theorem slaveRun_commands_from {par : Params} {p : Side} {c : Byte} {cs : List Byte} {d : Controller}
    (hp : par.slave = .reference) (h : parseCommands (c :: cs) p.ctl = .ok d) :
    slaveRun par (commandsOf (addressByteOf par.slaveAddr7) (c :: cs)) p =
      .ok (List.replicate (3 * (cs.length + 1)) .low, { p with ctl := { d with phase := .waitStart } }) := by
  have h2 := slaveRun_commands (par := par) (cs := c :: cs) (p := { p with ctl := { p.ctl with phase := .waitStart } })
    (d := { d with phase := .waitStart }) hp rfl (by rw [parseCommands_phase, h]; rfl)
  rw [List.length_cons] at h2
  rw [← h2]
  simp [commandsOf, commandOf, transferOf, slaveRun, controllerHears, hp, controllerStart]

/-- The reference slave once a glyph's windows are set, between transfers. -/
def windowed (cs page : Nat) (k : Controller) : Controller :=
  { k with
    colStart := cs, colEnd := cs + 4, col := cs, pageStart := page, pageEnd := page, page := page, phase := .waitStart }

/-- What a run of glyphs leaves of the reference slave: no partial command, horizontal addressing, and `read` of its frame
buffer. -/
structure Drew (d : Controller) (read : Nat → Nat → Option Byte) : Prop where
  pending  : d.pending = none
  addrMode : d.addrMode = .horizontal
  read     : ∀ q x, gddramRead d q x = read q x

/-- One glyph whose window fits: its five bytes in the window's row, the pointer back at their first. -/
theorem slaveRun_glyph {par : Params} {p : Side} {col row : Byte} {vs : List Byte} (hp : par.slave = .reference)
    (hw : par.cmdColwin = 0x21#8 ∧ par.cmdPagewin = 0x22#8) (hn : p.ctl.pending = none)
    (hm : p.ctl.addrMode = .horizontal) (hc : (windowStart col).toNat + 4 < 128) (hg : (windowPage row).toNat < 8)
    (hv : vs.length = 5) :
    ∃ d, slaveRun par (glyphOf par (addressByteOf par.slaveAddr7) col row vs) p =
        .ok (List.replicate 25 .low, { p with ctl := d }) ∧
      d.page = (windowPage row).toNat ∧ d.col = (windowStart col).toNat ∧
      Drew d fun q x =>
        if q = (windowPage row).toNat ∧ (windowStart col).toNat ≤ x ∧ x < (windowStart col).toNat + 5 then
          vs[x - (windowStart col).toNat]?
        else gddramRead p.ctl q x := by
  have he := windowEnd_fits col hc
  obtain ⟨v, ws, rfl⟩ : ∃ v ws, vs = v :: ws := by
    cases vs with
    | nil => simp at hv
    | cons v ws => exact ⟨v, ws, rfl⟩
  have h1 := slaveRun_commands_from (p := p) hp (parse_windows (c0 := windowStart col) (c1 := windowEnd col)
    (p0 := windowPage row) (p1 := windowPage row) hn (by omega) (by omega))
  rw [he] at h1
  have h2 : takeData (v :: ws) (windowed (windowStart col).toNat (windowPage row).toNat p.ctl) =
      .ok { windowed (windowStart col).toNat (windowPage row).toNat p.ctl with
        gddram := fillRow p.ctl.gddram (windowPage row).toNat (windowStart col).toNat (v :: ws) } := by
    have hl : (windowStart col).toNat + ws.length = (windowStart col).toNat + 4 := by simpa using hv
    refine (takeData_row (c := windowed (windowStart col).toNat (windowPage row).toNat p.ctl) hm hg hc hl).trans ?_
    simp [windowed]
  have h := slaveRun_append h1 (slaveRun_data (p := { p with ctl := windowed _ _ _ }) hp h2)
  refine ⟨{ windowed (windowStart col).toNat (windowPage row).toNat p.ctl with
    gddram := fillRow p.ctl.gddram (windowPage row).toNat (windowStart col).toNat (v :: ws) }, ?_, ?_, ?_, ?_⟩
  · rw [glyphOf, hw.1, hw.2, ← commandsOf_append]
    refine h.trans ?_
    rw [← List.replicate_add, hv]
    rfl
  · rfl
  · rfl
  · refine ⟨hn, hm, fun q x => ?_⟩
    by_cases hh : gddramHas q x = true
    · obtain ⟨h8, h128⟩ := gddramHas_iff.1 hh
      simp only [Config.ramPages, Config.ramCols] at h8 h128
      by_cases hx : q = (windowPage row).toNat ∧ (windowStart col).toNat ≤ x ∧ x < (windowStart col).toNat + 5
      · have hi : x - (windowStart col).toNat < (v :: ws).length := by omega
        rw [if_pos hx, List.getElem?_eq_getElem hi]
        refine gddramRead_written hh ?_
        rw [memRead_fillRow, if_pos (by simp only [gddramAddr, Config.ramCols]; omega), ← List.getElem?_eq_getElem hi]
        congr 1
        simp only [gddramAddr, hx.1]; omega
      · rw [if_neg hx]
        refine gddramRead_congr ?_
        rw [memRead_fillRow, if_neg (by simp only [gddramAddr, Config.ramCols]; omega)]
    · rw [gddramRead_outside hh, gddramRead_outside hh, if_neg]
      intro k; apply hh; rw [gddramHas_iff]
      simp only [Config.ramPages, Config.ramCols]; omega

/-! ### A run of glyphs -/

theorem glyphBytes_length {src : Source} {off : Byte} {k : Nat} {s : State}
    (h : ∀ j < 5, glyphIndex s.cfg.bufBase src off k j < (sourceBytes src s).length) :
    (glyphBytes src off k s).length = 5 := by
  have h0 := h 0 (by omega); have h1 := h 1 (by omega); have h2 := h 2 (by omega); have h3 := h 3 (by omega)
  have h4 := h 4 (by omega)
  simp [glyphBytes, h0, h1, h2, h3, h4]

/-- What a run of `m` glyphs from glyph `k` on leaves in the frame buffer (R118): each glyph's bytes in its own window, every
byte outside the windows as it was. -/
structure Drawn (c d : Controller) (page cs m : Nat) (bytes : Nat → List Byte) : Prop where
  pending  : d.pending = none
  addrMode : d.addrMode = .horizontal
  inside   : ∀ i < m, ∀ j < 5, gddramRead d page (cs + 6 * i + j) = (bytes i)[j]?
  outside  : ∀ q x, (q = page → ∀ i < m, ¬ (cs + 6 * i ≤ x ∧ x < cs + 6 * i + 5)) →
    gddramRead d q x = gddramRead c q x
  page     : m ≠ 0 → d.page = page
  col      : m ≠ 0 → d.col = cs + 6 * (m - 1)

theorem slaveRun_glyphs {s : State} {src : Source} {off row : Byte} {m k : Nat} {col : Byte} {p : Side} (hp : Paired s)
    (hw : DefaultWindows s) (hn : p.ctl.pending = none) (hm : p.ctl.addrMode = .horizontal)
    (hc : ∀ i < m, (windowStart (col + BitVec.ofNat 8 i)).toNat + 4 < 128) (hg : (windowPage row).toNat < 8)
    (hv : ∀ i < m, (glyphBytes src off (k + i) s).length = 5) :
    ∃ d, slaveRun s.par (glyphsOf src off s row m k col) p = .ok (List.replicate (25 * m) .low, { p with ctl := d }) ∧
      Drawn p.ctl d (windowPage row).toNat (windowStart col).toNat m fun i => glyphBytes src off (k + i) s := by
  induction m generalizing k col p with
  | zero =>
    exact ⟨p.ctl, rfl, hn, hm, fun i h => absurd h (by omega), fun q x _ => rfl, fun h => absurd rfl h,
      fun h => absurd rfl h⟩
  | succ m ih =>
    have hab : blockAddressByte s = addressByteOf s.par.slaveAddr7 := by rw [blockAddressByte, hp.2]
    have hcol : ∀ i, nextColumn col + BitVec.ofNat 8 i = col + BitVec.ofNat 8 (i + 1) := fun i => by
      rw [nextColumn_eq, BitVec.ofNat_add, BitVec.add_assoc, BitVec.add_comm 1#8]
    have hc0 := hc 0 (by omega)
    rw [show col + BitVec.ofNat 8 0 = col by simp] at hc0
    obtain ⟨d, h1, hpage, hcs, hd⟩ := slaveRun_glyph (p := p) (col := col) (row := row) hp.1 hw hn hm hc0 hg
      (vs := glyphBytes src off k s) (hv 0 (by omega))
    obtain ⟨e, h2, he⟩ := ih (k := k + 1) (col := nextColumn col) (p := { p with ctl := d }) hd.pending hd.addrMode
      (fun i hi => by rw [hcol]; exact hc (i + 1) (by omega))
      (fun i hi => by rw [Nat.add_assoc, Nat.add_comm 1]; exact hv (i + 1) (by omega))
    have hs : (windowStart (nextColumn col)).toNat = (windowStart col).toNat + 6 := by
      rw [nextColumn_eq]; exact windowStart_next col hc0
    have last : m = 0 → e = d := by
      rintro rfl
      have h : slaveRun s.par [] { p with ctl := d } = _ := h2
      simp only [slaveRun, Except.ok.injEq, Prod.mk.injEq] at h
      exact (congrArg Side.ctl h.2).symm
    have off1 : ∀ q x, (q = (windowPage row).toNat → ∀ i < m + 1, ¬ ((windowStart col).toNat + 6 * i ≤ x ∧
        x < (windowStart col).toNat + 6 * i + 5)) → gddramRead e q x = gddramRead p.ctl q x := by
      intro q x h
      rw [he.outside q x (fun hq i hi k => h hq (i + 1) (by omega) (by omega)), hd.read, if_neg]
      exact fun k => h k.1 0 (by omega) (by omega)
    refine ⟨e, ?_, he.pending, he.addrMode, fun i hi j hj => ?_, off1, fun _ => ?_, fun _ => ?_⟩
    · rw [glyphsOf, hab, slaveRun_append h1 h2, ← List.replicate_add]
      congr 3; omega
    · cases i with
      | zero =>
        rw [he.outside _ _ (fun _ i hi k => by omega), hd.read, if_pos (by omega)]
        congr 1; omega
      | succ i =>
        have := he.inside i (by omega) j hj
        rw [hs] at this
        rw [show (windowStart col).toNat + 6 * (i + 1) + j = (windowStart col).toNat + 6 + 6 * i + j by omega, this]
        rw [show k + 1 + i = k + (i + 1) by omega]
    · by_cases h0 : m = 0
      · rw [last h0, hpage]
      · exact he.page h0
    · by_cases h0 : m = 0
      · rw [last h0, hcs, h0]; rfl
      · rw [he.col h0, hs]; omega

end Sys2Proof.Machine
end

