-- ==== Sys2Proof/Laws/Invariant.lean ====
section
/-! SUPPORT. The bus keeps its invariant (41_bus R77) and its data line is stable while the clock is high (R78), whatever an
operation does and however it ends. -/

namespace Sys2Proof.Machine

/-- The two properties of the bus, kept together; the second one only where `D` asks for it. -/
def Held (D : Prop) (s : State) : Prop := BusOk s ∧ (D → dataStable s.trace = true)

variable {D : Prop}

theorem held_mark {s t : State} (h : Held D s) (h1 : t.drvScl = s.drvScl) (h2 : t.drvSda = s.drvSda)
    (h3 : t.slScl = s.slScl) (h4 : t.slSda = s.slSda) (h5 : t.clkPhase = s.clkPhase) (h6 : t.frame = s.frame)
    (h7 : t.trace = s.trace) : Held D t := by
  obtain ⟨drvScl, drvSda, slScl, slSda, clkPhase, frame, _, _, _, _, _, _, _, trace, _, _, _, _, _, _, _, _⟩ := t
  simp only at h1 h2 h3 h4 h5 h6 h7
  subst h1 h2 h3 h4 h5 h6 h7
  exact h

theorem held_raise {s : State} (r : FaultReason) (h : Held D s) : Held D (raise r s) := h
theorem held_refuse {s : State} (r : RefusalReason) (h : Held D s) : Held D (refuse r s) := h

/-- An event that is neither an edge nor read by a receiver. -/
theorem held_emit {s : State} {e : Event} (h : Held D s) (he : ∀ r, hear r e = r) (hf : ∀ r, edgeFramed r e = true) :
    Held D (emit e s) := by
  have hr : receiver (s.trace ++ [e]) = receiver s.trace := by simp [he]
  obtain ⟨⟨⟨h1, h2, h3, h4⟩, h5, h6, h7⟩, hd⟩ := h
  refine ⟨⟨⟨h1, h2, ?_, ?_⟩, h5, ?_, ?_⟩, ?_⟩
  · simp only [emit_trace, hr]; exact h3
  · simp only [emit_trace, hr]; exact h4
  · intro hfr
    obtain ⟨a, b, c⟩ := h6 hfr
    exact ⟨a, b, by simp only [emit_trace, hr]; exact c⟩
  · intro hfr
    obtain ⟨a, b, c⟩ := h7 hfr
    exact ⟨a, by simp only [emit_trace, hr]; exact b, by simp only [emit_trace, hr]; exact c⟩
  · intro k; simp only [emit_trace, dataStable_append, hd k, dataStableFrom, hf, Bool.and_self]

theorem held_opBegin {s : State} (i : Instr) (h : Held D s) : Held D (beginOp i s) :=
  held_emit h (fun _ => rfl) (fun _ => rfl)

theorem held_endOp {s : State} (r : Result) (h : Held D s) : Held D (endOp r s) :=
  held_mark (held_emit (e := .opEnd r) h (fun _ => rfl) (fun _ => rfl)) rfl rfl rfl rfl rfl rfl rfl

/-- The data line set in the low phase. -/
theorem held_dataSet {s : State} (b : Bool) (n : Nat) (h : Held D s) (ho : s.frame = .opened) :
    Held D { s with
      drvSda := dataDrive s.cfg b, mpc := n
      trace := s.trace ++ changeEvents .sda (level s .sda) b ++ [.settle] } := by
  have hr := receiver_setData b h.1 ho
  have ld : level { s with
      drvSda := dataDrive s.cfg b, mpc := n
      trace := s.trace ++ changeEvents .sda (level s .sda) b ++ [.settle] } .sda = b :=
    level_sda_eq h.1.slSda (dataDrive_not_low s.cfg b)
  refine ⟨⟨⟨h.1.slScl, h.1.1.2.1, ?_, ?_⟩, h.1.slSda, fun e => absurd ho e, fun _ => ⟨h.1.low ho, ?_, ?_⟩⟩, ?_⟩
  · simp only [hr]; exact h.1.clk
  · rw [ld]; simp only [hr]
  · simp only [hr]; exact h.1.active ho
  · simp only [hr]; exact h.1.bits ho
  · intro k; simp only [dataStable_append, h.2 k, dataStableFrom_changeEvents _ _ _ (h.1.rcvLow ho), dataStableFrom, edgeFramed,
      Bool.and_self]

theorem Held.seq {α β : Type} {r : Flow α} {f : State → Flow β} (hr : r.All (Held D))
    (hf : ∀ t, Held D t → (f t).All (Held D)) : (r.andThen f).All (Held D) :=
  Flow.Ends.andThen (P := fun _ => Held D) hr fun _ t ht => hf t ht

/-! ### Bus operations -/

theorem writeBitBody_held {s : State} (b : Bool) (h : Held D s) :
    (writeBitBody b s).Ends (fun _ t => Held D t ∧ t.frame = .opened) (Held D) (Held D) := by
  by_cases ho : s.frame = .opened
  · cases hc : clockTakes s with
    | error r => rw [writeBitBody_refused b r h.1 ho hc]; exact held_dataSet b (s.mpc + 2) h ho
    | ok c =>
      rw [writeBitBody_ok b c h.1 ho hc]
      refine ⟨⟨busOk_afterBit b c h.1 ho, ?_⟩, ho⟩
      intro k; simp only [afterBit, dataStable_append, h.2 k, dataStableFrom_bitEvents _ _ _ (h.1.rcvLow ho), Bool.and_self]
  · rw [writeBitBody_framing b ho]; exact h

theorem busInitBody_held {s : State} (h : Held D s) : (busInitBody s).All (Held D) := by
  by_cases ho : s.frame = .opened
  · rw [busInitBody_framing ho]; exact h
  · rw [busInitBody_ok h.1 ho]
    refine ⟨busOk_afterBusInit h.1 ho, ?_⟩
    intro k; simp [afterBusInit, dataStable_append, h.2 k, dataStableFrom, edgeFramed]

theorem startBody_held {s : State} (h : Held D s) : (startBody s).All (Held D) := by
  by_cases ho : s.frame = .idle
  · rw [startBody_ok h.1 ho]
    obtain ⟨hc, -, ha⟩ := h.1.2.2.1 (by simp [ho])
    refine ⟨(atByte_afterStart h.1 ho).1, ?_⟩
    intro k; simp [afterStart, dataStable_append, h.2 k, startEvents, dataStableFrom, edgeFramed, h.1.clk, hc, ha]
  · rw [startBody_framing ho]; exact h

theorem dataStableFrom_stopEvents (r : Receiver) (hs : r.scl = false) (ha : r.active = true) :
    dataStableFrom r (stopEvents r.sda) = true := by
  rw [stopEvents, dataStableFrom_append, dataStableFrom_changeEvents _ _ _ hs, hearAll_changeEvents r _ hs]
  simp [dataStableFrom, edgeFramed, hear, ha]

theorem stopBody_held {s : State} (h : Held D s) : (stopBody s).All (Held D) := by
  by_cases ho : s.frame = .opened
  · cases hc : clockTakes s with
    | error r => rw [stopBody_refused r h.1 ho hc]; exact held_dataSet false (s.mpc + 2) h ho
    | ok c =>
      rw [stopBody_ok c h.1 ho hc]
      refine ⟨(atIdle_afterStop c h.1 ho).1, ?_⟩
      intro k; simp only [afterStop, dataStable_append, h.2 k, ← h.1.data, dataStableFrom_stopEvents _ (h.1.rcvLow ho) (h.1.active ho),
        Bool.and_self]
  · rw [stopBody_framing ho]; exact h

theorem readAckBody_held {s : State} (h : Held D s) : (readAckBody s).All (Held D) := by
  by_cases ho : s.frame = .opened
  · cases ha : slaveAnswer s with
    | error r => rw [readAckBody_refused ho ha]; exact h
    | ok du =>
      obtain ⟨d, u⟩ := du
      rw [readAckBody_ok h.1 ho ha]
      refine ⟨busOk_afterAck h.1 ho ha, ?_⟩
      obtain ⟨p, -, rfl⟩ := answerSide_of ha
      have ht : (withSide p s).trace = s.trace := rfl
      intro k; simp only [afterAck, ht, dataStable_append, h.2 k, dataStableFrom_ackEvents _ _ _ (h.1.rcvLow ho), Bool.and_self]
  · rw [readAckBody_framing ho]; exact h

theorem writeBits_held {s : State} (bs : List Bool) (h : Held D s) : (writeBits bs s).All (Held D) := by
  induction bs generalizing s with
  | nil => exact h
  | cons b rest ih => exact Flow.Ends.andThen (writeBitBody_held b h) fun _ t ht => ih ht.1

theorem writeByteBody_held {s : State} (v : Byte) (h : Held D s) : (writeByteBody v s).All (Held D) := by
  unfold writeByteBody
  split
  · exact h
  · exact Held.seq (writeBits_held _ h) fun t ht => readAckBody_held ht

/-! ### The driver -/

theorem wb_held {s : State} (v : Byte) (h : Held D s) : (wb v s).All (Held D) := by
  refine Flow.Ends.bind (P := fun _ => Held D) (writeByteBody_held v h) fun a t ht => ?_
  split
  · exact ht
  · unfold applyNackPolicy
    split
    · exact held_mark ht rfl rfl rfl rfl rfl rfl rfl
    · exact Held.seq (stopBody_held (s := noteNack t) (held_mark ht rfl rfl rfl rfl rfl rfl rfl)) fun u hu => hu

theorem runSyms_held {s : State} (syms : List Sym) (h : Held D s) : (runSyms syms s).All (Held D) := by
  induction syms generalizing s with
  | nil => exact h
  | cons x rest ih =>
    cases x with
    | start => exact Held.seq (startBody_held h) fun t ht => ih ht
    | byte v => exact Held.seq (wb_held v h) fun t ht => ih ht
    | stop => exact Held.seq (stopBody_held h) fun t ht => ih ht

theorem sendGlyphBytes_held {s : State} (src : Source) (off : Byte) (k : Nat) (js : List Nat) (h : Held D s) :
    (sendGlyphBytes src off k js s).All (Held D) := by
  induction js generalizing s with
  | nil => exact h
  | cons j rest ih =>
    unfold sendGlyphBytes
    split
    · exact h
    · exact Held.seq (wb_held _ h) fun t ht => ih ht

theorem drawGlyph_held {s : State} (src : Source) (off : Byte) (k : Nat) (h : Held D s) :
    (drawGlyph src off k s).All (Held D) := by
  unfold drawGlyph
  split
  · rw [windows_script]
    refine Flow.Ends.andThen (P := fun _ => Held D) (Flow.Ends.andThen (P := fun _ => Held D) (Flow.Ends.andThen
      (P := fun _ => Held D) (Flow.Ends.andThen (P := fun _ => Held D) (runSyms_held _ h) fun _ t ht => ?_)
      fun _ t ht => sendGlyphBytes_held src off k _ ht) fun _ t ht => stopBody_held ht)
      fun _ t ht => held_mark ht rfl rfl rfl rfl rfl rfl rfl
    rw [beginTransfer_script]; exact runSyms_held _ ht
  · exact h

theorem drawGlyphsFrom_held {s : State} (src : Source) (off : Byte) (m k : Nat) (h : Held D s) :
    (drawGlyphsFrom src off m k s).All (Held D) := by
  induction m generalizing k s with
  | zero => exact h
  | succ m ih => exact Held.seq (drawGlyph_held src off k h) fun t ht => ih _ ht

theorem whenReady_held {s : State} {body : State → Flow Unit} (h : Held D s) (hb : (body s).All (Held D)) :
    (whenReady body s).All (Held D) := by
  unfold whenReady
  split
  · exact h
  · exact hb

theorem initBody_held {s : State} (h : Held D s) : (initBody s).All (Held D) := by
  unfold initBody
  split
  · exact h
  · refine Flow.Ends.andThen (P := fun _ => Held D) (Flow.Ends.andThen (P := fun _ => Held D)
      (held_mark h rfl rfl rfl rfl rfl rfl rfl : Held D { s with dstate := .configuring }) fun _ t ht => ?_)
      fun _ t ht => held_mark ht rfl rfl rfl rfl rfl rfl rfl
    rw [sendCommands_script]; exact runSyms_held _ ht

/-! ### Requests -/

theorem runBus_held {α : Type} {i : Instr} {body : State → Flow α} {res : α → Result} {s t : State}
    (hb : ∀ u, Held D u → (body u).All (Held D)) (h : Held D s) (e : runBus i body res s = .next t) : Held D t := by
  have hk := hb _ (held_opBegin i h)
  obtain ⟨-, ⟨a, u, k, rfl⟩ | k | k⟩ := runBus_next e <;> rw [k] at hk
  · exact held_endOp _ hk
  · exact hk
  · exact hk

theorem runDriver_held {i : Instr} {body : State → Flow Unit} {clause : State → State} {res : State → Result}
    {s t : State} (hb : ∀ u, Held D u → (body u).All (Held D)) (hc : ∀ u, Held D u → Held D (clause u)) (h : Held D s)
    (e : runDriver i body clause res s = .next t) : Held D t := by
  have hk := hb (begun i s) (held_mark (held_opBegin i h) rfl rfl rfl rfl rfl rfl rfl)
  obtain ⟨-, ⟨u, k, rfl⟩ | k | ⟨u, k, rfl⟩⟩ := runDriver_next e <;> rw [k] at hk
  · exact held_endOp _ hk
  · exact hk
  · exact held_endOp _ (hc _ hk)

theorem runWireByte_held {body : State → Flow Unit} {s t : State} (hb : ∀ u, Held D u → (body u).All (Held D)) (h : Held D s)
    (e : runWireByte body s = .next t) : Held D t := by
  have hk := hb _ h
  obtain ⟨-, ⟨u, k, rfl⟩ | k | ⟨u, k, rfl⟩⟩ := runWireByte_next e <;> rw [k] at hk
  · exact held_mark hk rfl rfl rfl rfl rfl rfl rfl
  · exact hk
  · exact held_mark hk rfl rfl rfl rfl rfl rfl rfl

theorem exec_held {i : Instr} {s t : State} (h : Held D s) (e : exec i s = .next t) : Held D t := by
  cases i with
  | busInit => exact runBus_held (fun _ => busInitBody_held) h e
  | start => exact runBus_held (fun _ => startBody_held) h e
  | writeBit b =>
    exact runBus_held (fun _ hu => (writeBitBody_held b hu).mono (fun _ _ k => k.1) (fun _ k => k) (fun _ k => k)) h e
  | readAck => exact runBus_held (fun _ => readAckBody_held) h e
  | writeByte v => exact runBus_held (fun _ => writeByteBody_held v) h e
  | stop => exact runBus_held (fun _ => stopBody_held) h e
  | sendCommand c =>
    refine runDriver_held (fun u hu => whenReady_held hu ?_) (fun _ hu => hu) h e
    rw [sendCommandTransfer_script]; exact runSyms_held _ hu
  | init => exact runDriver_held (clause := initAbortClause) (fun _ => initBody_held) (fun _ hu => held_mark hu rfl rfl rfl rfl rfl rfl rfl) h e
  | setPosition col row =>
    refine runDriver_held (fun u hu => whenReady_held hu ?_) (fun _ hu => hu) h e
    exact (held_mark hu rfl rfl rfl rfl rfl rfl rfl : Held D { u with curCol := some col, curRow := some row })
  | drawGlyphs src off n =>
    exact runDriver_held (fun u hu => whenReady_held hu (drawGlyphsFrom_held src off _ _ hu)) (fun _ hu => hu) h e
  | clear =>
    refine runDriver_held (fun u hu => whenReady_held hu ?_) (fun _ hu => hu) h e
    rw [clear_script]; exact runSyms_held _ hu
  | addressByte a => exact runWireByte_held (fun _ => wb_held _) h e
  | ctrlCmd => exact runWireByte_held (fun _ => wb_held _) h e
  | ctrlData => exact runWireByte_held (fun _ => wb_held _) h e

theorem held_reset (cfg : Cfg) (par : Params) : Held D (State.resetWith cfg par) := by
  refine ⟨⟨⟨rfl, rfl, rfl, rfl⟩, rfl, fun _ => ⟨rfl, rfl, rfl⟩, fun e => by cases e⟩, fun _ => rfl⟩

end Sys2Proof.Machine
end

