-- ==== Sys2Proof/Laws/Outcomes.lean ====
section
/-! SUPPORT. Every way a run of transfers, and a driver operation's body, can end (42_driver R88, R89; 60_exceptions R124):
it went through, a NACK cut it short under `ABORT`, or a mark was set. -/

namespace Sys2Proof.Machine

/-- How a run of symbols that went on with `ds` can end. -/
inductive Ending (syms : List Sym) (s : State) : Flow Unit → Prop where
  | done (ds : List SDrive) (t : State) (moved : Moved syms ds s t) (goesOn : GoesOn s ds) : Ending syms s (.ok () t)
  | cut (ds : List SDrive) (pre rest : List Sym) (v : Byte) (t : State) (whole : syms = pre ++ .byte v :: rest)
      (abort : s.cfg.ackPolicy = .abort) (moved : Moved (pre ++ [.byte v, .stop]) (ds ++ [.hiz]) s t)
      (idle : AtIdle t) : Ending syms s (.aborted t)
  | marked (t : State) : Ending syms s (.halted t)

theorem nacked_single (d : SDrive) : nacked [d] = (d == .hiz) := by cases d <;> rfl

/-- A run that goes through leaves the bus where the symbols say. -/
theorem runSyms_ends {o : Bool} {syms : List Sym} {s : State} (h : AtPlace o s) (hf : framed o syms = true) :
    Ending syms s (runSyms syms s) ∧ ∀ t, runSyms syms s = .ok () t → AtPlace (endsOpen o syms) t := by
  induction syms generalizing o s with
  | nil => exact ⟨.done [] s (Moved.refl s) (.inl rfl), fun t e => by cases e; exact h⟩
  | cons x rest ih =>
    cases x with
    | start =>
      cases o with
      | true => simp [framed] at hf
      | false =>
        obtain ⟨e0, m0, b0⟩ := moved_start (s := s) h
        obtain ⟨k1, k2⟩ := ih (o := true) (s := afterStart s) b0 hf
        simp only [runSyms, e0, Flow.andThen_ok]
        generalize runSyms rest (afterStart s) = r at k1 k2 ⊢
        refine ⟨?_, k2⟩
        cases k1 with
        | done ds t m g => exact .done ([] ++ ds) t (m0.trans m) g
        | cut ds pre rest' v t w a m i =>
          exact .cut ds (.start :: pre) rest' v t (by rw [w]; rfl) a (by simpa using m0.trans m) i
        | marked t => exact .marked t
    | stop =>
      cases o with
      | false => simp [framed] at hf
      | true =>
        obtain ⟨e0, m0, b0⟩ := moved_stop (s := s) h
        obtain ⟨k1, k2⟩ := ih (o := false) (s := afterStop s.ctl s) b0 hf
        simp only [runSyms, e0, Flow.andThen_ok]
        generalize runSyms rest (afterStop s.ctl s) = r at k1 k2 ⊢
        refine ⟨?_, k2⟩
        cases k1 with
        | done ds t m g => exact .done ([] ++ ds) t (m0.trans m) g
        | cut ds pre rest' v t w a m i =>
          exact .cut ds (.stop :: pre) rest' v t (by rw [w]; rfl) a (by simpa using m0.trans m) i
        | marked t => exact .marked t
    | byte v =>
      cases o with
      | false => simp [framed] at hf
      | true =>
        cases ha : answerSide s.par (some v) (sideOf s) with
        | error r =>
          obtain ⟨t, e, -, -⟩ := runSyms_refused (pre := []) (rest := rest) (v := v) (o := true) (ds := []) h rfl rfl
            (.inl rfl) ha
          rw [List.nil_append] at e
          rw [e]
          exact ⟨.marked _, fun t e => by cases e⟩
        | ok dq =>
          obtain ⟨d, q⟩ := dq
          by_cases hd : d = .low ∨ s.cfg.ackPolicy = .ignore
          · obtain ⟨u, e1, m1, b1⟩ := wb_ok h ha hd
            obtain ⟨k1, k2⟩ := ih (o := true) (s := u) b1 hf
            simp only [runSyms, e1, Flow.andThen_ok]
            generalize runSyms rest u = r at k1 k2 ⊢
            refine ⟨?_, k2⟩
            cases k1 with
            | done ds t m g =>
              refine .done ([d] ++ ds) t (m1.trans m) ?_
              rcases hd with rfl | hp
              · rcases g with g | g
                · exact .inl (by rw [nacked_append, g]; rfl)
                · exact .inr (by rw [← m1.cfg]; exact g)
              · exact .inr hp
            | cut ds pre rest' v' t w a m i =>
              exact .cut (d :: ds) (.byte v :: pre) rest' v' t (by rw [w]; rfl) (by rw [← m1.cfg]; exact a)
                (by simpa using m1.trans m) i
            | marked t => exact .marked t
          · have hp : s.cfg.ackPolicy = .abort := by
              cases hk : s.cfg.ackPolicy
              · exact absurd (.inr hk) hd
              · rfl
            have hz : d = .hiz := by
              cases d
              · exact absurd (.inl rfl) hd
              · rfl
            subst hz
            obtain ⟨t, e, m, b, -⟩ := runSyms_cut (pre := []) (rest := rest) (v := v) (ds := []) (q := q) (o := true) h rfl
              (by simp [slaveRun, ha]) rfl hp
            rw [List.nil_append] at e
            rw [e]
            exact ⟨.cut [] [] rest v t rfl hp m b, fun t e => by cases e⟩

theorem ackPolicy_cases (s : State) : s.cfg.ackPolicy = .ignore ∨ s.cfg.ackPolicy = .abort := by
  cases s.cfg.ackPolicy
  · exact .inl rfl
  · exact .inr rfl

/-! ### A run of glyphs -/

/-- A glyph is in range, or some first byte of it is off the end of its source. -/
theorem glyph_range (src : Source) (off : Byte) (k : Nat) (s : State) :
    (∀ j < 5, glyphIndex s.cfg.bufBase src off k j < (sourceBytes src s).length) ∨
      ∃ j < 5, (∀ j' < j, glyphIndex s.cfg.bufBase src off k j' < (sourceBytes src s).length) ∧
        (sourceBytes src s).length ≤ glyphIndex s.cfg.bufBase src off k j := by
  by_cases h : ∀ j < 5, glyphIndex s.cfg.bufBase src off k j < (sourceBytes src s).length
  · exact .inl h
  · right
    push Not at h
    have hex : ∃ j, j < 5 ∧ (sourceBytes src s).length ≤ glyphIndex s.cfg.bufBase src off k j := h
    classical
    refine ⟨Nat.find hex, (Nat.find_spec hex).1, fun j' hj' => ?_, (Nat.find_spec hex).2⟩
    have := Nat.find_min hex hj'
    have h5 := (Nat.find_spec hex).1
    omega

/-- How a run of glyphs from an idle bus can end: drawn whole, cut short by a NACK under `ABORT`, or a mark set. The cursor
column apart, what it sent is what moved. -/
inductive DrawEnding (src : Source) (off row : Byte) (m k : Nat) (col : Byte) (s : State) : Flow Unit → Prop where
  | done (ds : List SDrive) (t : State) (moved : Moved (glyphsOf src off s row m k col) ds { s with curCol := t.curCol } t)
      (goesOn : GoesOn s ds) (idle : AtIdle t) : DrawEnding src off row m k col s (.ok () t)
  | cut (syms : List Sym) (ds : List SDrive) (t : State) (abort : s.cfg.ackPolicy = .abort)
      (moved : Moved syms (ds ++ [.hiz]) { s with curCol := t.curCol } t) (idle : AtIdle t) :
      DrawEnding src off row m k col s (.aborted t)
  | marked (t : State) : DrawEnding src off row m k col s (.halted t)

theorem drawGlyphsFrom_ends {src : Source} {off row : Byte} {m k : Nat} {col : Byte} {s : State} (h : AtIdle s)
    (hc : s.curCol = some col) (hr : s.curRow = some row) :
    DrawEnding src off row m k col s (drawGlyphsFrom src off m k s) := by
  induction m generalizing k col s with
  | zero => exact .done [] s (Moved.refl s) (.inl rfl) h
  | succ m ih =>
    rw [drawGlyphsFrom]
    rcases glyph_range src off k s with hi | ⟨j, hj, hlt, hle⟩
    · have hf := framed_glyphOf s.par (blockAddressByte s) col row (glyphBytes src off k s)
      rw [drawGlyph_script hc hr (fun j hj => hi j (by simp at hj; omega))]
      obtain ⟨k1, k2⟩ := runSyms_ends (o := false) h hf.1
      revert k2
      generalize runSyms (glyphOf s.par (blockAddressByte s) col row (glyphBytes src off k s)) s = r at k1
      intro k2
      cases k1 with
      | marked t => exact .marked t
      | cut ds pre rest v t w a mv i => exact .cut _ ds t a (by rw [mv.curCol]; exact mv) i
      | done ds u mv g =>
        have bu := k2 u rfl
        rw [hf.2] at bu
        have hgl : glyphsOf src off { u with curCol := some (nextColumn col) } row m (k + 1) (nextColumn col) =
            glyphsOf src off s row m (k + 1) (nextColumn col) :=
          glyphsOf_kept (t := { u with curCol := some (nextColumn col) }) mv.cfg mv.par mv.buf src off row _ _ _
        have := ih (k := k + 1) (col := nextColumn col) (s := { u with curCol := some (nextColumn col) }) bu rfl
          (mv.curRow.trans hr)
        show DrawEnding src off row (m + 1) k col s
          (drawGlyphsFrom src off m (k + 1) { u with curCol := some (nextColumn col) })
        revert this
        generalize drawGlyphsFrom src off m (k + 1) { u with curCol := some (nextColumn col) } = r'
        intro this
        cases this with
        | marked t => exact .marked t
        | cut syms ds' t a mv' i =>
          refine .cut (glyphOf s.par (blockAddressByte s) col row (glyphBytes src off k s) ++ syms) (ds ++ ds') t
            ((congrArg Cfg.ackPolicy mv.cfg).symm.trans a) ?_ i
          rw [List.append_assoc]
          exact (mv.withCursor t.curCol).trans mv'
        | done ds' t mv' g' i =>
          refine .done (ds ++ ds') t ?_ ?_ i
          · rw [glyphsOf]
            rw [hgl] at mv'
            exact (mv.withCursor t.curCol).trans mv'
          · rcases ackPolicy_cases s with hp | hp
            · exact .inr hp
            · rcases g with g | g
              · rcases g' with g' | g'
                · exact .inl (by rw [nacked_append, g, g']; rfl)
                · exact .inr ((congrArg Cfg.ackPolicy mv.cfg).symm.trans g')
              · exact .inr g
    · rw [drawGlyph_short hc hr hj hlt hle]
      obtain ⟨k1, -⟩ := runSyms_ends (o := false) h
        (framed_glyphOpenOf s.par (blockAddressByte s) col row (glyphBytes src off k s)).1
      generalize runSyms (glyphOpenOf s.par (blockAddressByte s) col row (glyphBytes src off k s)) s = r at k1
      cases k1 with
      | marked t => exact .marked t
      | cut ds pre rest v t w a mv i => exact .cut _ ds t a (by rw [mv.curCol]; exact mv) i
      | done ds u mv g => exact .marked _

end Sys2Proof.Machine
end

