-- ==== Sys2Proof/Laws/PerInstr.lean ====
section
/-! SUPPORT. Per-instruction statements: every operation's code is one the tables of 30_encoding give (R55, R60, R61). -/

namespace Sys2Proof.Laws.Legal

/-- The code of an operation is legal. -/
def Statement (i : Instr) : Prop := (encode i).wellFormed = true

theorem word_legal (opc a b c : Byte) (h : requestWordLegal (packWord opc a b c) = true) :
    (Code.word (packWord opc a b c)).wellFormed = true := h

theorem busInit : Statement .busInit := by unfold Statement; decide
theorem start : Statement .start := by unfold Statement; decide
theorem writeBit (b : Bool) : Statement (.writeBit b) := by unfold Statement; revert b; decide
theorem readAck : Statement .readAck := by unfold Statement; decide
theorem writeByte (v : Byte) : Statement (.writeByte v) := by
  refine word_legal _ _ _ _ ?_
  rw [requestWordLegal_fields]; simp [bareOpcodes]
theorem stop : Statement .stop := by unfold Statement; decide
theorem sendCommand (c : Byte) : Statement (.sendCommand c) := by
  refine word_legal _ _ _ _ ?_
  rw [requestWordLegal_fields]; simp [bareOpcodes]
theorem init : Statement .init := by unfold Statement; decide
theorem setPosition (col row : Byte) : Statement (.setPosition col row) := by
  refine word_legal _ _ _ _ ?_
  rw [requestWordLegal_fields]; simp [bareOpcodes]
theorem drawGlyphs (src : Source) (off n : Byte) : Statement (.drawGlyphs src off n) := by
  refine word_legal _ _ _ _ ?_
  rw [requestWordLegal_fields]; cases src <;> simp [bareOpcodes, bitByte, sourceBit, highSeven]
theorem clear : Statement .clear := by unfold Statement; decide
theorem addressByte (a : BitVec 7) : Statement (.addressByte a) := by unfold Statement; revert a; decide
theorem ctrlCmd : Statement .ctrlCmd := by unfold Statement; decide
theorem ctrlData : Statement .ctrlData := by unfold Statement; decide

end Sys2Proof.Laws.Legal
end

