-- ==== Sys2Proof/Laws/Run.lean ====
section
/-! SUPPORT. A run of the host's list of requests (60_exceptions R134, 70_reset_and_hazards R147): a request that ends with no
mark leaves no operation in progress, a step takes one request from the list, and so a run without a mark exhausts it. -/

namespace Sys2Proof.Machine

variable {α : Type}

theorem runBus_mpc {i : Instr} {body : State → Flow α} {res : α → Result} {n k : Nat} {s t : State}
    (hm : ∀ u, Marks (body u) u) (hn : ∀ u, (body u).Ticks n k u)
    (e : runBus i body res s = .next t) (ht : Live t) : t.mpc = 0 := by
  have hk := hm (beginOp i s)
  have ha := hn (beginOp i s)
  obtain ⟨-, ⟨a, u, -, rfl⟩ | h | h⟩ := runBus_next e
  · rfl
  · rw [h] at hk; exact absurd ht hk.notLive
  · rw [h] at ha; exact ha.elim

theorem runDriver_mpc {i : Instr} {body : State → Flow Unit} {clause : State → State} {res : State → Result} {s t : State}
    (hm : ∀ u, Marks (body u) u) (e : runDriver i body clause res s = .next t) (ht : Live t) : t.mpc = 0 := by
  have hk := hm (begun i s)
  obtain ⟨-, ⟨u, -, rfl⟩ | h | ⟨u, -, rfl⟩⟩ := runDriver_next e
  · rfl
  · rw [h] at hk; exact absurd ht hk.notLive
  · rfl

theorem runWireByte_mpc {body : State → Flow Unit} {s t : State} (hm : ∀ u, Marks (body u) u)
    (e : runWireByte body s = .next t) (ht : Live t) : t.mpc = 0 := by
  have hk := hm s
  obtain ⟨-, ⟨u, -, rfl⟩ | h | ⟨u, -, rfl⟩⟩ := runWireByte_next e
  · rfl
  · rw [h] at hk; exact absurd ht hk.notLive
  · rfl

/-- A request that ends with no mark leaves no operation in progress (R86; log 11 for the wire bytes). -/
theorem exec_mpc {i : Instr} {s t : State} (e : exec i s = .next t) (ht : Live t) : t.mpc = 0 := by
  cases i with
  | busInit => exact runBus_mpc busInitBody_marks busInitBody_ticks e ht
  | start => exact runBus_mpc startBody_marks startBody_ticks e ht
  | writeBit b => exact runBus_mpc (writeBitBody_marks b) (writeBitBody_ticks b) e ht
  | readAck => exact runBus_mpc readAckBody_marks readAckBody_ticks e ht
  | writeByte v => exact runBus_mpc (writeByteBody_marks v) (writeByteBody_ticks v) e ht
  | stop => exact runBus_mpc stopBody_marks stopBody_ticks e ht
  | sendCommand c => exact runDriver_mpc (sendCommandBody_marks c) e ht
  | init => exact runDriver_mpc initBody_marks e ht
  | setPosition col row => exact runDriver_mpc (setPositionBody_marks col row) e ht
  | drawGlyphs src off n => exact runDriver_mpc (drawGlyphsBody_marks src off n) e ht
  | clear => exact runDriver_mpc clearBody_marks e ht
  | addressByte a => exact runWireByte_mpc (wb_marks _) e ht
  | ctrlCmd => exact runWireByte_mpc (wb_marks _) e ht
  | ctrlData => exact runWireByte_mpc (wb_marks _) e ht

/-- A step that sets no mark takes one request from the list, or waits. -/
theorem step_takes {s t : State} (hm : s.mpc = 0) (e : step s = .next t) (ht : Live t) :
    t.queue = s.queue.tail ∧ t.mpc = 0 := by
  obtain ⟨-, ⟨hq, rfl⟩ | ⟨w, e', rest, -, -, -, rfl⟩ | ⟨e', rest, i, hq, -, hx⟩⟩ := step_next e
  · exact ⟨by rw [hq]; rfl, hm⟩
  · exact absurd ht.2 (by simp [refuse])
  · exact ⟨by rw [(exec_coreKept hx).queue, hq]; rfl, exec_mpc hx ht⟩

theorem run_succ (M : Host.Core) (n : Nat) (s : M.State) : M.run (n + 1) s = (match M.step s with
    | .next u => M.run n u
    | .fault r => .fault r
    | .refused r => .refused r) := rfl

/-- The first step of a run that ends in a next state. -/
theorem run_first {n : Nat} {s t : State} (e : Host.Core.run core (n + 1) s = .next t) :
    ∃ u, step s = .next u ∧ Host.Core.run core n u = .next t := by
  have e := (run_succ core n s).symm.trans e
  cases hs : core.step s with
  | next u => simp only [hs] at e; exact ⟨u, hs, e⟩
  | fault r => simp only [hs] at e; cases e
  | refused r => simp only [hs] at e; cases e

/-- A run that sets no mark has taken one request a step (R147). -/
theorem run_takes {n : Nat} {s t : State} (hm : s.mpc = 0) (e : Host.Core.run core n s = .next t) (ht : Live t) :
    t.queue = s.queue.drop n ∧ t.mpc = 0 := by
  induction n generalizing s with
  | zero => cases e; exact ⟨rfl, hm⟩
  | succ n ih =>
    obtain ⟨u, hs, e⟩ := run_first e
    have hu : Live u := by
      cases n with
      | zero => cases e; exact ht
      | succ n => obtain ⟨v, hv, -⟩ := run_first e; exact (step_next hv).1
    have h1 := step_takes hm hs hu
    have h2 := ih h1.2 e
    exact ⟨by rw [h2.1, h1.1, List.drop_tail], h2.2⟩

end Sys2Proof.Machine
end

