-- ==== Sys2Proof/Laws/Sent.lean ====
section
/-! SUPPORT. What a run of symbols puts on the wire (41_bus R81), and what its events count up to (10_state R30,
70_reset_and_hazards R145). -/

namespace Sys2Proof.Machine

/-- One answer for each byte of a run of symbols. -/
def answered (syms : List Sym) (ds : List SDrive) : Prop :=
  (syms.filter (fun x => match x with | .byte _ => true | _ => false)).length = ds.length

theorem answered_of_run {par : Params} {syms : List Sym} {ds : List SDrive} {p q : Side}
    (h : slaveRun par syms p = .ok (ds, q)) : answered syms ds := by
  induction syms generalizing p ds with
  | nil =>
    simp only [slaveRun, Except.ok.injEq, Prod.mk.injEq] at h
    rw [← h.1]; rfl
  | cons x rest ih =>
    cases x with
    | start => exact ih (ds := ds) h
    | stop => exact ih (ds := ds) h
    | byte v =>
      obtain ⟨da, db, u, h1, h2, rfl⟩ := slaveRun_split (a := [.byte v]) (b := rest) h
      obtain ⟨d, rfl, -⟩ := slaveRun_byte h1
      have := ih h2
      unfold answered at this ⊢
      simp only [List.filter_cons, if_true, List.length_cons, this, List.singleton_append]

/-- A receiver where a run of symbols can go on: in a transfer with the clock low and no bit of a byte read, or outside
one with the clock high. -/
def Listening (o : Bool) (r : Receiver) : Prop := r.scl = !o ∧ r.active = o ∧ (o = true → r.bits = [])

theorem listening_of_place {o : Bool} {s : State} (h : AtPlace o s) : Listening o (receiver s.trace) := by
  cases o with
  | true => exact ⟨h.1.rcvLow h.2.1, h.1.active h.2.1, fun _ => h.2.2⟩
  | false =>
    have hi := h.1.2.2.1 (by rw [h.2]; simp)
    exact ⟨h.1.clk.trans hi.1, hi.2.2, fun e => by cases e⟩

/-- A receiver reads exactly the symbols that were sent. -/
theorem decode_eventsOf {o : Bool} {syms : List Sym} {ds : List SDrive} {r : Receiver} (hr : Listening o r)
    (hf : framed o syms = true) (ha : answered syms ds) :
    (decodeFrom r (eventsOf r.sda syms ds)).map symOf = syms ∧
      Listening (endsOpen o syms) (hearAll r (eventsOf r.sda syms ds)) := by
  induction syms generalizing o r ds with
  | nil => exact ⟨rfl, hr⟩
  | cons x rest ih =>
    obtain ⟨hs, hact, hbits⟩ := hr
    cases x with
    | start =>
      cases o with
      | true => simp [framed] at hf
      | false =>
        have h1 := ih (o := true) (r := { scl := false, sda := false, active := true, bits := [] }) (ds := ds)
          ⟨rfl, rfl, fun _ => rfl⟩ hf ha
        simp only [eventsOf, decodeFrom_append, hearAll_append, hearAll_startEvents r hs, decodeFrom_startEvents r hs]
        exact ⟨by rw [List.map_append, h1.1]; rfl, h1.2⟩
    | stop =>
      cases o with
      | false => simp [framed] at hf
      | true =>
        have h1 := ih (o := false) (r := { scl := true, sda := true, active := false, bits := [] }) (ds := ds)
          ⟨rfl, rfl, fun e => by cases e⟩ hf ha
        simp only [eventsOf, decodeFrom_append, hearAll_append, hearAll_stopEvents r hs, decodeFrom_stopEvents r hs hact,
          hbits rfl]
        exact ⟨by rw [List.map_append, h1.1]; rfl, h1.2⟩
    | byte v =>
      cases o with
      | false => simp [framed] at hf
      | true =>
        cases ds with
        | nil => simp [answered] at ha
        | cons d ds =>
          have ha' : answered rest ds := by
            unfold answered at ha ⊢
            simpa only [List.filter_cons, if_true, List.length_cons, Nat.add_right_cancel_iff] using ha
          have h1 := ih (o := true) (r := { r with sda := true }) (ds := ds) ⟨hs, hact, fun e => hbits e⟩ hf ha'
          simp only [eventsOf, decodeFrom_append, hearAll_append, hearAll_byteEvents r v d hs hact (hbits rfl),
            decodeFrom_byteEvents r v d hs hact (hbits rfl)]
          exact ⟨by rw [List.map_append, h1.1]; rfl, h1.2⟩

theorem sent_emit (e : Event) (trace : List Event) (he : ∀ r, itemAt r e = none) : sent (trace ++ [e]) = sent trace := by
  simp [sent, decodeTrace_append, decodeFrom, he]

theorem sent_events {o : Bool} {syms : List Sym} {ds : List SDrive} {s : State} (h : AtPlace o s)
    (hf : framed o syms = true) (ha : answered syms ds) :
    sent (s.trace ++ eventsOf (level s .sda) syms ds) = sent s.trace ++ syms := by
  have hb : BusOk s := by cases o <;> exact h.1
  rw [sent, decodeTrace_append, List.map_append, ← hb.data, (decode_eventsOf (listening_of_place h) hf ha).1]
  rfl

theorem Moved.sent {o : Bool} {syms : List Sym} {ds : List SDrive} {s t : State} (m : Moved syms ds s t)
    (h : AtPlace o s) (hf : framed o syms = true) : sent t.trace = sent s.trace ++ syms := by
  rw [m.trace]
  exact sent_events h hf (answered_of_run m.side)

/-! ### A request begun -/

theorem atIdle_begun {s : State} (i : Instr) (h : AtIdle s) : AtIdle (begun i s) := by
  have hr : receiver (s.trace ++ [.opBegin (requestOf i s)]) = receiver s.trace := by simp
  obtain ⟨⟨⟨h1, h2, h3, h4⟩, h5, h6, h7⟩, h8⟩ := h
  refine ⟨⟨⟨h1, h2, hr ▸ h3, hr ▸ h4⟩, h5, fun hf => ?_, fun hf => ?_⟩, h8⟩
  · obtain ⟨a, b, c⟩ := h6 hf
    exact ⟨a, b, hr ▸ c⟩
  · obtain ⟨a, b, c⟩ := h7 hf
    exact ⟨a, hr ▸ b, hr ▸ c⟩

theorem busOk_beginOp {s : State} (i : Instr) (h : BusOk s) : BusOk (beginOp i s) := by
  have hr : receiver (s.trace ++ [.opBegin (requestOf i s)]) = receiver s.trace := by simp
  obtain ⟨⟨h1, h2, h3, h4⟩, h5, h6, h7⟩ := h
  refine ⟨⟨h1, h2, hr ▸ h3, hr ▸ h4⟩, h5, fun hf => ?_, fun hf => ?_⟩
  · obtain ⟨a, b, c⟩ := h6 hf
    exact ⟨a, b, hr ▸ c⟩
  · obtain ⟨a, b, c⟩ := h7 hf
    exact ⟨a, hr ▸ b, hr ▸ c⟩

theorem receiver_beginOp (i : Instr) (s : State) : receiver (beginOp i s).trace = receiver s.trace := by
  simp [beginOp, emit]

theorem atByte_beginOp {s : State} (i : Instr) (h : AtByte s) : AtByte (beginOp i s) :=
  ⟨busOk_beginOp i h.1, h.2.1, by rw [receiver_beginOp]; exact h.2.2⟩

theorem sent_beginOp (i : Instr) (s : State) : sent (beginOp i s).trace = sent s.trace :=
  sent_emit _ _ fun _ => rfl

theorem sent_endOp (r : Result) (s : State) : sent (endOp r s).trace = sent s.trace :=
  sent_emit (.opEnd r) _ fun _ => rfl

/-! ### What the events count -/

/-- How many settle delays a list of events has (R68). -/
theorem count_append_settle (a b : List Event) : (a ++ b).count .settle = a.count .settle + b.count .settle :=
  List.count_append

theorem sample_mem_eventsOf (sda : Bool) {syms : List Sym} {ds : List SDrive} (ha : answered syms ds) :
    Event.sample true ∈ eventsOf sda syms ds ↔ nacked ds = true := by
  have hc : ∀ (l : Line) (a b : Bool), Event.sample true ∉ changeEvents l a b := by
    intro l a b; unfold changeEvents; split <;> simp
  have hbits : ∀ (bs : List Bool) (a : Bool), Event.sample true ∉ bitsEvents a bs := by
    intro bs
    induction bs with
    | nil => intro a; simp [bitsEvents]
    | cons b rest ih => intro a; simp [bitsEvents, bitEvents, hc, ih]
  induction syms generalizing sda ds with
  | nil =>
    have : ds = [] := by simpa [answered] using ha.symm
    simp [eventsOf, nacked, this]
  | cons x rest ih =>
    cases x with
    | start => simpa [eventsOf, startEvents] using ih false (ds := ds) ha
    | stop => simpa [eventsOf, stopEvents, hc] using ih true (ds := ds) ha
    | byte v =>
      cases ds with
      | nil => simp [answered] at ha
      | cons d ds =>
        have ha' : answered rest ds := by
          unfold answered at ha ⊢
          simpa only [List.filter_cons, if_true, List.length_cons, Nat.add_right_cancel_iff] using ha
        have := ih true (ds := ds) ha'
        simp only [eventsOf, byteEvents, ackEvents, List.mem_append, this, hc, hbits]
        cases d <;> simp [nacked]

end Sys2Proof.Machine
end

