-- ==== Sys2Proof/Tests/Slice0.lean ====
section
/-! SUPPORT. The model's own tests: ill-formed terms the checks refuse, words written out from the encoding tables, single
steps whose results are the vectors of 95_test_vectors, and for each statement with hypotheses a state that meets them. -/

namespace Sys2Proof.Tests

open Sys2Proof Sys2Proof.Machine

/-! ### Ill-formed terms (10_state R27, 30_encoding R56, R60, R61, 20_memory R42) -/

theorem test_cfg_bit7_refused : cfgWordLegal 0x00BC#16 = false ∧ decodeCfg 0x00BC#16 = none := by decide
theorem test_cfg_bit15_refused : cfgWordLegal 0x803C#16 = false ∧ decodeCfg 0x803C#16 = none := by decide
theorem test_cfg_shape3_refused : cfgWordLegal 0x033C#16 = false ∧ decodeCfg 0x033C#16 = none := by decide

/-- Vectors E14, E15: no such opcode. -/
theorem test_opcodes_refused :
    [0x00000000#32, 0x07000000#32, 0x0F000000#32, 0x15000000#32, 0xFF000000#32].all
      (fun w => !requestWordLegal w && decodeWord w == none) = true := by decide
/-- Vectors E16 to E20: a reserved bit set. -/
theorem test_reserved_refused :
    [0x03000002#32, 0x01000001#32, 0x05010078#32, 0x12010101#32, 0x13020000#32].all
      (fun w => !requestWordLegal w && decodeWord w == none) = true := by decide

theorem test_read_address_refused : wireByteLegal .address 0x79#8 = false ∧ decode (.wire .address 0x79#8) = none := by
  decide
theorem test_control_byte_refused : wireByteLegal .control 0x80#8 = false ∧ decode (.wire .control 0x80#8) = none := by
  decide
theorem test_stray_buffer_refused :
    Request.wellFormed { op := .start, buf := [1#8] } = false ∧
      Request.wellFormed { op := .drawGlyphs .store 0#8 1#8, buf := [1#8] } = false ∧
      Request.wellFormed { op := .drawGlyphs .buffer 0#8 1#8, buf := [1#8] } = true := by decide

/-! ### Words bit by bit (R54, R55, R57: vectors E1 to E13, E21; R60, R61; R26) -/

theorem test_decode_busInit : decode (.word 0b00000001_00000000_00000000_00000000#32) = some .busInit := by decide
theorem test_decode_start : decode (.word 0b00000010_00000000_00000000_00000000#32) = some .start := by decide
theorem test_decode_writeBit1 : decode (.word 0b00000011_00000000_00000000_00000001#32) = some (.writeBit true) := by decide
theorem test_decode_writeBit0 : decode (.word 0b00000011_00000000_00000000_00000000#32) = some (.writeBit false) := by decide
theorem test_decode_readAck : decode (.word 0b00000100_00000000_00000000_00000000#32) = some .readAck := by decide
theorem test_decode_writeByte : decode (.word 0b00000101_00000000_00000000_01111000#32) = some (.writeByte 0x78#8) := by
  decide
theorem test_decode_stop : decode (.word 0b00000110_00000000_00000000_00000000#32) = some .stop := by decide
theorem test_decode_sendCommand : decode (.word 0b00010000_00000000_00000000_10101111#32) = some (.sendCommand 0xAF#8) := by
  decide
theorem test_decode_init : decode (.word 0b00010001_00000000_00000000_00000000#32) = some .init := by decide
theorem test_decode_setPosition :
    decode (.word 0b00010010_00000000_00000001_00000010#32) = some (.setPosition 1#8 2#8) ∧
      decode (.word 0b00010010_00000000_00000000_00000000#32) = some (.setPosition 0#8 0#8) := by decide
theorem test_decode_drawStore :
    decode (.word 0b00010011_00000000_00111000_00001010#32) = some (.drawGlyphs .store 56#8 10#8) := by decide
theorem test_decode_drawBuffer :
    decode (.word 0b00010011_00000001_00000000_00000010#32) = some (.drawGlyphs .buffer 0#8 2#8) := by decide
theorem test_decode_clear : decode (.word 0b00010100_00000000_00000000_00000000#32) = some .clear := by decide

/-- The address byte is the seven address bits and the write bit 0 (R60, vectors D1 to D3). -/
theorem test_decode_address :
    decode (.wire .address 0b0111100_0#8) = some (.addressByte 0b0111100#7) ∧
      decode (.wire .address 0b1111111_0#8) = some (.addressByte 0b1111111#7) ∧
      decode (.wire .address 0b0000000_0#8) = some (.addressByte 0b0000000#7) := by decide
theorem test_decode_control :
    decode (.wire .control 0b00000000#8) = some .ctrlCmd ∧ decode (.wire .control 0b01000000#8) = some .ctrlData := by decide

/-- The same operations read from the opcode table's rows: words of 32 bits, wire bytes of 8. -/
theorem test_table_words :
    decodeTableWord 32 0x12000102 = some (.setPosition 1#8 2#8) ∧ decodeTableWord 8 0x78 = some (.addressByte 0x3C#7) ∧
      decodeTableWord 8 0x00 = some .ctrlCmd ∧ decodeTableWord 8 0x40 = some .ctrlData := by decide

/-- Every field of a configuration word (R26): address 0x3D, shape 96x16, and every one-bit field set. -/
theorem test_decode_cfg :
    decodeCfg 0b0_1_1_1_1_1_10_0_0111101#16 = some
      { addr7 := 0x3D#7, shape := .s96x16, power := .externalVcc, ackPolicy := .abort, highScl := .drive
        highSda := .drive, bufBase := .fromZero } ∧
      decodeCfg referenceCfgWord = some referenceCfg := by decide

/-! ### States -/

/-- The state an outcome goes on with. -/
def nextOf (o : Host.Outcome State Fault Refusal) : Option State :=
  match o with
  | .next s => some s
  | .fault _ => none
  | .refused _ => none

theorem next_of_isSome {o : Host.Outcome State Fault Refusal} (h : (nextOf o).isSome = true) : ∃ t, o = .next t := by
  cases o with
  | next t => exact ⟨t, rfl⟩
  | fault r => cases h
  | refused r => cases h

/-- The events of a trace but for those that frame a request, as 95_test_vectors writes them. -/
def lineEvents (trace : List Event) : List Event :=
  trace.filter fun e => match e with
    | .opBegin _ => false
    | .opEnd _ => false
    | _ => true

/-- An idle bus. -/
def idle : State := { State.reset with frame := .idle }

/-- A transfer just opened: levels (0,0). -/
def opened : State := { afterStart idle with mpc := 0 }

/-- The same with an unconstrained slave whose answers are given. -/
def answering (answers : List SDrive) (s : State) : State :=
  { s with par := { s.par with slave := .free }, slaveIn := answers }

/-- The driver ready, with a cursor. -/
def ready : State := { idle with dstate := .ready, curCol := some 1#8, curRow := some 2#8 }

/-- The `ABORT` policy. -/
def aborting (s : State) : State := { s with cfg := { s.cfg with ackPolicy := .abort } }

/-- Lines set high by driving them. -/
def driving (s : State) : State := { s with cfg := { s.cfg with highScl := .drive, highSda := .drive } }

/-- The reference slave in a given phase of a transfer. -/
def inPhase (p : Phase) (s : State) : State := { s with ctl := { s.ctl with phase := p } }

/-- Eight bits of an open transfer sent, the ninth pulse due. -/
def eightBits (v : Byte) (s : State) : State := { afterBits (bitsMsb v) s with mpc := 0 }

/-- Two bits of an open transfer sent. -/
def midByte : State := { afterBits [true, false] (answering [.low] opened) with mpc := 0 }

/-- What a vector gives of an operation's end: its line events, its levels (SCL, SDA), its framing state. -/
def shows (i : Instr) (s : State) (es : List Event) (scl sda : Bool) (f : Frame) : Bool :=
  match nextOf (exec i s) with
  | none => false
  | some t =>
    t.fault.isNone && t.refused.isNone && lineEvents t.trace == lineEvents s.trace ++ es && level t .scl == scl &&
      level t .sda == sda && t.frame == f && t.mpc == 0

/-- The fault an operation ends in, with its micro-step. -/
def faultOf (i : Instr) (s : State) : Option (FaultReason × Nat) := (nextOf (exec i s)).bind (fun t => t.fault)

/-- The refusal an operation ends in. -/
def refusalOf (i : Instr) (s : State) : Option RefusalReason := (nextOf (exec i s)).bind (fun t => t.refused)

/-! ### The bus operations (vectors B1 to B19) -/

/-- B1. -/
theorem test_busInit : shows .busInit State.reset [.settle, .settle] true true .idle = true := by decide
/-- B2. -/
theorem test_busInit_drive :
    shows .busInit (driving State.reset) [.settle, .settle] true true .idle = true ∧
      (nextOf (exec .busInit (driving State.reset))).map (fun t => (t.drvScl, t.drvSda)) = some (.high, .high) := by decide
/-- B3. -/
theorem test_start :
    shows .start idle [.edge .sda false, .settle, .edge .scl false, .settle] false false .opened = true := by decide
/-- B14. -/
theorem test_start_uninit : faultOf .start State.reset = some (.framingViolation .start, 0) := by decide
/-- B4. -/
theorem test_writeBit_one : shows (.writeBit true) opened
    [.edge .sda true, .settle, .edge .scl true, .settle, .edge .scl false, .settle] false true .opened = true := by decide
/-- B4a. -/
theorem test_writeBit_zero : shows (.writeBit false) opened
    [.settle, .edge .scl true, .settle, .edge .scl false, .settle] false false .opened = true := by decide
/-- B9. -/
theorem test_readAck_low : shows .readAck (answering [.low] opened)
    [.settle, .edge .scl true, .settle, .sample false, .edge .scl false, .edge .sda true, .settle] false true .opened = true ∧
    (nextOf (exec .readAck (answering [.low] opened))).bind (fun t => t.lastAck) = some true := by decide
/-- B11. -/
theorem test_readAck_high : shows .readAck (answering [.hiz] opened)
    [.edge .sda true, .settle, .edge .scl true, .settle, .sample true, .edge .scl false, .settle] false true .opened = true ∧
    (nextOf (exec .readAck (answering [.hiz] opened))).bind (fun t => t.lastAck) = some false := by decide
/-- B5: the data level at the nine rising clock edges is 0,1,1,1,1,0,0,0,0. -/
theorem test_writeByte : shows (.writeByte 0x78#8) opened
    [.settle, .edge .scl true, .settle, .edge .scl false, .settle,
      .edge .sda true, .settle, .edge .scl true, .settle, .edge .scl false, .settle,
      .settle, .edge .scl true, .settle, .edge .scl false, .settle,
      .settle, .edge .scl true, .settle, .edge .scl false, .settle,
      .settle, .edge .scl true, .settle, .edge .scl false, .settle,
      .edge .sda false, .settle, .edge .scl true, .settle, .edge .scl false, .settle,
      .settle, .edge .scl true, .settle, .edge .scl false, .settle,
      .settle, .edge .scl true, .settle, .edge .scl false, .settle,
      .settle, .edge .scl true, .settle, .sample false, .edge .scl false, .edge .sda true, .settle]
    false true .opened = true := by decide
/-- S7: a control byte the reference slave gives no meaning to, refused in its ACK slot. -/
theorem test_writeByte_refused :
    refusalOf (.writeByte 0x80#8) (inPhase .ctrl opened) = some (.controllerUnmodelled (.controlByte 0x80#8)) := by decide
/-- B13. -/
theorem test_stop : shows .stop opened [.settle, .edge .scl true, .settle, .edge .sda true, .settle] true true .idle = true := by
  decide
/-- B12: after an ACK slot. -/
theorem test_stop_high : shows .stop { opened with drvSda := .hiz, trace := opened.trace ++ [.edge .sda true] }
    [.edge .sda false, .settle, .edge .scl true, .settle, .edge .sda true, .settle] true true .idle = true := by decide

/-! ### The wire bytes (R60, R61, R88) -/

/-- The block's own address is acknowledged and a following byte is the control byte. -/
theorem test_addressByte :
    (nextOf (exec (.addressByte 0x3C#7) opened)).map (fun t => (t.lastAck, t.ctl.phase, t.opNack, decodeTrace t.trace)) =
      some (some true, .ctrl, false, [.start, .byte 0x78#8 false]) := by decide
/-- S2: another address is not; under `ABORT` the transfer is closed. -/
theorem test_addressByte_nack :
    (nextOf (exec (.addressByte 0x3D#7) (aborting opened))).map (fun t => (t.lastAck, t.frame, t.opNack)) =
      some (some false, .idle, true) := by decide
theorem test_ctrlCmd : (nextOf (exec .ctrlCmd (inPhase .ctrl opened))).map (fun t => (t.ctl.phase, decodeTrace t.trace)) =
    some (.cmdStream, [.start, .byte 0x00#8 false]) := by decide
theorem test_ctrlData : (nextOf (exec .ctrlData (inPhase .ctrl opened))).map (fun t => (t.ctl.phase, decodeTrace t.trace)) =
    some (.dataStream, [.start, .byte 0x40#8 false]) := by decide

/-! ### The driver operations (vectors D4 to D16) and the reference slave (S1, S6, S8) -/

/-- D5. -/
theorem test_sendCommand_notReady : faultOf (.sendCommand 0xAF#8) State.reset = some (.notReady, 0) := by decide
/-- D25: under `ABORT` a NACK of the address closes the transfer. -/
theorem test_sendCommand_abort :
    (nextOf (exec (.sendCommand 0xAF#8) (answering [.hiz] (aborting ready)))).map
      (fun t => (decodeTrace t.trace, t.opNack, t.frame)) =
      some ([.start, .byte 0x78#8 true, .stop], true, .idle) := by decide
/-- D27. -/
theorem test_init_abort :
    (nextOf (exec .init (answering [.hiz] (aborting ready)))).map (fun t => (t.dstate, decodeTrace t.trace)) =
      some (.uninitialized, [.start, .byte 0x78#8 true, .stop]) := by decide
/-- From reset the bus is not initialised, so the first transfer's `START` faults. -/
theorem test_init_uninit : faultOf .init State.reset = some (.framingViolation .start, 0) := by decide
/-- D11. -/
theorem test_setPosition :
    (nextOf (exec (.setPosition 1#8 2#8) ready)).map (fun t => (t.curCol, t.curRow, lineEvents t.trace, t.mpc)) =
      some (some 1#8, some 2#8, [], 0) := by decide
/-- D6. -/
theorem test_setPosition_notReady : faultOf (.setPosition 1#8 1#8) State.reset = some (.notReady, 0) := by decide
/-- D15. -/
theorem test_draw_none :
    (nextOf (exec (.drawGlyphs .store 0#8 0#8) { ready with curCol := none, curRow := none })).map
      (fun t => (lineEvents t.trace, t.curCol, t.opNack, t.fault)) = some ([], none, false, none) := by decide
/-- D16. -/
theorem test_draw_unset :
    faultOf (.drawGlyphs .store 0#8 1#8) { ready with curCol := none, curRow := none } = some (.cursorUnset, 0) := by decide
/-- On a bus left open by a raw `START` the framing check comes first (R126, D31). -/
theorem test_draw_unset_open :
    faultOf (.drawGlyphs .store 0#8 1#8) { opened with dstate := .ready } = some (.framingViolation .start, 0) := by decide
theorem test_clear_notReady : faultOf .clear State.reset = some (.notReady, 0) := by decide
/-- D7: a transfer left open by a raw `START`. -/
theorem test_clear_open : faultOf .clear { opened with dstate := .ready } = some (.framingViolation .start, 0) := by decide

/-- The bytes a glyph of the store is made of (R38), and the fault just off its end (D17). -/
theorem test_glyph_bytes :
    glyphBytes .store 0#8 0 State.reset = [0x3E#8, 0x51#8, 0x49#8, 0x45#8, 0x3E#8] ∧
      glyphByte .store 105#8 0 1 State.reset = .error (.glyphIndexOutOfRange 106) := by
  constructor <;> rfl
/-- D12, D13. -/
theorem test_windows :
    [1#8, 2#8, 20#8, 21#8, 22#8, 43#8, 0#8, 255#8].map (fun c => (windowStart c, windowEnd c)) =
      [(0x00#8, 0x04#8), (0x06#8, 0x0A#8), (0x72#8, 0x76#8), (0x78#8, 0x7C#8), (0x7E#8, 0x82#8), (0xFC#8, 0x00#8),
        (0xFA#8, 0xFE#8), (0xF4#8, 0xF8#8)] ∧
      [1#8, 4#8, 8#8, 0#8, 255#8].map windowPage = [0x00#8, 0x03#8, 0x07#8, 0xFF#8, 0xFE#8] := by decide
/-- D8: byte 15 of the 128x64 stream, bytes 9 and 19 of the external-supply stream. -/
theorem test_init_streams :
    (initSeq defaultInitBytes .s128x64 .internalPump)[14]? = some 0x12#8 ∧
      (initSeq defaultInitBytes .s128x32 .externalVcc)[8]? = some 0x10#8 ∧
      (initSeq defaultInitBytes .s96x16 .externalVcc)[18]? = some 0x22#8 := by decide
/-- S1, S8, S6. -/
theorem test_commands :
    commandByte 0xAF#8 Controller.reset = .ok { Controller.reset with displayOn := true } ∧
      commandByte 0xE3#8 Controller.reset = .error (.command 0xE3#8) ∧
      executeCommand 0x21#8 [0x7E#8, 0x82#8] Controller.reset = .error .argument := by decide
/-- S9: the pointer at the end of window 0..4, page 1..1. -/
theorem test_pointer_wraps :
    (advancePointer { Controller.reset with colEnd := 4, pageStart := 1, pageEnd := 1, col := 4, page := 1 }).col = 0 ∧
      (advancePointer { Controller.reset with colEnd := 4, pageStart := 1, pageEnd := 1, col := 4, page := 1 }).page = 1 := by
  decide
/-- C1: the least significant bit of a byte is the top pixel of its column (R39, R117). -/
theorem test_pixel_top :
    (List.range 16).map (pixel { Controller.reset with gddram := [(gddramAddr 1 3, 0x01#8)] } 3) =
      List.map (pixel Controller.reset 3) (List.range 8) ++ some true :: List.replicate 7 (some false) := rfl
/-- S5: a data byte in page addressing. -/
theorem test_data_page_mode : dataByte 0x00#8 Controller.reset = .error .addressingMode := by decide

/-! ### The first step after reset (70_reset R134, R135) -/

theorem test_first_step :
    (nextOf (step (State.reset.withFetchWord 32 0x01000000))).map (fun t => (t.frame, t.queue)) = some (.idle, []) := by
  decide
theorem test_illegal_word :
    (nextOf (step (State.reset.withFetchWord 32 0xFF000000))).bind (fun t => t.refused) =
      some (.illegalRequest 0xFF000000#32) := by decide
theorem test_waits : nextOf (step State.reset) = some State.reset := by rfl

/-! ### Witnesses: for each statement with hypotheses, a state and operands that meet all of them

Where a hypothesis asks for the slave's answers, the run is with an unconstrained slave whose answers are given (or, over a
long run, with any answers under `IGNORE`), or with the reference slave. -/

theorem test_witness_EncodeOfDecode : decode (.word 0x12000102#32) = some (.setPosition 1#8 2#8) := by decide
theorem test_witness_StepRunsRequest :
    Live { ready with queue := [⟨.word 0x13010001#32, [1#8]⟩] } ∧
      decode (.word 0x13010001#32) = some (.drawGlyphs .buffer 0#8 1#8) ∧
      decodeTableWord 32 0x14000000 = some .clear ∧ decodeTableWord 8 0x40 = some .ctrlData := by decide
theorem test_witness_StepsThatRunNothing : ¬ Live (raise .notReady ready) ∧ Live ready ∧ ready.queue = [] := by decide
/-- Runs of one request: one that ends final, and one that ends with the transfer open. -/
theorem test_witness_StepsThatRunNothing_run :
    (∃ t, runOf referenceCfg (referenceParams 0x3C#7) [⟨.word 0x01000000#32, []⟩] [] = .next t ∧ Live t ∧
      t.frame ≠ .opened) ∧
    ∃ t, runOf referenceCfg (referenceParams 0x3C#7) [⟨.word 0x01000000#32, []⟩, ⟨.word 0x02000000#32, []⟩] [] = .next t ∧
      Live t ∧ t.frame = .opened :=
  ⟨⟨_, rfl, by decide⟩, ⟨_, rfl, by decide⟩⟩
theorem test_witness_IllegalWordRefused :
    Live { idle with queue := [⟨.word 0x03000002#32, []⟩] } ∧ requestWordLegal 0x03000002#32 = false := by decide

theorem test_witness_BusInvariantKept :
    BusOk idle ∧ ReleaseOk idle ∧ ReleaseOk (driving idle) ∧ ∃ t, step (idle.withFetchWord 32 0x02000000) = .next t :=
  ⟨by decide, by decide, by decide, next_of_isSome (by decide)⟩
theorem test_witness_DataStableKept :
    BusOk opened ∧ dataStable opened.trace = true ∧ ∃ t, step (opened.withFetchWord 32 0x06000000) = .next t :=
  ⟨by decide, by decide, next_of_isSome (by decide)⟩
theorem test_witness_EveryTraceDataStable :
    ∃ t, Host.Core.run core 1 (boot referenceCfg (referenceParams 0x3C#7) [⟨.word 0x01000000#32, []⟩] [.low]) = .next t :=
  next_of_isSome (by decide)
theorem test_witness_SlaveInvariantKept :
    ControllerOk opened.ctl ∧ ∃ t, step (opened.withFetchWord 32 0x05000078) = .next t :=
  ⟨by decide, next_of_isSome (by decide)⟩
theorem test_witness_OnlyTheirWriters : ∃ t, exec (.setPosition 3#8 4#8) ready = .next t := next_of_isSome (by decide)
theorem test_witness_BusOperationFrame :
    (∃ t, exec .stop opened = .next t) ∧ (∃ t, exec (.writeByte 0xFF#8) opened = .next t) ∧
      ∃ t, exec (.writeBit true) opened = .next t :=
  ⟨next_of_isSome (by decide), next_of_isSome (by decide), next_of_isSome (by decide)⟩
theorem test_witness_MemoryFrame :
    BusOk idle ∧ (∃ t, exec .start idle = .next t) ∧ BusOk (inPhase .dataStream opened) ∧
      ∃ t, exec (.writeByte 0x01#8) (inPhase .dataStream opened) = .next t :=
  ⟨by decide, next_of_isSome (by decide), by decide, next_of_isSome (by decide)⟩
theorem test_witness_MarksArePrecise : ∃ t, exec .start State.reset = .next t ∧ ¬ Live t := ⟨_, rfl, by decide⟩

theorem test_witness_BusInitResult : Live State.reset ∧ BusOk State.reset ∧ State.reset.frame ≠ .opened := by decide
theorem test_witness_StartResult : Live idle ∧ AtIdle idle := by decide
theorem test_witness_WriteBitResult :
    Live opened ∧ BusOk opened ∧ opened.frame = .opened ∧ clockTakes opened = .ok opened.ctl ∧
      (receiver opened.trace).bits.length ≠ 8 := by decide
/-- The ninth pulse made by a data bit: the reference slave takes the byte (log 17). -/
theorem test_witness_WriteBitResult_ninth :
    BusOk (eightBits 0x78#8 opened) ∧ (receiver (eightBits 0x78#8 opened).trace).bits.length = 8 ∧
      clockTakes (eightBits 0x78#8 opened) = .ok { opened.ctl with phase := .ctrl } := by decide
theorem test_witness_ReadAckResult :
    Live (eightBits 0x78#8 opened) ∧ BusOk (eightBits 0x78#8 opened) ∧ (eightBits 0x78#8 opened).frame = .opened ∧
      answerSide opened.par (pendingByte (receiver (eightBits 0x78#8 opened).trace)) (sideOf (eightBits 0x78#8 opened)) =
        .ok (.low, { sideOf opened with ctl := { opened.ctl with phase := .ctrl } }) := by decide
theorem test_witness_WriteByteResult :
    Live opened ∧ AtByte opened ∧
      answerSide opened.par (some 0x78#8) (sideOf opened) =
        .ok (.low, { sideOf opened with ctl := { opened.ctl with phase := .ctrl } }) ∧
      answerSide opened.par (some 0x7A#8) (sideOf opened) =
        .ok (.hiz, { sideOf opened with ctl := { opened.ctl with phase := .notMe } }) := by decide
/-- A byte written after two raw bits; and after eight of them, when its first bit hands the byte before it to the reference
slave. -/
theorem test_witness_WriteByteResult_midByte :
    (Live midByte ∧ BusOk midByte ∧ midByte.frame = .opened ∧
      ((sendBits (bitsMsb 0x5A#8) (beginOp (.writeByte 0x5A#8) midByte)).toOption.map fun u =>
        decide (answerSide u.par (pendingByte (receiver u.trace)) (sideOf u) =
          .ok (.low, { sideOf midByte with slaveIn := [] }))) = some true) ∧
    BusOk (eightBits 0x78#8 opened) ∧ (eightBits 0x78#8 opened).frame = .opened ∧
      ((sendBits (bitsMsb 0x00#8) (beginOp (.writeByte 0x00#8) (eightBits 0x78#8 opened))).toOption.map fun u =>
        (u.ctl.phase, (answerSide u.par (pendingByte (receiver u.trace)) (sideOf u)).isOk)) = some (.ctrl, true) := by
  decide
theorem test_witness_StopResult :
    Live opened ∧ BusOk opened ∧ opened.frame = .opened ∧ clockTakes opened = .ok opened.ctl ∧
      (receiver opened.trace).bits.length ≠ 8 := by decide
theorem test_witness_BusOperationFaults :
    Live opened ∧ opened.frame = .opened ∧ Live State.reset ∧ State.reset.frame ≠ .idle ∧ State.reset.frame ≠ .opened ∧
      Live { idle with slSda := .low } ∧ level { idle with slSda := .low } .sda = false ∧
      level { idle with drvScl := .low } .scl = false := by decide
theorem test_witness_DriverFramingFaults :
    Live { opened with dstate := .ready } ∧ ({ opened with dstate := .ready } : State).frame ≠ .idle ∧
      ({ opened with dstate := .ready } : State).curCol = none ∧ State.reset.dstate ≠ .configuring ∧
      (Live { ready with slSda := .low } ∧ level { ready with slSda := .low } .sda = false ∧
        ({ ready with slSda := .low } : State).frame = .idle ∧ ({ ready with slSda := .low } : State).dstate = .ready ∧
        ready.dstate ≠ .configuring ∧ level { ready with drvScl := .low } .scl = false) ∧
      (Live ready ∧ ready.frame ≠ .opened) ∧ Live State.reset ∧ State.reset.frame ≠ .opened ∧ (1#8 : Byte) ≠ 0#8 := by
  decide
theorem test_witness_ContentionFaults :
    Live (driving { opened with slSda := .low }) ∧ (driving { opened with slSda := .low }).frame = .opened ∧
      (driving { opened with slSda := .low }).cfg.highSda = .drive := by decide
theorem test_witness_RefusedByteStops :
    Live (inPhase .ctrl opened) ∧ AtByte (inPhase .ctrl opened) ∧
      answerSide opened.par (some 0x80#8) (sideOf (inPhase .ctrl opened)) = .error (.controlByte 0x80#8) := by decide
theorem test_witness_ByteHasNinePulses :
    Live (answering [.hiz] opened) ∧ BusOk (answering [.hiz] opened) ∧ (answering [.hiz] opened).frame = .opened ∧
      ((sendBits (bitsMsb 0xFF#8) (beginOp (.writeByte 0xFF#8) (answering [.hiz] opened))).toOption.map fun u =>
        decide (answerSide u.par (pendingByte (receiver u.trace)) (sideOf u) =
          .ok (.hiz, { sideOf opened with slaveIn := [] }))) = some true := by decide
theorem test_witness_ByteReadFromTheWire :
    Live (answering [.low] opened) ∧ AtByte (answering [.low] opened) ∧
      answerSide (answering [.low] opened).par (some 0x00#8) (sideOf (answering [.low] opened)) =
        .ok (.low, { sideOf opened with slaveIn := [] }) := by decide
/-- After two raw bits: hypotheses as in `test_witness_WriteByteResult_midByte`. -/
theorem test_witness_ByteReadFromTheWire_midByte :
    Live midByte ∧ BusOk midByte ∧ midByte.frame = .opened ∧
      ((sendBits (bitsMsb 0x5A#8) (beginOp (.writeByte 0x5A#8) midByte)).toOption.map fun u =>
        (answerSide u.par (pendingByte (receiver u.trace)) (sideOf u)).isOk) = some true := by decide
theorem test_witness_StartThenStop : Live (driving idle) ∧ AtIdle (driving idle) := by decide
/-- Both answers to a wire byte, under either policy. -/
theorem test_witness_WireByteResult :
    Live (aborting opened) ∧ AtByte (aborting opened) ∧ (aborting opened).cfg.ackPolicy = .abort ∧
      answerSide (aborting opened).par (some (0x3D#7 ++ 0#1)) (sideOf (aborting opened)) =
        .ok (.hiz, { sideOf opened with ctl := { opened.ctl with phase := .notMe } }) ∧
      answerSide opened.par (some (0x3C#7 ++ 0#1)) (sideOf opened) =
        .ok (.low, { sideOf opened with ctl := { opened.ctl with phase := .ctrl } }) ∧
      answerSide opened.par (some 0x00#8) (sideOf (inPhase .ctrl opened)) =
        .ok (.low, { sideOf opened with ctl := { opened.ctl with phase := .cmdStream } }) ∧
      answerSide opened.par (some 0x40#8) (sideOf (inPhase .ctrl opened)) =
        .ok (.low, { sideOf opened with ctl := { opened.ctl with phase := .dataStream } }) := by decide

/-- An unconstrained slave answers every run of symbols. -/
theorem free_answers (s : State) (syms : List Sym) (h : s.par.slave = .free) :
    ∃ ds q, slaveRun s.par syms (sideOf s) = .ok (ds, q) := by
  obtain ⟨ds, q, e, -⟩ := slaveRun_free_ctl h syms (sideOf s)
  exact ⟨ds, q, e⟩

theorem test_witness_DriverStateCheck :
    Live idle ∧ idle.dstate ≠ .ready ∧ Live (answering [] ready) ∧ AtIdle (answering [] ready) ∧
      (answering [] ready).dstate = .ready ∧ (answering [] idle).dstate = .uninitialized ∧
      (answering [] ready).cfg.ackPolicy = .ignore ∧
      (∃ ds q, slaveRun (answering [] ready).par (scriptOf .init (answering [] ready)) (sideOf (answering [] ready)) =
        .ok (ds, q)) ∧
      ∃ ds q, slaveRun (answering [] idle).par (scriptOf .init (answering [] idle)) (sideOf (answering [] idle)) =
        .ok (ds, q) :=
  ⟨by decide, by decide, by decide, by decide, rfl, rfl, rfl, free_answers _ _ rfl, free_answers _ _ rfl⟩
theorem test_witness_SendCommandResult :
    CanSend ready ∧ nacked [SDrive.low, .low, .low] = false ∧
      slaveRun ready.par (commandOf (blockAddressByte ready) 0xAF#8) (sideOf ready) =
        .ok ([.low, .low, .low], { sideOf ready with ctl := { ready.ctl with displayOn := true } }) := by decide
theorem test_witness_InitResult :
    Live (answering [] idle) ∧ AtIdle (answering [] idle) ∧ (answering [] idle).dstate ≠ .configuring ∧
      (answering [] idle).cfg.ackPolicy = .ignore ∧
      ∃ ds q, slaveRun (answering [] idle).par (scriptOf .init (answering [] idle)) (sideOf (answering [] idle)) =
        .ok (ds, q) :=
  ⟨by decide, by decide, by decide, rfl, free_answers _ _ rfl⟩
/-- `INIT` under `IGNORE`, run to its end. -/
theorem init_runs : ∃ t, exec .init (answering [] idle) = .next t ∧ Live t := by
  obtain ⟨ds, q, e⟩ := free_answers (answering [] idle) (scriptOf .init (answering [] idle)) rfl
  have h := runSyms_after (s := { begun .init (answering [] idle) with dstate := .configuring }) (by decide)
    (framed_scriptOf .init (answering [] idle)) (scriptOf_init_ne _) e (.inr rfl)
  have hb := initBody_script (s := begun .init (answering [] idle)) (by decide)
  rw [scriptOf_begun, h] at hb
  exact ⟨_, runDriver_ok (clause := initAbortClause) (res := statusResult) (by decide) hb, ⟨rfl, rfl⟩⟩
theorem test_witness_InitStreamFixed :
    (Live (answering [] idle) ∧ AtIdle (answering [] idle) ∧ (answering [] idle).dstate ≠ .configuring ∧
      ∃ t, exec .init (answering [] idle) = .next t ∧ Live t) ∧
    (AtIdle (answering [.hiz] (aborting ready)) ∧ (aborting ready).cfg.ackPolicy = .abort ∧
      ∃ t, exec .init (answering [.hiz] (aborting ready)) = .next t ∧ Live t) ∧
    (ready.par.initBytes = idle.par.initBytes ∧ ready.cfg.shape = idle.cfg.shape ∧ ready.cfg.power = idle.cfg.power ∧
      ready.cfg.addr7 = idle.cfg.addr7) :=
  ⟨⟨by decide, by decide, by decide, init_runs⟩, ⟨by decide, rfl, ⟨_, rfl, by decide⟩⟩, ⟨rfl, rfl, rfl, rfl⟩⟩
theorem test_witness_SetPositionResult : Live ready ∧ ready.dstate = .ready ∧ Live idle ∧ idle.dstate ≠ .ready := by decide
/-- The first two glyphs of the store, the cursor at the last column of the grid and at the byte's own end. -/
theorem test_witness_DrawGlyphsResult :
    CanSend (answering [] { ready with curCol := some 255#8 }) ∧ GlyphsIn .store 0#8 2 (answering [] ready) ∧
      GlyphsIn .store 101#8 1 (answering [] ready) ∧ (answering [] ready).cfg.ackPolicy = .ignore ∧
      ∃ ds q, slaveRun (answering [] ready).par (glyphsOf .store 0#8 (answering [] ready) 2#8 2 0 255#8)
        (sideOf (answering [] ready)) = .ok (ds, q) :=
  ⟨by decide, by decide, by decide, rfl, free_answers _ _ rfl⟩
theorem test_witness_DrawWithoutCursor :
    Live { ready with curRow := none } ∧ ({ ready with curRow := none } : State).dstate = .ready ∧
      AtIdle { ready with curRow := none } ∧ ({ ready with curRow := none } : State).curRow = none ∧ (1#8 : Byte) ≠ 0#8 := by
  decide
/-- D17: the store's last byte drawn, the next one off its end. -/
theorem test_witness_DrawOffTheEnd :
    CanSend (answering [] ready) ∧ GlyphsIn .store 105#8 0 (answering [] ready) ∧
      (∀ j' < 1, glyphIndex .withOffset .store 105#8 0 j' < (sourceBytes .store (answering [] ready)).length) ∧
      (sourceBytes .store (answering [] ready)).length ≤ glyphIndex .withOffset .store 105#8 0 1 ∧
      (answering [] ready).cfg.ackPolicy = .ignore ∧
      ∃ ds q, slaveRun (answering [] ready).par (glyphsOf .store 105#8 (answering [] ready) 2#8 0 0 1#8 ++
        glyphOpenOf (answering [] ready).par (blockAddressByte (answering [] ready)) (1#8 + BitVec.ofNat 8 0) 2#8
          (glyphBytes .store 105#8 0 (answering [] ready))) (sideOf (answering [] ready)) = .ok (ds, q) :=
  ⟨by decide, by decide, by decide, by decide, rfl, free_answers _ _ rfl⟩
theorem test_witness_PositionThenGlyph :
    CanSend (answering [] { ready with buf := [1#8, 2#8, 3#8, 4#8, 5#8] }) ∧ (answering [] ready).cfg.ackPolicy = .ignore ∧
      ∃ ds q, slaveRun (answering [] ready).par
        (commandsOf (blockAddressByte ready) [ready.par.cmdColwin, 6#8 * (1#8 - 1#8), 6#8 * (1#8 - 1#8) + 4#8] ++
          commandsOf (blockAddressByte ready) [ready.par.cmdPagewin, 2#8 - 1#8, 2#8 - 1#8] ++
          dataOf (blockAddressByte ready) [1#8, 2#8, 3#8, 4#8, 5#8]) (sideOf (answering [] ready)) = .ok (ds, q) :=
  ⟨by decide, rfl, free_answers (answering [] ready) _ rfl⟩
theorem test_witness_LabelFromStore :
    CanSend (answering [] ready) ∧ ready.curCol = some 1#8 ∧ ready.curRow = some 2#8 ∧ 106 ≤ ready.par.glyph.length ∧
      (answering [] ready).cfg.ackPolicy = .ignore ∧
      ∃ ds q, slaveRun (answering [] ready).par
        ((List.range 10).flatMap (fun k => glyphOf ready.par (blockAddressByte ready) (1#8 + BitVec.ofNat 8 k) 2#8
          ((ready.par.glyph.drop (56 + 5 * k)).take 5))) (sideOf (answering [] ready)) = .ok (ds, q) :=
  ⟨by decide, rfl, rfl, by decide, rfl, free_answers (answering [] ready) _ rfl⟩
theorem test_witness_ClearResult :
    CanSend (answering [] ready) ∧ (answering [] ready).cfg.ackPolicy = .ignore ∧
      ∃ ds q, slaveRun (answering [] ready).par (clearOf (answering [] ready)) (sideOf (answering [] ready)) =
        .ok (ds, q) :=
  ⟨by decide, rfl, free_answers _ _ rfl⟩
theorem test_witness_ClearStream :
    CanSend (answering [] ready) ∧ (answering [] ready).cfg.ackPolicy = .ignore ∧
      ∃ ds q, slaveRun (answering [] ready).par (clearOf (answering [] ready)) (sideOf (answering [] ready)) =
        .ok (ds, q) := test_witness_ClearResult
/-- Symbols sent under `IGNORE` from an idle bus run to their end. -/
theorem syms_run {syms : List Sym} (h : framed false syms = true ∧ endsOpen false syms = false) (hne : syms ≠ []) :
    ∃ t, runSyms syms (answering [] ready) = .ok () t := by
  obtain ⟨ds, q, e⟩ := free_answers (answering [] ready) syms rfl
  exact ⟨_, runSyms_after (by decide) h hne e (.inr rfl)⟩
/-- Every piece of a bus operation runs to its end. -/
theorem test_witness_MicroStepCounts :
    (∃ t, busInitBody State.reset = .ok () t) ∧ (∃ t, startBody idle = .ok () t) ∧
      (∃ t, writeBitBody true opened = .ok () t) ∧ (∃ a t, readAckBody (answering [.low] opened) = .ok a t) ∧
      (∃ a t, writeByteBody 0x78#8 opened = .ok a t) ∧ (∃ t, stopBody opened = .ok () t) ∧
      (∃ t, setPositionBody 1#8 1#8 ready = .ok () t) ∧ ∃ t, drawGlyphsBody .store 0#8 0#8 ready = .ok () t :=
  ⟨⟨_, rfl⟩, ⟨_, rfl⟩, ⟨_, rfl⟩, ⟨_, _, rfl⟩, ⟨_, _, rfl⟩, ⟨_, rfl⟩, ⟨_, rfl⟩, ⟨_, rfl⟩⟩
/-- Every piece of the driver that sends something runs to its end, and requests end live. -/
theorem test_witness_MicroStepCounts_driver :
    (∃ t, sendCommandTransfer 0xAF#8 (answering [] ready) = .ok () t) ∧
      (∃ t, dataTransfer [0xFF#8] (answering [] ready) = .ok () t) ∧
      (∃ t, sendCommandBody 0xAF#8 (answering [] ready) = .ok () t) ∧ (∃ t, clearBody (answering [] ready) = .ok () t) ∧
      (∃ t, exec .init (answering [] idle) = .next t ∧ Live t) ∧
      ∃ t, exec .stop opened = .next t ∧ Live t := by
  refine ⟨?_, ?_, ?_, ?_, init_runs, ⟨_, rfl, by decide⟩⟩
  · rw [sendCommandTransfer_script]; exact syms_run (framed_commandOf _ _) (commandOf_ne _ _)
  · rw [dataTransfer_script]; exact syms_run (framed_dataOf _ _) (by simp [dataOf, transferOf])
  · rw [sendCommandBody_script _ rfl]; exact syms_run (framed_commandOf _ _) (commandOf_ne _ _)
  · rw [clearBody_script rfl]; exact syms_run (framed_scriptOf .clear _) (clearOf_ne _)
theorem test_witness_MicroStepCounts_glyphs :
    ∃ t, drawGlyphsBody .store 0#8 2#8 (answering [] ready) = .ok () t := by
  obtain ⟨ds, q, e⟩ := free_answers (answering [] ready) (glyphsOf .store 0#8 (answering [] ready) 2#8 2 0 1#8) rfl
  obtain ⟨t, h, -⟩ := drawGlyphsFrom_done (s := answering [] ready) (src := .store) (off := 0#8) (m := 2) (k := 0)
    (by decide) rfl rfl (by decide) e (.inr rfl)
  exact ⟨t, h⟩
/-- D25, D27: the address byte not acknowledged. -/
theorem test_witness_AbortAtFirstNack :
    Live (answering [.hiz] (aborting ready)) ∧ AtIdle (answering [.hiz] (aborting ready)) ∧
      (∀ i ∈ [Instr.sendCommand 0xAF#8, .init, .clear], Admitted i (answering [.hiz] (aborting ready))) ∧
      (∀ i ∈ [Instr.sendCommand 0xAF#8, .init, .clear], scriptOf i (answering [.hiz] (aborting ready)) =
        [.start] ++ .byte 0x78#8 :: (scriptOf i (answering [.hiz] (aborting ready))).drop 2) ∧
      slaveRun (answering [.hiz] (aborting ready)).par ([.start] ++ [.byte 0x78#8])
        (sideOf (answering [.hiz] (aborting ready))) = .ok ([] ++ [.hiz], sideOf ready) := by
  refine ⟨by decide, by decide, ?_, ?_, by decide⟩ <;> intro i hi <;>
    simp only [List.mem_cons, List.not_mem_nil, or_false] at hi <;> rcases hi with rfl | rfl | rfl
  · rfl
  · exact fun h => by cases h
  all_goals rfl
/-- D26: glyph 0 acknowledged whole, the first byte of glyph 1 not. -/
theorem test_witness_AbortInGlyph :
    let s := answering (List.replicate 25 .low ++ [.hiz]) (aborting ready)
    CanSend s ∧ s.cfg.ackPolicy = .abort ∧ s.curCol = some 1#8 ∧ s.curRow = some 2#8 ∧ GlyphsIn .store 0#8 2 s ∧
      slaveRun s.par (glyphsOf .store 0#8 s 2#8 1 0 1#8) (sideOf s) =
        .ok (List.replicate 25 .low, { sideOf s with slaveIn := [.hiz] }) ∧
      nacked (List.replicate 25 .low) = false ∧
      glyphOf s.par (blockAddressByte s) (1#8 + BitVec.ofNat 8 1) 2#8 (glyphBytes .store 0#8 1 s) =
        [.start] ++ .byte 0x78#8 ::
          (glyphOf s.par (blockAddressByte s) (1#8 + BitVec.ofNat 8 1) 2#8 (glyphBytes .store 0#8 1 s)).drop 2 ∧
      slaveRun s.par ([.start] ++ [.byte 0x78#8]) { sideOf s with slaveIn := [.hiz] } =
        .ok ([] ++ [.hiz], { sideOf s with slaveIn := [] }) := by
  refine ⟨by decide, rfl, rfl, rfl, by decide, rfl, by decide, rfl, by decide⟩
theorem test_witness_IgnoreSendsEverything :
    MovesLines .init ∧ Live (answering [] idle) ∧ AtIdle (answering [] idle) ∧ Admitted .init (answering [] idle) ∧
      (answering [] idle).cfg.ackPolicy = .ignore ∧ ∃ t, exec .init (answering [] idle) = .next t ∧ Live t :=
  ⟨trivial, by decide, by decide, by decide, rfl, init_runs⟩
theorem test_witness_StatusFromAcks :
    MovesLines (.sendCommand 0xAF#8) ∧ Live (answering [.hiz] (aborting ready)) ∧
      AtIdle (answering [.hiz] (aborting ready)) ∧ Admitted (.sendCommand 0xAF#8) (answering [.hiz] (aborting ready)) ∧
      ∃ t, exec (.sendCommand 0xAF#8) (answering [.hiz] (aborting ready)) = .next t ∧ Live t :=
  ⟨trivial, by decide, by decide, rfl, ⟨_, rfl, by decide⟩⟩
theorem test_witness_MemoryFrame_commands :
    BusOk (answering [.hiz] (aborting ready)) ∧
      (∃ t, exec (.sendCommand 0xAF#8) (answering [.hiz] (aborting ready)) = .next t) ∧
      (∃ t, exec .init (answering [.hiz] (aborting ready)) = .next t) ∧
      ∃ t, exec (.setPosition 0#8 255#8) ready = .next t :=
  ⟨by decide, ⟨_, rfl⟩, ⟨_, rfl⟩, ⟨_, rfl⟩⟩

/-! Witnesses for the reference slave. -/

theorem test_witness_FreeSlaveAnswers : (answering [] ready).par.slave = .free := rfl
theorem test_witness_SlaveAck :
    ∀ p ∈ [Phase.addr, .ctrl, .cmdStream, .notMe], AtByte (inPhase p opened) ∧
      (inPhase p opened).par.slave = .reference ∧
      ((nextOf (exec (.writeByte 0x40#8) (inPhase p opened))).map (fun t => decide (Live t))) = some true := by decide
/-- Every clause of `CommandsAcrossTransfers`: an opcode with arguments, one without, one not modelled; then the first
argument of two, the last one in range, the last one out of range. -/
theorem test_witness_CommandsAcrossTransfers :
    CanSend ready ∧ Paired ready ∧ ready.ctl.pending = none ∧ argCount 0x21#8 = some (1 + 1) ∧ argCount 0xAF#8 = some 0 ∧
      executeCommand 0xAF#8 [] ready.ctl = .ok { ready.ctl with displayOn := true } ∧ argCount 0xE3#8 = none := by decide
theorem test_witness_CommandsAcrossTransfers_arguments :
    CanSend { ready with ctl := { ready.ctl with pending := some { opcode := 0x21#8, args := [], needed := 2 } } } ∧
      CanSend { ready with ctl := { ready.ctl with pending := some { opcode := 0x22#8, args := [0#8], needed := 2 } } } ∧
      ([] : List Byte).length + 1 < 2 ∧ 2 ≤ [0#8].length + 1 ∧
      executeCommand 0x22#8 ([0#8] ++ [7#8]) ready.ctl = .ok { ready.ctl with pageEnd := 7 } ∧
      executeCommand 0x22#8 ([0#8] ++ [8#8]) ready.ctl = .error .argument := by decide
theorem test_witness_CommandEffects :
    (0x81#8 : Byte) ∉ [0x20#8, 0x21#8, 0x22#8, 0xAE#8, 0xAF#8] ∧ 3 ≤ (3#8 : Byte).toNat ∧ 3 ≤ (255#8 : Byte).toNat ∧
      SettingsOk { Controller.reset with settings := [(0x81#8, [0x8F#8]), (0xD9#8, [0xF1#8])] } := by decide
theorem test_witness_DataByteWritten :
    let s := inPhase .dataStream { opened with ctl := { opened.ctl with addrMode := .horizontal, col := 127, page := 7 } }
    Live s ∧ AtByte s ∧ s.par.slave = .reference ∧ s.ctl.phase = .dataStream ∧ ControllerOk s.ctl ∧
      s.ctl.addrMode = .horizontal ∧ (inPhase .dataStream opened).ctl.addrMode ≠ .horizontal := by decide
theorem test_witness_InitPreparesSlave :
    Live idle ∧ AtIdle idle ∧ idle.dstate ≠ .configuring ∧ Paired idle ∧ idle.par.initBytes = defaultInitBytes ∧
      idle.ctl.pending = none := by decide
/-- Two glyphs, up to the last column of the grid and on the last page of the frame buffer; and one that ends at the store's
last byte. -/
theorem test_witness_GlyphLands :
    let s := { ready with ctl := { ready.ctl with addrMode := .horizontal }, curCol := some 20#8, curRow := some 8#8 }
    CanSend s ∧ Paired s ∧ DefaultWindows s ∧ Drawable s ∧ (2#8 : Byte) ≠ 0#8 ∧ GlyphsIn .store 96#8 2 s ∧
      GlyphsIn .store 101#8 1 s ∧ (∀ k < 2, (windowStart (20#8 + BitVec.ofNat 8 k)).toNat + 4 < 128) ∧
      (windowPage 8#8).toNat < 8 := by decide
theorem test_witness_ClearZeroesPanel :
    let s := { ready with ctl := { ready.ctl with addrMode := .horizontal } }
    CanSend s ∧ Paired s ∧ DefaultWindows s ∧ Drawable s := by decide

end Sys2Proof.Tests
end

section
/-! PROOFS. The configuration word and the state at reset (10_state R27, R34). -/

namespace Sys2Proof

theorem shapeField_cases (v : BitVec 2) : v = 0#2 ∨ v = 1#2 ∨ v = 2#2 ∨ v = 3#2 := by
  revert v; decide

/-- The words R27 refuses. -/
theorem decodeCfg_eq_none_iff (w : BitVec 16) :
    decodeCfg w = none ↔ w.getLsbD 7 = true ∨ w.getLsbD 15 = true ∨ w.extractLsb' 8 2 = 3#2 := by
  rw [← or_assoc]
  by_cases reserved : w.getLsbD 7 = true ∨ w.getLsbD 15 = true
  · simp only [decodeCfg, reserved, if_true, true_or]
  · simp only [decodeCfg, reserved, if_false, false_or]
    obtain shape | shape | shape | shape := shapeField_cases (w.extractLsb' 8 2) <;> simp [shape]

end Sys2Proof

namespace Sys2Proof.Machine

/-- No block is constructed exactly from a word that decodes to no configuration (R27, R134). -/
theorem construct_eq_none_iff (w : BitVec 16) (par : Params) : State.construct w par = none ↔ decodeCfg w = none :=
  Option.map_eq_none_iff

/-- At reset nobody pulls a line low, so both are high (R34). -/
theorem level_resetWith (cfg : Cfg) (par : Params) (l : Line) : level (State.resetWith cfg par) l = true := by
  cases l with
  | scl => exact level_scl_eq rfl rfl
  | sda => exact level_sda_eq rfl rfl

/-- Settles O4: construction fails where decoding does, and decoding fails at a reserved bit or at the one shape field
that names no shape. -/
theorem configWordRefused : Obligations.ConfigWordRefused := fun w par =>
  (construct_eq_none_iff w par).trans (decodeCfg_eq_none_iff w)

/-- Settles O9: the fields are those `State.resetWith` writes out; the two levels follow from the released drivers. -/
theorem resetValues : Obligations.ResetValues := by
  intro cfg par s
  have clock : level s .scl = true := level_resetWith cfg par .scl
  have data : level s .sda = true := level_resetWith cfg par .sda
  exact ⟨rfl, rfl, rfl, rfl, clock, data, rfl, rfl, rfl, rfl, rfl, rfl, rfl, rfl, rfl, rfl, rfl, rfl, rfl⟩

end Sys2Proof.Machine
end

section
/-! PROOFS. The illegal request words (30_encoding R55 to R57) and the step at one (R56). -/

namespace Sys2Proof

/-- The opcodes of the table of R55. -/
def tableOpcodes : List Byte := bareOpcodes ++ [0x03#8, 0x05#8, 0x10#8, 0x12#8, 0x13#8]

/-- An opcode of no row of R55 is illegal whatever the operand bytes, to the decoder and to the tables. -/
theorem illegal_of_opcode_notMem {w : Word} (unlisted : fieldOpc w ∉ tableOpcodes) :
    decodeWord w = none ∧ requestWordLegal w = false := by
  simp only [tableOpcodes, bareOpcodes, List.mem_append, List.mem_cons, List.not_mem_nil, or_false, not_or] at unlisted
  rw [requestWordLegal_fields]
  simp [decodeWord, bareOpcodes, unlisted]

/-- The words the decoder refuses are those R55 and R56 call illegal: at each opcode of the table both ask for zeros in
the same reserved bits. -/
theorem decodeWord_eq_none_iff (w : Word) : decodeWord w = none ↔ requestWordLegal w = false := by
  by_cases listed : fieldOpc w ∈ tableOpcodes
  · rw [requestWordLegal_fields]
    simp only [tableOpcodes, bareOpcodes, List.cons_append, List.nil_append, List.mem_cons, List.not_mem_nil,
      or_false] at listed
    obtain opc | opc | opc | opc | opc | opc | opc | opc | opc | opc | opc := listed <;>
      simp [decodeWord, bareOpcodes, opc]
  · obtain ⟨undecoded, illegal⟩ := illegal_of_opcode_notMem listed
    exact iff_of_true undecoded illegal

end Sys2Proof

namespace Sys2Proof.Machine

/-- A step at a waiting code of no table answers what `unknownCode` does, with the request still in the queue (R56). -/
theorem step_unknown {s : State} {e : Entry} {rest : List Entry} (live : Live s) (waiting : s.queue = e :: rest)
    (unknown : decode e.code = none) : step s = unknownCode e.code s := by
  rw [step, whenLive_live live, nextRequest]
  simp only [waiting, unknown]

/-- Settles O8: the decoder gives an illegal word no meaning, and a step at a code of no meaning writes the mark only. -/
theorem illegalWordRefused : Obligations.IllegalWordRefused := by
  intro s w buf rest live waiting illegal
  have unknown : decode (.word w) = none := (decodeWord_eq_none_iff w).mpr illegal
  exact step_unknown live waiting unknown

end Sys2Proof.Machine
end

section
/-! PROOFS. The clock pulses of a byte (41_bus R79). -/

namespace Sys2Proof.Machine

/-! ### The high phases of the clock -/

/-- Data-line edges with the clock low lie in no pulse. -/
theorem highPhases_changeEvents_append (old new : Bool) (es : List Event) :
    highPhases none (changeEvents .sda old new ++ es) = highPhases none es := by
  unfold changeEvents
  split <;> rfl

/-- A data bit is one pulse, in which only the settle delay falls (R73). -/
theorem highPhases_bitEvents_append (sda b : Bool) (es : List Event) :
    highPhases none (bitEvents sda b ++ es) = [.settle] :: highPhases none es := by
  rw [bitEvents, List.append_assoc, highPhases_changeEvents_append]
  simp [highPhases]

theorem highPhases_bitsEvents_append (sda : Bool) (bs : List Bool) (es : List Event) :
    highPhases none (bitsEvents sda bs ++ es) = List.replicate bs.length [.settle] ++ highPhases none es := by
  induction bs generalizing sda with
  | nil => rfl
  | cons b rest ih =>
    rw [bitsEvents, List.append_assoc, highPhases_bitEvents_append, ih b]
    rfl

/-- An ACK slot is one pulse, in which the settle delay and the sample fall (R74). -/
theorem highPhases_ackEvents_append (sda : Bool) (d : SDrive) (es : List Event) :
    highPhases none (ackEvents sda d ++ es) = [.settle, .sample (releasedLevel d)] :: highPhases none es := by
  simp only [ackEvents, List.append_assoc, highPhases_changeEvents_append]
  simp [highPhases, highPhases_changeEvents_append]

/-! ### The clock edges and the samples -/

@[simp] theorem count_scl_changeEvents (old new v : Bool) : (changeEvents .sda old new).count (.edge .scl v) = 0 := by
  unfold changeEvents
  split <;> simp

@[simp] theorem filter_isSample_changeEvents (l : Line) (old new : Bool) :
    (changeEvents l old new).filter isSample = [] := by
  unfold changeEvents
  split <;> rfl

theorem count_scl_bitEvents (sda b v : Bool) : (bitEvents sda b).count (.edge .scl v) = 1 := by
  cases v <;> simp [bitEvents]

theorem count_scl_bitsEvents (sda : Bool) (bs : List Bool) (v : Bool) :
    (bitsEvents sda bs).count (.edge .scl v) = bs.length := by
  induction bs generalizing sda with
  | nil => rfl
  | cons b rest ih =>
    rw [bitsEvents, List.count_append, count_scl_bitEvents, ih b, List.length_cons, Nat.add_comm]

theorem filter_isSample_bitsEvents (sda : Bool) (bs : List Bool) : (bitsEvents sda bs).filter isSample = [] := by
  induction bs generalizing sda with
  | nil => rfl
  | cons b rest ih => simp [bitsEvents, bitEvents, isSample, ih b]

theorem count_scl_ackEvents (sda : Bool) (d : SDrive) (v : Bool) : (ackEvents sda d).count (.edge .scl v) = 1 := by
  cases v <;> simp [ackEvents]

theorem filter_isSample_ackEvents (sda : Bool) (d : SDrive) :
    (ackEvents sda d).filter isSample = [.sample (releasedLevel d)] := by
  simp [ackEvents, isSample, List.filter_cons]

/-! ### A whole byte -/

/-- The level of the data line in an ACK slot is high exactly where the slave leaves it alone. -/
theorem releasedLevel_eq_beq_hiz (d : SDrive) : releasedLevel d = (d == .hiz) := by
  cases d <;> rfl

/-- The request `WRITE_BYTE` from any place in a byte of an open transfer (R75, R86). -/
theorem exec_writeByte_from {s u : State} {v : Byte} {d : SDrive} {p : Side} (live : Live s) (ok : BusOk s)
    (opened : s.frame = .opened) (bits : sendBits (bitsMsb v) (beginOp (.writeByte v) s) = .ok u)
    (answer : answerSide u.par (pendingByte (receiver u.trace)) (sideOf u) = .ok (d, p)) :
    exec (.writeByte v) s = .next (endOp (.ack (d == .low)) (afterAck d (withSide p u))) :=
  runBus_ok live (writeByteBody_from (busOk_beginOp _ ok) opened bits answer)

/-- The events a whole `WRITE_BYTE` request records, from the data level `sda` (R75, R86). -/
def writeByteRequestEvents (sda : Bool) (v : Byte) (d : SDrive) : List Event :=
  .opBegin { op := .writeByte v, buf := [] } :: (byteEvents sda v d ++ [.opEnd (.ack (d == .low))])

/-- A request `WRITE_BYTE` records the same events at whatever place in a byte it begins. -/
theorem trace_writeByte_from {s u : State} {v : Byte} {d : SDrive} {p : Side} (ok : BusOk s)
    (opened : s.frame = .opened) (bits : sendBits (bitsMsb v) (beginOp (.writeByte v) s) = .ok u) :
    (endOp (.ack (d == .low)) (afterAck d (withSide p u))).trace =
      s.trace ++ writeByteRequestEvents (level s .sda) v d := by
  have sent := bitsSent (busOk_beginOp (.writeByte v) ok) opened bits
  have data : level (withSide p u) .sda = v.getLsbD 0 := sent.data
  have before : level (beginOp (.writeByte v) s) .sda = level s .sda := rfl
  have request : requestOf (.writeByte v) s = { op := .writeByte v, buf := [] } := rfl
  have sentTrace : (withSide p u).trace = u.trace := rfl
  simp [afterAck, data, sentTrace, sent.trace, before, request, writeByteRequestEvents, byteEvents]

theorem highPhases_writeByteRequestEvents (sda : Bool) (v : Byte) (d : SDrive) :
    highPhases none (writeByteRequestEvents sda v d) =
      List.replicate 8 [.settle] ++ [[.settle, .sample (d == .hiz)]] := by
  have skipBegin (r : Request) (es : List Event) : highPhases none (.opBegin r :: es) = highPhases none es := rfl
  rw [writeByteRequestEvents, skipBegin, byteEvents, List.append_assoc, highPhases_bitsEvents_append,
    highPhases_ackEvents_append, bitsMsb_length, releasedLevel_eq_beq_hiz]
  rfl

theorem count_scl_writeByteRequestEvents (sda : Bool) (v : Byte) (d : SDrive) (high : Bool) :
    (writeByteRequestEvents sda v d).count (.edge .scl high) = 9 := by
  simp [writeByteRequestEvents, byteEvents, count_scl_bitsEvents, count_scl_ackEvents]

theorem filter_isSample_writeByteRequestEvents (sda : Bool) (v : Byte) (d : SDrive) :
    (writeByteRequestEvents sda v d).filter isSample = [.sample (releasedLevel d)] := by
  simp [writeByteRequestEvents, byteEvents, filter_isSample_bitsEvents, filter_isSample_ackEvents, isSample]

/-- Settles O30: wherever the byte begins the request records the same events, eight pulses of a bit and that of the ACK
slot. -/
theorem byteHasNinePulses : Obligations.ByteHasNinePulses := by
  intro s u v d p live ok opened bits answer
  refine ⟨_, writeByteRequestEvents (level s .sda) v d, exec_writeByte_from live ok opened bits answer,
    trace_writeByte_from ok opened bits, count_scl_writeByteRequestEvents _ v d true,
    count_scl_writeByteRequestEvents _ v d false, highPhases_writeByteRequestEvents _ v d, ?_⟩
  rw [filter_isSample_writeByteRequestEvents]
  rfl

end Sys2Proof.Machine
end

section
/-! PROOFS. A transfer with no byte: `START` then `STOP` (41_bus R80). -/

namespace Sys2Proof.Machine

theorem busOk_endOp {s : State} (r : Result) (ok : BusOk s) : BusOk (endOp r s) :=
  (held_endOp (D := False) r ⟨ok, False.elim⟩).1

theorem atByte_endOp {s : State} (r : Result) (place : AtByte s) : AtByte (endOp r s) := by
  obtain ⟨ok, opened, noBits⟩ := place
  refine ⟨busOk_endOp r ok, opened, ?_⟩
  rw [endOp_trace, receiver_append]
  exact noBits

/-- The state after a whole `START` request (R72, R86). -/
def afterStartRequest (s : State) : State := endOp .none (afterStart (beginOp .start s))

/-- A request `START` on an idle bus ends where the first byte of a transfer begins (R72). -/
theorem exec_start_idle {s : State} (live : Live s) (idle : AtIdle s) :
    exec .start s = .next (afterStartRequest s) :=
  runBus_ok live (startBody_ok (busOk_beginOp _ idle.1) idle.2)

theorem atByte_afterStartRequest {s : State} (idle : AtIdle s) : AtByte (afterStartRequest s) :=
  atByte_endOp _ (atByte_afterStart (busOk_beginOp _ idle.1) idle.2)

/-- A request `STOP` where a byte would begin: its pulse completes no byte, so the slave takes none (R76; log 17). -/
theorem exec_stop_atByte {s : State} (live : Live s) (place : AtByte s) :
    exec .stop s = .next (endOp .none (afterStop s.ctl (beginOp .stop s))) := by
  obtain ⟨ok, opened, noBits⟩ := atByte_beginOp .stop place
  have noByte : clockTakes (beginOp .stop s) = .ok s.ctl := clockTakes_midByte (by rw [noBits]; decide)
  exact runBus_ok live (stopBody_ok s.ctl ok opened noByte)

/-- The events of a whole `START` request (R72, R86). -/
theorem trace_afterStartRequest (s : State) :
    (afterStartRequest s).trace =
      s.trace ++ .opBegin { op := .start, buf := [] } :: (startEvents ++ [.opEnd .none]) := by
  have request : requestOf .start s = { op := .start, buf := [] } := rfl
  simp [afterStartRequest, afterStart, request]

/-- The events of a whole `STOP` request (R76, R86). -/
theorem trace_stop (c : Controller) (s : State) :
    (endOp .none (afterStop c (beginOp .stop s))).trace =
      s.trace ++ .opBegin { op := .stop, buf := [] } :: (stopEvents (level s .sda) ++ [.opEnd .none]) := by
  have request : requestOf .stop s = { op := .stop, buf := [] } := rfl
  have data : level (beginOp .stop s) .sda = level s .sda := rfl
  simp [afterStop, request, data]

/-- Settles O32: `START` leaves the place where a byte begins with both lines low, and `STOP` from there leaves an idle bus;
the events are those of the two conditions, the data line already low when the stop condition begins. -/
theorem startThenStop : Obligations.StartThenStop := by
  intro s live idle
  have place : AtByte (afterStartRequest s) := atByte_afterStartRequest idle
  have ⟨ok, opened, _⟩ := place
  have dataLow : level (afterStartRequest s) .sda = false := level_sda ok.slSda
  obtain ⟨⟨-, -, linesHigh, -⟩, closed⟩ :=
    atIdle_afterStop (afterStartRequest s).ctl (busOk_beginOp .stop ok) opened
  obtain ⟨clock, data, -⟩ := linesHigh (by rw [closed]; decide)
  refine ⟨_, _, exec_start_idle live idle, exec_stop_atByte live place, rfl, clock, data, rfl, rfl, ?_⟩
  rw [trace_stop, dataLow, trace_afterStartRequest]
  simp [startEvents, stopEvents, changeEvents]

end Sys2Proof.Machine
end

section
/-! PROOFS. The driver state check (42_driver R87) and the stream of `INIT` (R94, R97). -/

namespace Sys2Proof.Machine

/-! ### Requests on the wire -/

theorem sent_begun (i : Instr) (s : State) : sent (begun i s).trace = sent s.trace := sent_beginOp i s

/-- Whole transfers from an idle bus put exactly their symbols on the wire (R81). -/
theorem sent_afterTransfers {syms : List Sym} {ds : List SDrive} {q : Side} {s : State} (idle : AtIdle s)
    (whole : framed false syms = true) (answers : slaveRun s.par syms (sideOf s) = .ok (ds, q)) :
    sent (afterTransfers syms ds q s).trace = sent s.trace ++ syms := by
  have notOpen : s.frame ≠ .opened := by rw [idle.2]; decide
  obtain ⟨-, dataHigh, -⟩ := idle.1.2.2.1 notOpen
  have heard := sent_events (o := false) idle whole (answered_of_run answers)
  rwa [dataHigh] at heard

/-! ### `INIT` run to its end -/

/-- The state in which `INIT` sends its sequence (R94). -/
def configuring (s : State) : State := { begun .init s with dstate := .configuring }

theorem atIdle_configuring {s : State} (idle : AtIdle s) : AtIdle (configuring s) := atIdle_begun .init idle

theorem sent_configuring (s : State) : sent (configuring s).trace = sent s.trace := sent_begun .init s

theorem initBody_begun {s : State} (admitted : s.dstate ≠ .configuring) :
    initBody (begun .init s) = (runSyms (scriptOf .init s) (configuring s)).andThen (setDState .ready) :=
  initBody_script (s := begun .init s) admitted

/-- `INIT` whose answers let it go on runs to its end, in `READY` (R94). -/
theorem exec_init_done {s : State} {ds : List SDrive} {q : Side} (live : Live s) (idle : AtIdle s)
    (admitted : s.dstate ≠ .configuring) (answers : slaveRun s.par (scriptOf .init s) (sideOf s) = .ok (ds, q))
    (goesOn : GoesOn s ds) :
    let t := { afterTransfers (scriptOf .init s) ds q (configuring s) with dstate := .ready }
    exec .init s = .next (endOp (statusResult t) t) := by
  have body := initBody_begun admitted
  rw [runSyms_after (atIdle_configuring idle) (framed_scriptOf .init s) (scriptOf_init_ne s) answers goesOn] at body
  exact runDriver_ok live body

/-- Settles O34: the four operations begin with one check, which raises `NotReady` where the state is not `READY`; `INIT`
checks only that the block is not configuring. -/
theorem driverStateCheck : Obligations.DriverStateCheck := by
  refine ⟨fun s live outside => ⟨fun c => ?_, fun col row => ?_, fun src off n => ?_, ?_⟩,
    fun s ds q live idle state answers goesOn => ?_⟩
  · exact notReady_request (.sendCommand c) _ _ live outside
  · exact notReady_request (.setPosition col row) _ _ live outside
  · exact notReady_request (.drawGlyphs src off n) _ _ live outside
  · exact notReady_request .clear _ _ live outside
  · have admitted : s.dstate ≠ .configuring := by
      obtain state | state := state <;> rw [state] <;> decide
    exact ⟨_, exec_init_done live idle admitted answers goesOn, live, rfl⟩

/-! ### `INIT` under either policy -/

/-- A well framed run of symbols cut short after a byte is well framed with the stop condition that closes it. -/
theorem framed_cut {o : Bool} {pre rest : List Sym} {v : Byte} (whole : framed o (pre ++ .byte v :: rest) = true) :
    framed o (pre ++ [.byte v, .stop]) = true := by
  rw [framed_append, Bool.and_eq_true] at whole ⊢
  obtain ⟨before, after⟩ := whole
  refine ⟨before, ?_⟩
  cases place : endsOpen o pre with
  | true => rfl
  | false => rw [place] at after; cases after

/-- Every way an `INIT` that sets no mark can end: the whole stream is on the wire, or under `ABORT` a NACK closed the
transfer after a beginning of it (R88, R94). -/
theorem sent_init {s t : State} (idle : AtIdle s) (admitted : s.dstate ≠ .configuring)
    (ran : exec .init s = .next t) (unmarked : Live t) :
    sent t.trace = sent s.trace ++ scriptOf .init s ∨
      s.cfg.ackPolicy = .abort ∧
        ∃ pre, pre <+: scriptOf .init s ∧ sent t.trace = sent s.trace ++ pre ++ [.stop] := by
  have framedScript : framed false (scriptOf .init s) = true := (framed_scriptOf .init s).1
  have place : AtPlace false (configuring s) := atIdle_configuring idle
  have body := initBody_begun admitted
  have marks := initBody_marks (begun .init s)
  obtain ⟨-, ending⟩ := runDriver_next ran
  obtain ⟨ends, -⟩ := runSyms_ends place framedScript
  rw [body] at ending marks
  generalize runSyms (scriptOf .init s) (configuring s) = run at ends ending marks
  cases ends with
  | done ds u moved =>
    obtain ⟨w, ended, rfl⟩ | ended | ⟨w, ended, -⟩ := ending <;> cases ended
    left
    rw [sent_endOp, ← sent_configuring s]
    exact moved.sent place framedScript
  | cut ds pre rest v u whole abort moved =>
    obtain ⟨w, ended, -⟩ | ended | ⟨w, ended, rfl⟩ := ending <;> cases ended
    have beginning : pre ++ [.byte v] <+: scriptOf .init s := ⟨rest, by simp [whole]⟩
    have framedCut : framed false (pre ++ [.byte v, .stop]) = true := framed_cut (whole ▸ framedScript)
    have clauseSilent : sent (initAbortClause u).trace = sent u.trace := rfl
    refine .inr ⟨abort, pre ++ [.byte v], beginning, ?_⟩
    rw [sent_endOp, clauseSilent, moved.sent place framedCut, sent_configuring]
    simp
  | marked u =>
    obtain ⟨w, ended, -⟩ | ended | ⟨w, ended, -⟩ := ending <;> cases ended
    exact absurd unmarked (Marked.notLive marks)

/-- Settles O37: a run of `INIT` sends its stream or a beginning of it, and the stream is made of the init bytes, the shape,
the power mode and the address byte. -/
theorem initStreamFixed : Obligations.InitStreamFixed := by
  refine ⟨fun s t _ idle admitted ran unmarked => ?_, fun s s' bytes shape power address => ?_⟩
  · obtain whole | ⟨abort, cut⟩ := sent_init idle admitted ran unmarked
    · exact ⟨fun _ => whole, fun _ => .inl whole⟩
    · exact ⟨fun ignore => absurd (abort.symm.trans ignore) (by decide), fun _ => .inr cut⟩
  · simp only [scriptOf, blockAddressByte, bytes, shape, power, address]

end Sys2Proof.Machine
end

section
/-! PROOFS. The stream of `CLEAR` (42_driver R105, R106). -/

namespace Sys2Proof.Machine

/-- `CLEAR` whose answers let it go on (R105). -/
theorem exec_clear_done {s : State} {ds : List SDrive} {q : Side} (can : CanSend s)
    (answers : slaveRun s.par (clearOf s) (sideOf s) = .ok (ds, q)) (goesOn : GoesOn s ds) :
    let t := afterTransfers (clearOf s) ds q (begun .clear s)
    exec .clear s = .next (endOp (statusResult t) t) := by
  obtain ⟨live, idle, ready⟩ := can
  have body := clearBody_script (s := begun .clear s) ready
  rw [scriptOf_begun] at body
  exact runDriver_ok live
    (body.trans (runSyms_after (atIdle_begun .clear idle) (framed_clearOf s) (clearOf_ne s) answers goesOn))

theorem u8_lastColumn (shape : Shape) :
    u8 ((panelWidth shape : Int) - 1) = BitVec.ofNat 8 (panelWidth shape - 1) := by
  cases shape <;> rfl

theorem u8_lastPage (shape : Shape) :
    u8 ((panelPages shape : Int) - 1) = BitVec.ofNat 8 (panelHeight shape / 8 - 1) := by
  cases shape <;> rfl

theorem clearCount_eq (shape : Shape) : clearCount shape = panelWidth shape * panelHeight shape / 8 := by
  cases shape <;> rfl

/-- Settles O47: what is on the wire is the six window commands and one data transfer of zeros, and no transfer writes the
cursor. -/
theorem clearStream : Obligations.ClearStream := by
  intro s ds q can answers goesOn
  refine ⟨_, _, exec_clear_done can answers goesOn, rfl, rfl, ?_, rfl⟩
  rw [sent_endOp, sent_afterTransfers (atIdle_begun .clear can.2.1) (framed_clearOf s).1 answers, sent_begun, clearOf,
    u8_lastColumn, u8_lastPage, clearCount_eq]
  simp [commandsOf, dataOf, transferOf, Config.ctrlData]

end Sys2Proof.Machine
end

section
/-! PROOFS. Runs of glyphs on the wire (42_driver R102): the label (R104), and a glyph at a position (R103). -/

namespace Sys2Proof.Machine

/-! ### A run drawn whole -/

/-- A run of glyphs drawn whole: what it puts on the wire and where it leaves the cursor (R102). -/
theorem exec_drawGlyphs_done {s : State} {src : Source} {off n col row : Byte} {ds : List SDrive} {q : Side}
    (can : CanSend s) (curCol : s.curCol = some col) (curRow : s.curRow = some row)
    (inRange : GlyphsIn src off n.toNat s)
    (answers : slaveRun s.par (glyphsOf src off s row n.toNat 0 col) (sideOf s) = .ok (ds, q)) (goesOn : GoesOn s ds) :
    ∃ t, exec (.drawGlyphs src off n) s = .next t ∧
      sent t.trace = sent s.trace ++ glyphsOf src off s row n.toNat 0 col ∧
      t.curCol = some (col + n) ∧ t.curRow = some row := by
  obtain ⟨live, idle, ready⟩ := can
  have begunIdle : AtIdle (begun (.drawGlyphs src off n) s) := atIdle_begun _ idle
  have script : glyphsOf src off (begun (.drawGlyphs src off n) s) row n.toNat 0 col =
      glyphsOf src off s row n.toNat 0 col :=
    glyphsOf_kept (s := s) (t := begun (.drawGlyphs src off n) s) rfl rfl rfl src off row _ _ _
  have inRange' : ∀ i < n.toNat, ∀ j < 5,
      glyphIndex s.cfg.bufBase src off (0 + i) j < (sourceBytes src s).length := by
    simpa only [Nat.zero_add] using inRange
  have source : sourceBytes src (begun (.drawGlyphs src off n) s) = sourceBytes src s := sourceBytes_kept rfl rfl src
  rw [← source] at inRange'
  obtain ⟨t, drawn, moved, -, -, lastCol⟩ := drawGlyphsFrom_done begunIdle curCol curRow inRange'
    (by rw [script]; exact answers) goesOn
  have body : drawGlyphsBody src off n (begun (.drawGlyphs src off n) s) = .ok () t :=
    (whenReady_ready (s := begun (.drawGlyphs src off n) s) ready _).trans drawn
  refine ⟨_, runDriver_ok live body, ?_, by simpa using lastCol, moved.curRow.trans curRow⟩
  have onWire := moved.sent (o := false) begunIdle (framed_glyphsOf _ _ _ _ _ _ _).1
  rw [sent_endOp, onWire, script]
  exact congrArg (· ++ _) (sent_begun _ s)

/-! ### The bytes and windows of a run -/

/-- The five bytes of a glyph lie side by side in their source (R40). -/
theorem glyphIndex_eq_first_add (base : BufBase) (src : Source) (off : Byte) (k j : Nat) :
    glyphIndex base src off k j = glyphIndex base src off k 0 + j := by
  cases src <;> cases base <;> rfl

/-- The bytes of a glyph are the five bytes of its source from its first index on, those off the end left out (R40). -/
theorem glyphBytes_eq_take_drop (src : Source) (off : Byte) (k : Nat) (s : State) :
    glyphBytes src off k s = ((sourceBytes src s).drop (glyphIndex s.cfg.bufBase src off k 0)).take 5 := by
  have fromFirst (bytes : List Byte) : [0, 1, 2, 3, 4].filterMap (fun j => bytes[j]?) = bytes.take 5 := by
    rcases bytes with _ | ⟨_, _ | ⟨_, _ | ⟨_, _ | ⟨_, _ | ⟨_, _⟩⟩⟩⟩⟩ <;> rfl
  rw [glyphBytes, ← fromFirst]
  congr 1
  funext j
  rw [glyphIndex_eq_first_add, List.getElem?_drop]

/-- A run of glyphs, glyph after glyph. -/
theorem glyphsOf_eq_flatMap (src : Source) (off : Byte) (s : State) (row : Byte) (m : Nat) (col : Byte) :
    glyphsOf src off s row m 0 col = (List.range m).flatMap fun k =>
      glyphOf s.par (blockAddressByte s) (col + BitVec.ofNat 8 k) row (glyphBytes src off k s) := by
  induction m with
  | zero => rfl
  | succ m ih => rw [glyphsOf_succ, ih, List.range_succ, List.flatMap_append, Nat.zero_add]; simp

theorem windowStart_eq (col : Byte) : windowStart col = 6#8 * (col - 1#8) := by
  revert col; decide

theorem windowEnd_eq (col : Byte) : windowEnd col = 6#8 * (col - 1#8) + 4#8 := by
  revert col; decide

theorem windowPage_eq (row : Byte) : windowPage row = row - 1#8 := by
  revert row; decide

/-! ### The label -/

/-- Settles O45: the bytes of glyph `k` are those of the store at 56 + 5k, and the store holds all ten glyphs. -/
theorem labelFromStore : Obligations.LabelFromStore := by
  intro s col row ds q can curCol curRow stored syms answers goesOn
  have script : glyphsOf .store 56#8 s row (10#8 : Byte).toNat 0 col = syms := by
    rw [glyphsOf_eq_flatMap]
    simp only [glyphBytes_eq_take_drop]
    rfl
  have inRange : GlyphsIn .store 56#8 (10#8 : Byte).toNat s := by
    intro k hk j hj
    have : k < 10 := hk
    simp only [glyphIndex, sourceBytes, BitVec.toNat_ofNat]
    omega
  rw [← script] at answers ⊢
  obtain ⟨t, ran, onWire, lastCol, -⟩ := exec_drawGlyphs_done can curCol curRow inRange answers goesOn
  exact ⟨t, ran, onWire, lastCol⟩

/-! ### A glyph at a position -/

/-- The state after `SET_POSITION` in `READY` (R98). -/
def positioned (x y : Byte) (s : State) : State :=
  endOp .none { begun (.setPosition x y) s with curCol := some x, curRow := some y }

theorem exec_setPosition_ready {s : State} (x y : Byte) (live : Live s) (ready : s.dstate = .ready) :
    exec (.setPosition x y) s = .next (positioned x y s) :=
  runDriver_ok (res := noResult) live (whenReady_ready (s := begun (.setPosition x y) s) ready _)

theorem atIdle_endOp {s : State} (r : Result) (idle : AtIdle s) : AtIdle (endOp r s) :=
  ⟨busOk_endOp r idle.1, idle.2⟩

theorem canSend_positioned {s : State} (x y : Byte) (can : CanSend s) : CanSend (positioned x y s) := by
  obtain ⟨live, idle, ready⟩ := can
  have begunIdle : AtIdle { begun (.setPosition x y) s with curCol := some x, curRow := some y } :=
    atIdle_begun (.setPosition x y) idle
  exact ⟨live, atIdle_endOp .none begunIdle, ready⟩

theorem sent_positioned (x y : Byte) (s : State) : sent (positioned x y s).trace = sent s.trace :=
  (sent_endOp _ _).trans (sent_begun (.setPosition x y) s)

/-- Settles O44: `SET_POSITION` leaves a bus the glyph can be drawn on and the cursor at (x, y); with offset 0 the glyph is
the first five bytes of the buffer under either base. -/
theorem positionThenGlyph : Obligations.PositionThenGlyph := by
  intro s x y b0 b1 b2 b3 b4 more ds q can buffer ab syms answers goesOn
  have index : glyphIndex (positioned x y s).cfg.bufBase .buffer 0#8 0 0 = 0 := by
    cases (positioned x y s).cfg.bufBase <;> rfl
  have source : sourceBytes .buffer (positioned x y s) = b0 :: b1 :: b2 :: b3 :: b4 :: more := buffer
  have bytes : glyphBytes .buffer 0#8 0 (positioned x y s) = [b0, b1, b2, b3, b4] := by
    rw [glyphBytes_eq_take_drop, index, source]
    rfl
  have script : glyphsOf .buffer 0#8 (positioned x y s) y (1#8 : Byte).toNat 0 x = syms := by
    change glyphOf s.par ab x y (glyphBytes .buffer 0#8 0 (positioned x y s)) ++ [] = syms
    rw [List.append_nil, bytes, glyphOf, windowStart_eq, windowEnd_eq, windowPage_eq]
  have inRange : GlyphsIn .buffer 0#8 (1#8 : Byte).toNat (positioned x y s) := by
    intro k hk j hj
    obtain rfl : k = 0 := Nat.lt_one_iff.mp hk
    rw [glyphIndex_eq_first_add, index, source]
    simp only [List.length_cons]
    omega
  obtain ⟨u, drawn, onWire, lastCol, lastRow⟩ := exec_drawGlyphs_done (canSend_positioned x y can) rfl rfl inRange
    (by rw [script]; exact answers) goesOn
  rw [script, sent_positioned] at onWire
  exact ⟨_, u, exec_setPosition_ready x y can.1 can.2.2, drawn, onWire, lastCol, lastRow⟩

end Sys2Proof.Machine
end

section
/-! PROOFS. A data byte at the reference slave (45_controller_reference R115). -/

namespace Sys2Proof.Machine

/-! ### `WRITE_BYTE` where a byte begins -/

/-- What the slave answers once a request has begun is what it answers before it (R86). -/
theorem answerByte_beginOp (i : Instr) (byte : Option Byte) (s : State) :
    answerByte byte (beginOp i s) =
      (answerSide s.par byte (sideOf s)).map fun (d, p) => (d, withSide p (beginOp i s)) := by
  have sides : answerSide (beginOp i s).par byte (sideOf (beginOp i s)) = answerSide s.par byte (sideOf s) := rfl
  rw [answerByte_eq, sides]
  cases answerSide s.par byte (sideOf s) <;> rfl

/-- The request `WRITE_BYTE` where a byte begins, the slave answering `d` (R75, R86). -/
theorem exec_writeByte_answered {s : State} {v : Byte} {d : SDrive} {p : Side} (live : Live s) (place : AtByte s)
    (answer : answerSide s.par (some v) (sideOf s) = .ok (d, p)) :
    exec (.writeByte v) s =
      .next (endOp (.ack (d == .low)) (afterByte v d (withSide p (beginOp (.writeByte v) s)))) := by
  have answered : answerByte (some v) (beginOp (.writeByte v) s) = .ok (d, withSide p (beginOp (.writeByte v) s)) := by
    rw [answerByte_beginOp, answer]; rfl
  exact runBus_ok live (writeByteBody_ok v (atByte_beginOp _ place) answered)

/-- The request `WRITE_BYTE` of a byte the slave refuses: the bits are sent and the mark is set (R116, R124). -/
theorem exec_writeByte_refused {s : State} {v : Byte} {r : ControllerReason} (live : Live s) (place : AtByte s)
    (answer : answerSide s.par (some v) (sideOf s) = .error r) :
    exec (.writeByte v) s =
      .next (refuse (.controllerUnmodelled r) (afterBits (bitsMsb v) (beginOp (.writeByte v) s))) := by
  have refused : answerByte (some v) (beginOp (.writeByte v) s) = .error r := by
    rw [answerByte_beginOp, answer]; rfl
  exact runBus_halted live (writeByteBody_refused v (atByte_beginOp _ place) refused)

/-- In a data stream the reference slave acknowledges every byte it takes (R110, R111). -/
theorem answerSide_dataStream {par : Params} {p : Side} (v : Byte) (reference : par.slave = .reference)
    (stream : p.ctl.phase = .dataStream) :
    answerSide par (some v) p = (dataByte v p.ctl).map fun d => (.low, { p with ctl := d }) := by
  simp only [answerSide, controllerTakes, controllerDrive, reference, controllerByte, stream, ackDrive]
  cases dataByte v p.ctl <;> rfl

/-! ### The byte in the frame buffer -/

/-- The pointer of the invariant is a byte of the frame buffer (R108). -/
theorem gddramHas_pointer {c : Controller} (window : WindowOk c) : gddramHas c.page c.col = true := by
  obtain ⟨-, col, colEnd, -, page, pageEnd⟩ := window
  exact gddramHas_iff.2 ⟨page.trans_lt pageEnd, col.trans_lt colEnd⟩

/-- One byte of the frame buffer written, by page and column (R115). -/
theorem gddramRead_write {c d : Controller} {q y : Nat} {v : Byte} (inside : gddramHas q y = true)
    (wrote : d.gddram = memWrite c.gddram (gddramAddr q y) v) (p x : Nat) :
    gddramRead d p x = if p = q ∧ x = y then some v else gddramRead c p x := by
  by_cases has : gddramHas p x = true
  · have sameByte : gddramAddr p x = gddramAddr q y ↔ p = q ∧ x = y :=
      ⟨gddramAddr_inj has inside, fun ⟨hp, hx⟩ => by rw [hp, hx]⟩
    have read := memRead_memWrite c.gddram (gddramAddr q y) (gddramAddr p x) v
    rw [← wrote] at read
    split at read
    next here => rw [if_pos (sameByte.1 here), gddramRead_written has read]
    next elsewhere => rw [if_neg (mt sameByte.2 elsewhere), gddramRead_congr read]
  · have elsewhere : ¬ (p = q ∧ x = y) := fun ⟨hp, hx⟩ => has (by rw [hp, hx, inside])
    rw [if_neg elsewhere, gddramRead_outside has, gddramRead_outside has]

/-- The pointer moved on: its column, its page, and the frame buffer as it was (R115). -/
theorem advancePointer_fields (c : Controller) :
    (advancePointer c).gddram = c.gddram ∧
      (advancePointer c).col = (if c.col = c.colEnd then c.colStart else c.col + 1) ∧
      (advancePointer c).page =
        (if c.col = c.colEnd then (if c.page = c.pageEnd then c.pageStart else c.page + 1) else c.page) := by
  unfold advancePointer
  split <;> exact ⟨rfl, rfl, rfl⟩

theorem dataByte_not_horizontal {c : Controller} (v : Byte) (other : c.addrMode ≠ .horizontal) :
    dataByte v c = .error .addressingMode := if_pos other

/-- Settles O57: in a data stream the slave's answer is what `DataByte` makes of the byte, which writes at the pointer and
moves it in horizontal addressing, and refuses in any other mode. -/
theorem dataByteWritten : Obligations.DataByteWritten := by
  intro s v live place reference stream ⟨_, window, _, _⟩
  have inside : gddramHas s.ctl.page s.ctl.col = true := gddramHas_pointer window
  have answer := answerSide_dataStream (p := sideOf s) v reference stream
  by_cases horizontal : s.ctl.addrMode = .horizontal
  · obtain ⟨buffer, col, page⟩ :=
      advancePointer_fields { s.ctl with gddram := memWrite s.ctl.gddram (gddramAddr s.ctl.page s.ctl.col) v }
    have taken : dataByte v (sideOf s).ctl = .ok _ := dataByte_ok horizontal inside
    rw [taken] at answer
    exact ⟨_, exec_writeByte_answered live place answer,
      fun _ => ⟨live, fun p x _ _ => gddramRead_write inside buffer p x, col, page⟩,
      fun other => absurd horizontal other⟩
  · have refused : dataByte v (sideOf s).ctl = .error .addressingMode := dataByte_not_horizontal v horizontal
    rw [refused] at answer
    exact ⟨_, exec_writeByte_refused live place answer, fun h => absurd h horizontal, fun _ => rfl⟩

end Sys2Proof.Machine
end

section
/-! PROOFS. `CLEAR` at the reference slave (45_controller_reference R119). -/

namespace Sys2Proof.Machine

theorem nacked_replicate_low (n : Nat) : nacked (List.replicate n .low) = false := by
  simp [nacked]

/-- An operation that ends in `READY` with no mark and no open transfer leaves a bus the next one can begin on, since every
operation keeps the bus in order (R77). -/
theorem canSend_of_exec {i : Instr} {s t : State} (ok : BusOk s) (ran : exec i s = .next t) (live : Live t)
    (idle : t.frame = .idle) (ready : t.dstate = .ready) : CanSend t :=
  ⟨live, ⟨(exec_held (D := False) ⟨ok, False.elim⟩ ran).1, idle⟩, ready⟩

/-- The panel lies inside the frame buffer (R11, D19). -/
theorem panel_fits (shape : Shape) :
    0 < panelWidth shape ∧ panelWidth shape ≤ 128 ∧ 0 < panelPages shape ∧ panelPages shape ≤ 8 := by
  cases shape <;> decide

theorem toNat_u8_pred {n : Nat} (positive : 0 < n) (byte : n ≤ 256) : (u8 ((n : Int) - 1)).toNat = n - 1 := by
  rw [show ((n : Int) - 1) = ((n - 1 : Nat) : Int) by omega]
  simp only [u8, BitVec.ofInt_natCast, BitVec.toNat_ofNat]
  omega

/-- The reference slave between transfers with its two windows set, the pointer at their first column and page (R114). -/
def withWindows (firstCol lastCol firstPage lastPage : Nat) (c : Controller) : Controller :=
  { c with
    colStart := firstCol, colEnd := lastCol, col := firstCol
    pageStart := firstPage, pageEnd := lastPage, page := firstPage, phase := .waitStart }

/-- Two windows set and then one data transfer at the reference slave (R112 to R115). -/
theorem slaveRun_windows_data {par : Params} {p : Side} {c0 c1 p0 p1 : Byte} {vs : List Byte} {d : Controller}
    (reference : par.slave = .reference) (opcodes : par.cmdColwin = 0x21#8 ∧ par.cmdPagewin = 0x22#8)
    (pending : p.ctl.pending = none) (columns : c0.toNat ≤ c1.toNat ∧ c1.toNat < 128)
    (pages : p0.toNat ≤ p1.toNat ∧ p1.toNat < 8)
    (taken : takeData vs (withWindows c0.toNat c1.toNat p0.toNat p1.toNat p.ctl) = .ok d) :
    slaveRun par (windowsOf par (addressByteOf par.slaveAddr7) c0 c1 p0 p1 ++
        dataOf (addressByteOf par.slaveAddr7) vs) p =
      .ok (List.replicate (vs.length + 20) .low, { p with ctl := { d with phase := .waitStart } }) := by
  have windows := slaveRun_commands_from reference (parse_windows pending columns pages)
  have run := slaveRun_append windows (slaveRun_data reference taken)
  rw [← List.replicate_add] at run
  rw [windowsOf, opcodes.1, opcodes.2, ← commandsOf_append]
  refine run.trans ?_
  congr 3
  simp only [List.length_cons, List.length_nil]
  omega

/-- The transfers of a clear zero the panel, byte after byte of each page, and bring the pointer back to (0, 0) (R119). -/
theorem slaveRun_clear {s : State} (paired : Paired s) (opcodes : DefaultWindows s) (drawable : Drawable s) :
    ∃ d, slaveRun s.par (clearOf s) (sideOf s) =
        .ok (List.replicate (clearCount s.cfg.shape + 20) .low, { sideOf s with ctl := d }) ∧
      d.page = 0 ∧ d.col = 0 ∧
      Drew d fun p x =>
        if p < panelPages s.cfg.shape ∧ x < panelWidth s.cfg.shape then some 0#8 else gddramRead s.ctl p x := by
  obtain ⟨pending, horizontal⟩ := drawable
  obtain ⟨width, widthMax, pages, pagesMax⟩ := panel_fits s.cfg.shape
  have lastCol := toNat_u8_pred width (by omega)
  have lastPage := toNat_u8_pred pages (by omega)
  obtain ⟨m, taken, zeroed⟩ := takeData_zeros (w := panelWidth s.cfg.shape) (P := panelPages s.cfg.shape)
    (r := panelPages s.cfg.shape)
    (c := withWindows 0 (panelWidth s.cfg.shape - 1) 0 (panelPages s.cfg.shape - 1) s.ctl)
    horizontal ⟨width, widthMax⟩ pagesMax ⟨pages, Nat.le_refl _⟩ rfl rfl rfl rfl rfl (Nat.sub_self _).symm
  have run := slaveRun_windows_data (p := sideOf s) (c0 := 0#8) (p0 := 0#8) paired.1 opcodes pending
    ⟨Nat.zero_le _, by rw [lastCol]; omega⟩ ⟨Nat.zero_le _, by rw [lastPage]; omega⟩
    (by rw [lastCol, lastPage]; exact taken)
  rw [List.length_replicate, paired.2] at run
  refine ⟨_, run, rfl, rfl, pending, horizontal, fun p x => ?_⟩
  by_cases has : gddramHas p x = true
  · obtain ⟨hp, hx⟩ := gddramHas_iff.1 has
    have read := zeroed p x hp hx
    simp only [Nat.sub_self, Nat.zero_le, true_and] at read
    split at read
    next panel => rw [if_pos panel]; exact gddramRead_written has read
    next beside => rw [if_neg beside]; exact gddramRead_congr read
  · have beside : ¬ (p < panelPages s.cfg.shape ∧ x < panelWidth s.cfg.shape) := fun ⟨hp, hx⟩ =>
      has (gddramHas_iff.2 ⟨hp.trans_le pagesMax, hx.trans_le widthMax⟩)
    rw [if_neg beside, gddramRead_outside has, gddramRead_outside has]

/-- Settles O60: the slave acknowledges every byte of the clear, so the operation runs to its end with the slave as those
transfers leave it. -/
theorem clearZeroesPanel : Obligations.ClearZeroesPanel := by
  intro s can paired opcodes drawable
  obtain ⟨d, answers, page, col, drew⟩ := slaveRun_clear paired opcodes drawable
  have acked := nacked_replicate_low (clearCount s.cfg.shape + 20)
  have ran := exec_clear_done can answers (.inl acked)
  obtain ⟨live, idle, ready⟩ := can
  exact ⟨_, ran, canSend_of_exec idle.1 ran live rfl ready, ⟨drew.pending, drew.addrMode⟩, acked, drew.read, page, col⟩

end Sys2Proof.Machine
end

section
/-! PROOFS. A run of glyphs in the frame buffer of the reference slave (45_controller_reference R117, R118). -/

namespace Sys2Proof.Machine

/-- A run of glyphs every byte of which is acknowledged: it ends ready to send, with status `OK`, the cursor past its last
glyph and the slave as the transfers leave it (R102). -/
theorem exec_drawGlyphs_acked {s : State} {src : Source} {off n col row : Byte} {ds : List SDrive} {q : Side}
    (can : CanSend s) (curCol : s.curCol = some col) (curRow : s.curRow = some row)
    (inRange : GlyphsIn src off n.toNat s)
    (answers : slaveRun s.par (glyphsOf src off s row n.toNat 0 col) (sideOf s) = .ok (ds, q))
    (acked : nacked ds = false) :
    ∃ t, exec (.drawGlyphs src off n) s = .next t ∧ CanSend t ∧ t.opNack = false ∧ t.curCol = some (col + n) ∧
      t.ctl = q.ctl := by
  obtain ⟨live, idle, ready⟩ := can
  have script : glyphsOf src off (begun (.drawGlyphs src off n) s) row n.toNat 0 col =
      glyphsOf src off s row n.toNat 0 col :=
    glyphsOf_kept (s := s) (t := begun (.drawGlyphs src off n) s) rfl rfl rfl src off row _ _ _
  have source : sourceBytes src (begun (.drawGlyphs src off n) s) = sourceBytes src s := sourceBytes_kept rfl rfl src
  have answers' : slaveRun s.par (glyphsOf src off (begun (.drawGlyphs src off n) s) row n.toNat 0 col) (sideOf s) =
      .ok (ds, q) := script ▸ answers
  obtain ⟨t, drawn, moved, atIdle, -, lastCol⟩ := drawGlyphsFrom_done (atIdle_begun (.drawGlyphs src off n) idle)
    curCol curRow (fun k hk j hj => by rw [source, Nat.zero_add]; exact inRange k hk j hj) answers' (.inl acked)
  have ran := runDriver_ok (clause := noAbortClause) (res := statusResult) live
    ((whenReady_ready (s := begun (.drawGlyphs src off n) s) ready _).trans drawn)
  have liveEnd : Live t := ⟨moved.fault.trans live.1, moved.refused.trans live.2⟩
  exact ⟨_, ran, canSend_of_exec (i := .drawGlyphs src off n) idle.1 ran liveEnd atIdle.2 (moved.dstate.trans ready),
    moved.opNack.trans acked, by simpa using lastCol, congrArg Side.ctl (sideOf_of_moved moved answers')⟩

/-- Bit `r` of a byte of the frame buffer is the pixel of row `8·p + r` (R117). -/
theorem pixel_page_row (c : Controller) (x p : Nat) {r : Nat} (inPage : r < 8) :
    pixel c x (8 * p + r) = (gddramRead c p x).map fun v => v.getLsbD r := by
  rw [pixel, show (8 * p + r) / 8 = p by omega, show (8 * p + r) % 8 = r by omega]

/-- Settles O59: the reference slave acknowledges every byte of the run, and its frame buffer holds each glyph in its own
window, six columns after the one before. -/
theorem glyphLands : Obligations.GlyphLands := by
  intro s src off n col row can paired opcodes drawable curCol curRow someGlyph inRange windowsFit pageFits page cs
  have drawsOne : n.toNat ≠ 0 := fun zero => someGlyph (BitVec.eq_of_toNat_eq zero)
  have bytes : ∀ k < n.toNat, (glyphBytes src off k s).length = 5 := fun k hk => glyphBytes_length (inRange k hk)
  obtain ⟨d, answers, drawn⟩ := slaveRun_glyphs (p := sideOf s) (src := src) (off := off) (k := 0) paired opcodes
    drawable.1 drawable.2 windowsFit pageFits (by simpa only [Nat.zero_add] using bytes)
  obtain ⟨t, ran, canEnd, acked, lastCol, rfl⟩ :=
    exec_drawGlyphs_acked can curCol curRow inRange answers (nacked_replicate_low _)
  have start : ∀ k < n.toNat, cs k = (windowStart col).toNat + 6 * k := windowStart_run windowsFit
  have landed : ∀ k < n.toNat, ∀ j < 5, gddramRead t.ctl page (cs k + j) = (glyphBytes src off k s)[j]? := by
    intro k hk j hj
    rw [start k hk, drawn.inside k hk j hj, Nat.zero_add]
  refine ⟨t, ran, canEnd, ⟨drawn.pending, drawn.addrMode⟩, acked, lastCol, fun k hk => ⟨bytes k hk, fun j hj => ?_⟩,
    fun p x beside => ?_, drawn.page drawsOne, ?_⟩
  · exact ⟨landed k hk j hj, fun r hr => by rw [pixel_page_row _ _ _ hr, landed k hk j hj]⟩
  · exact drawn.outside p x fun onPage k hk => start k hk ▸ beside onPage k hk
  · rw [drawn.col drawsOne, start (n.toNat - 1) (by omega)]

end Sys2Proof.Machine
end

section
/-! PROOFS. The two round trips of an encoded operation (30_encoding R54 to R57, R60, R61) and of the configuration word
(10_state R26, R27). -/

namespace Sys2Proof

/-! ### Operations -/

/-- Settles O2: the decoder reads the four fields the code was put together from, and the operand fields give the operands
back. -/
theorem decodeOfEncode : Obligations.DecodeOfEncode := by
  intro i
  cases i with
  | writeBit b =>
    obtain ⟨bit, reserved⟩ := bitByte_getLsbD b
    simp [decode, encode, decodeWord, bit, reserved, -BitVec.getLsbD_eq_getElem]
  | drawGlyphs src off n =>
    obtain ⟨bit, reserved⟩ := bitByte_getLsbD (sourceBit src)
    simp [decode, encode, decodeWord, bit, reserved, sourceOf_sourceBit, -BitVec.getLsbD_eq_getElem]
  | addressByte a =>
    obtain ⟨writeBit, address⟩ := addressByte_field a
    simp only [decode, encode, decodeWire, writeBit, address, Bool.false_eq_true, if_false]
  | ctrlCmd => rfl
  | ctrlData => rfl
  | _ => simp [decode, encode, decodeWord]

/-- A request word that decodes is put together from the fields its operation is encoded with (R54, R55). -/
theorem encode_of_decodeWord {w : Word} {i : Instr} (decoded : decodeWord w = some i) : encode i = .word w := by
  have listed : fieldOpc w ∈ tableOpcodes := by
    by_contra unlisted
    rw [(illegal_of_opcode_notMem unlisted).1] at decoded
    cases decoded
  have fields := packWord_fields w
  simp only [tableOpcodes, bareOpcodes, List.cons_append, List.nil_append, List.mem_cons, List.not_mem_nil,
    or_false] at listed
  obtain opc | opc | opc | opc | opc | opc | opc | opc | opc | opc | opc := listed
  all_goals
    simp [decodeWord, opc, -BitVec.getLsbD_eq_getElem] at decoded
    obtain ⟨reserved, rfl⟩ := decoded
    simp_all [encode, bitByte_bit, sourceBit_sourceOf, -BitVec.getLsbD_eq_getElem]

/-- A wire byte that decodes is the byte of its operation (R60, R61). -/
theorem encode_of_decodeWire {role : WireRole} {b : Byte} {i : Instr} (decoded : decodeWire role b = some i) :
    encode i = .wire role b := by
  cases role with
  | address =>
    simp only [decodeWire, Option.ite_none_left_eq_some, Option.some.injEq, Bool.not_eq_true] at decoded
    obtain ⟨writeBit, rfl⟩ := decoded
    simp only [encode, addressByte_bits b writeBit]
  | control =>
    simp only [decodeWire] at decoded
    split at decoded
    next command => cases decoded; rw [command]; rfl
    next =>
      split at decoded
      next data => cases decoded; rw [data]; rfl
      next => cases decoded

/-- The wire bytes the decoder refuses are those the tables do not give (R60, R61). -/
theorem decodeWire_eq_none_iff (role : WireRole) (b : Byte) :
    decodeWire role b = none ↔ wireByteLegal role b = false := by
  cases role with
  | address => simp [decodeWire, wireByteLegal]
  | control =>
    simp only [decodeWire, wireByteLegal, Bool.or_eq_false_iff, beq_eq_false_iff_ne]
    split
    next command => simp [command]
    next other => split <;> simp_all

/-- Settles O3: words and wire bytes apart, the fields determine the code, and both sides ask for the same reserved bits. -/
theorem encodeOfDecode : Obligations.EncodeOfDecode := by
  refine ⟨fun c i decoded => ?_, fun c => ?_⟩
  · cases c with
    | word w => exact encode_of_decodeWord decoded
    | wire role b => exact encode_of_decodeWire decoded
  · cases c with
    | word w => exact decodeWord_eq_none_iff w
    | wire role b => exact decodeWire_eq_none_iff role b

/-- Settles O1: each of the words and bytes is written out, and the decoder evaluates. -/
theorem sampleCodesDecode : Obligations.SampleCodesDecode := by
  unfold Obligations.SampleCodesDecode
  decide

/-! ### The configuration word -/

/-- The code of a shape in `CFG[9:8]` (R26). -/
def shapeField (shape : Shape) : BitVec 2 :=
  match shape with
  | .s128x32 => 0#2
  | .s128x64 => 1#2
  | .s96x16 => 2#2

/-- A word that holds a configuration, field by field (R26). -/
structure HoldsCfg (w : BitVec 16) (c : Cfg) : Prop where
  addr7     : w.extractLsb' 0 7 = c.addr7
  zero7     : w.getLsbD 7 = false
  shape     : w.extractLsb' 8 2 = shapeField c.shape
  power     : w.getLsbD 10 = (c.power == .externalVcc)
  ackPolicy : w.getLsbD 11 = (c.ackPolicy == .abort)
  highScl   : w.getLsbD 12 = (c.highScl == .drive)
  highSda   : w.getLsbD 13 = (c.highSda == .drive)
  bufBase   : w.getLsbD 14 = (c.bufBase == .fromZero)
  zero15    : w.getLsbD 15 = false

theorem holdsCfg_encodeCfg (c : Cfg) : HoldsCfg (encodeCfg c) c := by
  constructor
  case addr7 =>
    apply BitVec.eq_of_getLsbD_eq
    intro i hi
    simp only [encodeCfg, BitVec.getLsbD_extractLsb', BitVec.getLsbD_append]
    simp [hi]
  case shape =>
    apply BitVec.eq_of_getLsbD_eq
    intro i hi
    simp only [encodeCfg, BitVec.getLsbD_extractLsb', BitVec.getLsbD_append]
    obtain rfl | rfl : i = 0 ∨ i = 1 := by omega
    all_goals cases c.shape <;> simp [shapeField]
  all_goals
    simp only [encodeCfg, BitVec.getLsbD_append]
    simp

/-- The fields leave no bit of the word open. -/
theorem HoldsCfg.unique {w v : BitVec 16} {c : Cfg} (hw : HoldsCfg w c) (hv : HoldsCfg v c) : w = v := by
  apply BitVec.eq_of_getLsbD_eq
  intro i hi
  have address := congrArg (·.getLsbD i) (hw.addr7.trans hv.addr7.symm)
  have shape := congrArg (·.getLsbD (i - 8)) (hw.shape.trans hv.shape.symm)
  simp only [BitVec.getLsbD_extractLsb'] at address shape
  obtain low | rfl | ⟨from8, below10⟩ | rfl | rfl | rfl | rfl | rfl | rfl :
      i < 7 ∨ i = 7 ∨ (8 ≤ i ∧ i < 10) ∨ i = 10 ∨ i = 11 ∨ i = 12 ∨ i = 13 ∨ i = 14 ∨ i = 15 := by omega
  · simpa [low] using address
  · rw [hw.zero7, hv.zero7]
  · have within : i - 8 < 2 := by omega
    simpa [within, from8] using shape
  · rw [hw.power, hv.power]
  · rw [hw.ackPolicy, hv.ackPolicy]
  · rw [hw.highScl, hv.highScl]
  · rw [hw.highSda, hv.highSda]
  · rw [hw.bufBase, hv.bufBase]
  · rw [hw.zero15, hv.zero15]

/-- A field of two values is read back from the bit that says whether it is the one of them. -/
theorem ite_eq_of_two {α : Type} [DecidableEq α] {x y : α} (a : α) (two : a = x ∨ a = y) :
    (if (a == x) = true then x else y) = a := by
  obtain rfl | rfl := two
  · simp
  · split
    next same => exact (eq_of_beq same).symm
    next => rfl

/-- The bit that selects one of two values says whether it selected the one of them. -/
theorem eq_ite_beq {α : Type} [DecidableEq α] {x y : α} (two : y ≠ x) (bit : Bool) :
    bit = ((if bit = true then x else y) == x) := by
  cases bit <;> simp [two]

/-- A word decodes to the configuration it holds. -/
theorem decodeCfg_of_holds {w : BitVec 16} {c : Cfg} (h : HoldsCfg w c) : decodeCfg w = some c := by
  obtain ⟨addr7, zero7, shape, power, ackPolicy, highScl, highSda, bufBase, zero15⟩ := h
  obtain ⟨a, sh, p, k, hc, hd, bb⟩ := c
  simp only at addr7 shape power ackPolicy highScl highSda bufBase
  simp only [decodeCfg, zero7, zero15, power, ackPolicy, highScl, highSda, bufBase, addr7]
  rw [ite_eq_of_two p (by cases p <;> decide), ite_eq_of_two k (by cases k <;> decide),
    ite_eq_of_two hc (by cases hc <;> decide), ite_eq_of_two hd (by cases hd <;> decide),
    ite_eq_of_two bb (by cases bb <;> decide)]
  cases sh <;> simp [shape, shapeField]

theorem holds_of_decodeCfg {w : BitVec 16} {c : Cfg} (decoded : decodeCfg w = some c) : HoldsCfg w c := by
  have legal : decodeCfg w ≠ none := by simp [decoded]
  rw [Ne, decodeCfg_eq_none_iff, not_or, not_or] at legal
  obtain ⟨zero7, zero15, noShape⟩ := legal
  simp only [decodeCfg, zero7, zero15, or_self] at decoded
  obtain shape | shape | shape | shape := shapeField_cases (w.extractLsb' 8 2)
  case inr.inr.inr => exact absurd shape noShape
  all_goals
    simp [shape] at decoded
    subst decoded
    exact ⟨rfl, by simpa using zero7, shape, eq_ite_beq (by decide) _, eq_ite_beq (by decide) _, eq_ite_beq (by decide) _,
      eq_ite_beq (by decide) _, eq_ite_beq (by decide) _, by simpa using zero15⟩

/-- A word decodes to a configuration exactly when it holds it (R26, R27). -/
theorem decodeCfg_eq_some_iff {w : BitVec 16} {c : Cfg} : decodeCfg w = some c ↔ HoldsCfg w c :=
  ⟨holds_of_decodeCfg, decodeCfg_of_holds⟩

end Sys2Proof

namespace Sys2Proof.Machine

/-- Settles O5: the word of a configuration is the one word that holds it, and construction takes the configuration to its
reset state. -/
theorem configWordRoundTrip : Obligations.ConfigWordRoundTrip := by
  have decodes (c : Cfg) : decodeCfg (encodeCfg c) = some c := decodeCfg_of_holds (holdsCfg_encodeCfg c)
  refine ⟨decodes, fun w c decoded => ?_, fun c par => ?_⟩
  · exact (holdsCfg_encodeCfg c).unique (holds_of_decodeCfg decoded)
  · rw [State.construct, decodes, Option.map_some]

end Sys2Proof.Machine
end

section
/-! PROOFS. One step (00_scope R9, 60_exceptions R125, R134, R135) and the end of a run (70_reset_and_hazards R147). -/

namespace Sys2Proof.Machine

/-- A step at a waiting code of the tables is the operation's meaning (R134). -/
theorem step_known {s : State} {e : Entry} {rest : List Entry} {i : Instr} (live : Live s)
    (waiting : s.queue = e :: rest) (known : decode e.code = some i) : step s = exec i (issue e rest s) := by
  rw [step, whenLive_live live, nextRequest]
  simp only [waiting, known]

/-- Settles O6: a placed instruction is the head of the queue, and a step runs the head of the queue. -/
theorem stepRunsRequest : Obligations.StepRunsRequest := by
  refine ⟨fun s e rest i live waiting known => step_known live waiting known, fun s nbits w i live known => ?_⟩
  exact (step_known (s := s.withFetchWord nbits w) (e := ⟨codeOfTable nbits w, []⟩) live rfl known)

/-- An operation leads on only from a state with no mark (R125). -/
theorem live_of_exec {i : Instr} {s t : State} (ran : exec i s = .next t) : Live s := by
  cases i with
  | busInit => exact (runBus_next ran).1
  | start => exact (runBus_next ran).1
  | writeBit b => exact (runBus_next ran).1
  | readAck => exact (runBus_next ran).1
  | writeByte v => exact (runBus_next ran).1
  | stop => exact (runBus_next ran).1
  | sendCommand c => exact (runDriver_next ran).1
  | init => exact (runDriver_next ran).1
  | setPosition col row => exact (runDriver_next ran).1
  | drawGlyphs src off n => exact (runDriver_next ran).1
  | clear => exact (runDriver_next ran).1
  | addressByte a => exact (runWireByte_next ran).1
  | ctrlCmd => exact (runWireByte_next ran).1
  | ctrlData => exact (runWireByte_next ran).1

/-- With no request waiting the block waits (R135; log 8). -/
theorem step_waits {s : State} (live : Live s) (empty : s.queue = []) : step s = .next s := by
  rw [step, whenLive_live live, nextRequest]
  simp only [empty]

/-- A run of the host's list that sets no mark takes every request of it. -/
theorem runOf_takes {cfg : Cfg} {par : Params} {q : List Entry} {answers : List SDrive} {t : State}
    (ran : runOf cfg par q answers = .next t) (live : Live t) : t.queue = [] ∧ t.mpc = 0 := by
  obtain ⟨taken, between⟩ := run_takes (s := boot cfg par q answers) rfl ran live
  exact ⟨taken.trans (List.drop_length (l := q)), between⟩

/-- Settles O7: `whenLive` guards every operation and the step, and a run takes one request a step. -/
theorem stepsThatRunNothing : Obligations.StepsThatRunNothing := by
  refine ⟨fun s t i marked => ⟨fun stepped => marked (step_next stepped).1, fun ran => marked (live_of_exec ran)⟩,
    fun s live empty => step_waits live empty, fun cfg par q answers t ran => ⟨runOf_takes ran, ?_, ?_⟩⟩
  · rintro ⟨-, -, live, -, closed⟩
    exact ⟨live, closed⟩
  · rintro ⟨live, closed⟩
    obtain ⟨ended, between⟩ := runOf_takes ran live
    exact ⟨ran, ended, live, between, closed⟩

end Sys2Proof.Machine
end

section
/-! PROOFS. What every step keeps: the bus invariant (41_bus R77), the stable data line (R78), and the invariant of the
reference slave (45_controller_reference R108). -/

namespace Sys2Proof.Machine

/-- A step keeps what waiting, the mark of an illegal word and every operation keep; taking a request from the queue is no
change a property of the bus or of the slave sees. -/
theorem step_keeps {P : State → Prop} (issued : ∀ e rest s, P s → P (issue e rest s))
    (refused : ∀ r s, P s → P (refuse r s)) (ran : ∀ i s t, P s → exec i s = .next t → P t) {s t : State} (h : P s)
    (stepped : step s = .next t) : P t := by
  obtain ⟨-, ⟨-, rfl⟩ | ⟨w, e, rest, -, -, -, rfl⟩ | ⟨e, rest, i, -, -, running⟩⟩ := step_next stepped
  · exact h
  · exact refused _ _ h
  · exact ran i _ _ (issued e rest s h) running

theorem step_held {D : Prop} {s t : State} (h : Held D s) (stepped : step s = .next t) : Held D t :=
  step_keeps (P := Held D) (fun _ _ _ h => h) (fun _ _ h => h) (fun _ _ _ h ran => exec_held h ran) h stepped

/-- Settles O11: every operation keeps the bus in order, and none drives a line high whose high is a release. -/
theorem busInvariantKept : Obligations.BusInvariantKept :=
  ⟨fun _ _ ok stepped => (step_held (D := False) ⟨ok, False.elim⟩ stepped).1,
    fun _ _ release stepped => step_keeps (P := ReleaseOk) (fun _ _ _ h => h) (fun _ _ h => h)
      (fun _ _ _ h ran => (exec_coreKept ran).release h) release stepped⟩

/-- Settles O12: nobody drives a line at reset and nothing has been recorded; the slave's own reset state is in order. -/
theorem invariantsAtReset : Obligations.InvariantsAtReset := by
  intro cfg par
  obtain ⟨ok, stable⟩ := held_reset (D := True) cfg par
  have released : Drive.hiz ≠ .high := by decide
  exact ⟨ok, ⟨fun _ => released, fun _ => released⟩, stable trivial, controllerOk_reset⟩

/-- Settles O13: on a bus in order every piece of an operation records edges that keep the data line stable. -/
theorem dataStableKept : Obligations.DataStableKept := fun _ _ ok stable stepped =>
  (step_held (D := True) ⟨ok, fun _ => stable⟩ stepped).2 trivial

/-- What every step keeps, every run keeps. -/
theorem run_keeps {P : State → Prop} (keeps : ∀ s t, P s → step s = .next t → P t) {n : Nat} {s t : State} (h : P s)
    (ran : Host.Core.run core n s = .next t) : P t := by
  induction n generalizing s with
  | zero => cases ran; exact h
  | succ n ih =>
    obtain ⟨u, stepped, rest⟩ := run_first ran
    exact ih (keeps s u h stepped) rest

/-- Settles O14: a run begins at reset, with the bus in order and no event, and every step keeps both. -/
theorem everyTraceDataStable : Obligations.EveryTraceDataStable := by
  intro cfg par q answers n t ran
  have atBoot : Held True (boot cfg par q answers) := held_reset cfg par
  exact (run_keeps (P := Held True) (fun _ _ => step_held) atBoot ran).2 trivial

/-- Settles O15: what an operation does to the slave is what the slave reads, and each thing it reads keeps its
invariant. -/
theorem slaveInvariantKept : Obligations.SlaveInvariantKept := fun _ _ ok stepped =>
  step_keeps (P := fun s => ControllerOk s.ctl) (fun _ _ _ h => h) (fun _ _ h => h)
    (fun _ _ _ h ran => (exec_coreKept ran).ctlOk h) ok stepped

end Sys2Proof.Machine
end

section
/-! PROOFS. What a request leaves unchanged: the writers of 10_state R21 to R31, the frame of the bus operations, and the
marks (60_exceptions R124). -/

namespace Sys2Proof.Machine

variable {α β : Type}

/-! ### Who writes what -/

theorem execSetPosition_dstate {col row : Byte} {s t : State} (ran : execSetPosition col row s = .next t) :
    t.dstate = s.dstate := by
  refine runDriver_kept (R := fun s t => t.dstate = s.dstate) (fun h k => k.trans h) (fun h => h.dstate) (fun u => ?_)
    (fun _ => rfl) ran
  unfold setPositionBody whenReady
  split <;> exact rfl

/-- What each operation can write of the session, by the four kinds there are (R28, R29). -/
inductive SessionKept (s t : State) : Instr → Prop where
  | init (kept : InitKept s t) : SessionKept s t .init
  | setPosition (col row : Byte) (dstate : t.dstate = s.dstate) : SessionKept s t (.setPosition col row)
  | drawGlyphs (src : Source) (off n : Byte) (kept : DrawKept s t) : SessionKept s t (.drawGlyphs src off n)
  | other (i : Instr) (kept : SendKept s t) : SessionKept s t i

theorem exec_sessionKept {i : Instr} {s t : State} (ran : exec i s = .next t) : SessionKept s t i := by
  cases i with
  | busInit => exact .other _ (runBus_lineKept busInitBody_kept ran).toSendKept
  | start => exact .other _ (runBus_lineKept startBody_kept ran).toSendKept
  | writeBit b => exact .other _ (runBus_lineKept (writeBitBody_kept b) ran).toSendKept
  | readAck => exact .other _ (runBus_kept readAckBody_kept ran).toSendKept
  | writeByte v => exact .other _ (runBus_kept (writeByteBody_kept v) ran).toSendKept
  | stop => exact .other _ (runBus_lineKept stopBody_kept ran).toSendKept
  | sendCommand c => exact .other _ (execSendCommand_kept ran)
  | init => exact .init (execInit_kept ran)
  | setPosition col row => exact .setPosition col row (execSetPosition_dstate ran)
  | drawGlyphs src off n => exact .drawGlyphs src off n (execDrawGlyphs_kept ran)
  | clear => exact .other _ (execClear_kept ran)
  | addressByte a => exact .other _ (runWireByte_kept (wb_kept _) ran)
  | ctrlCmd => exact .other _ (runWireByte_kept (wb_kept _) ran)
  | ctrlData => exact .other _ (runWireByte_kept (wb_kept _) ran)

/-- Settles O16: the core is kept by every operation, and the session by all but the operation of that name. -/
theorem onlyTheirWriters : Obligations.OnlyTheirWriters := by
  intro i s t ran
  have core := exec_coreKept ran
  refine ⟨⟨core.cfg, core.par, core.slScl, core.queue, core.buf, core.trace⟩, ?_⟩
  cases exec_sessionKept ran with
  | init kept => exact ⟨fun _ => kept.curRow, fun _ _ => kept.curCol, fun other => absurd rfl other⟩
  | setPosition col row dstate =>
    exact ⟨fun other => absurd rfl (other col row), fun other _ => absurd rfl (other col row), fun _ => dstate⟩
  | drawGlyphs src off n kept =>
    exact ⟨fun _ => kept.curRow, fun _ other => absurd rfl (other src off n), fun _ => kept.dstate⟩
  | other i kept => exact ⟨fun _ => kept.curRow, fun _ _ => kept.curCol, fun _ => kept.dstate⟩

/-! ### The framing state -/

/-- A piece that leaves the framing state as it was, however it ends (R24). -/
abbrev KeepsFrame (r : Flow α) (s : State) : Prop := r.All (fun t => t.frame = s.frame)

theorem KeepsFrame.andThen {r : Flow α} {f : State → Flow β} {s : State} (hr : KeepsFrame r s)
    (hf : ∀ t, KeepsFrame (f t) t) : KeepsFrame (r.andThen f) s :=
  Flow.All.andThen (R := fun s t => t.frame = s.frame) (fun h k => k.trans h) hr hf

theorem KeepsFrame.bind {r : Flow α} {f : α → State → Flow β} {s : State} (hr : KeepsFrame r s)
    (hf : ∀ a t, KeepsFrame (f a t) t) : KeepsFrame (r.bind f) s :=
  Flow.All.bind (R := fun s t => t.frame = s.frame) (fun h k => k.trans h) hr hf

@[simp] theorem recordEdge_frame (old : Bool) (l : Line) (s : State) : (recordEdge old l s).frame = s.frame := by
  unfold recordEdge
  split <;> rfl

theorem setLine_keepsFrame (l : Line) (m : Drive) (s : State) : KeepsFrame (setLine l m s) s := by
  simp only [setLine]
  split
  · exact setDriver_frame l m s
  · exact (recordEdge_frame _ l _).trans (setDriver_frame l m s)

theorem settle_keepsFrame (s : State) : KeepsFrame (settle s) s := rfl

theorem raiseClock_keepsFrame (s : State) : KeepsFrame (raiseClock s) s := by
  refine KeepsFrame.andThen ?_ fun t => setLine_keepsFrame .scl _ t
  unfold slaveClocked
  split
  · exact rfl
  · split <;> exact rfl

theorem ackSlotOpen_keepsFrame (s : State) : KeepsFrame (ackSlotOpen s) s := by
  unfold ackSlotOpen
  split
  · exact rfl
  · rename_i d t answered
    obtain ⟨p, -, rfl⟩ := answerSide_of answered
    exact recordEdge_frame _ .sda _

theorem slaveRelease_keepsFrame (s : State) : KeepsFrame (slaveRelease s) s := recordEdge_frame _ .sda _

theorem writeBitBody_keepsFrame (b : Bool) (s : State) : KeepsFrame (writeBitBody b s) s := by
  have data : KeepsFrame (setData b s) s := by rw [setData_eq]; exact setLine_keepsFrame _ _ _
  unfold writeBitBody
  split
  · exact rfl
  · exact ((((data.andThen settle_keepsFrame).andThen raiseClock_keepsFrame).andThen settle_keepsFrame).andThen
      (setLine_keepsFrame .scl .low)).andThen settle_keepsFrame

theorem writeBits_keepsFrame (bs : List Bool) (s : State) : KeepsFrame (writeBits bs s) s := by
  induction bs generalizing s with
  | nil => exact rfl
  | cons b rest ih => exact (writeBitBody_keepsFrame b s).andThen ih

theorem readAckBody_keepsFrame (s : State) : KeepsFrame (readAckBody s) s := by
  unfold readAckBody
  split
  · exact rfl
  · refine KeepsFrame.bind ((((ackSlotOpen_keepsFrame s).andThen settle_keepsFrame).andThen
      fun t => setLine_keepsFrame .scl _ t).andThen settle_keepsFrame |>.andThen fun _ => rfl) fun v t => ?_
    exact (((setLine_keepsFrame .scl .low t).andThen slaveRelease_keepsFrame).andThen settle_keepsFrame).andThen
      fun _ => rfl

theorem writeByteBody_keepsFrame (v : Byte) (s : State) : KeepsFrame (writeByteBody v s) s := by
  unfold writeByteBody
  split
  · exact rfl
  · exact (writeBits_keepsFrame _ s).andThen readAckBody_keepsFrame

theorem runBus_frame {i : Instr} {body : State → Flow α} {res : α → Result} {s t : State}
    (keeps : ∀ u, KeepsFrame (body u) u) (ran : runBus i body res s = .next t) : t.frame = s.frame := by
  have kept := keeps (beginOp i s)
  obtain ⟨-, ⟨a, u, ended, rfl⟩ | ended | ended⟩ := runBus_next ran
  all_goals rw [ended] at kept; exact kept

/-- Settles O17: the operations without an ACK slot keep what `LineKept` lists, the two with one what `BusKept` does, and
no piece of the three named last writes the framing state. -/
theorem busOperationFrame : Obligations.BusOperationFrame := by
  intro s t
  refine ⟨fun i listed ran => ?_, fun i acked ran => ?_, fun i inside ran => ?_⟩
  · have kept : LineKept s t := by
      simp only [List.mem_cons, List.not_mem_nil, or_false] at listed
      obtain rfl | rfl | rfl | rfl | rfl := listed
      · exact runBus_lineKept busInitBody_kept ran
      · exact runBus_lineKept startBody_kept ran
      · exact runBus_lineKept (writeBitBody_kept false) ran
      · exact runBus_lineKept (writeBitBody_kept true) ran
      · exact runBus_lineKept stopBody_kept ran
    exact ⟨kept.lastAck, kept.slSda, kept.slaveIn, kept.draws, kept.opNack, kept.dstate, kept.curCol, kept.curRow⟩
  · have kept : BusKept s t := by
      obtain rfl | ⟨v, rfl⟩ := acked
      · exact runBus_kept readAckBody_kept ran
      · exact runBus_kept (writeByteBody_kept v) ran
    exact ⟨kept.opNack, kept.dstate, kept.curCol, kept.curRow⟩
  · obtain rfl | ⟨v, rfl⟩ | ⟨b, rfl⟩ := inside
    · exact runBus_frame readAckBody_keepsFrame ran
    · exact runBus_frame (writeByteBody_keepsFrame v) ran
    · exact runBus_frame (writeBitBody_keepsFrame b) ran

/-! ### Marks -/

/-- From a live state, a piece that ends with no mark of its own leaves a live state. -/
theorem Unmarked.live {s t : State} (h : Unmarked s t) (live : Live s) : Live t := by
  obtain ⟨-, fault, refused⟩ := h
  exact ⟨fault.trans live.1, refused.trans live.2⟩

/-- A request begun has added its `OpBegin` and set no mark. -/
theorem unmarked_beginOp (i : Instr) (s : State) : Unmarked s (beginOp i s) := unmarked_emit _ s (by simp)

theorem unmarked_begun (i : Instr) (s : State) : Unmarked s (begun i s) :=
  (unmarked_beginOp i s).trans (unmarked_same rfl rfl rfl)

theorem runBus_marked {i : Instr} {body : State → Flow α} {res : α → Result} {s t : State}
    (marks : ∀ u, Marks (body u) u) (ran : runBus i body res s = .next t) (stopped : ¬ Live t) : Marked s t := by
  have h := Marks.of (unmarked_beginOp i s) (marks (beginOp i s))
  obtain ⟨live, ⟨a, u, ended, rfl⟩ | ended | ended⟩ := runBus_next ran <;> rw [ended] at h
  · exact absurd (Unmarked.live h live) stopped
  · exact h
  · exact absurd (Unmarked.live h live) stopped

theorem runDriver_marked {i : Instr} {body : State → Flow Unit} {clause : State → State} {res : State → Result}
    {s t : State} (marks : ∀ u, Marks (body u) u) (silent : ∀ u, Live u → Live (clause u))
    (ran : runDriver i body clause res s = .next t) (stopped : ¬ Live t) : Marked s t := by
  have h := Marks.of (unmarked_begun i s) (marks (begun i s))
  obtain ⟨live, ⟨u, ended, rfl⟩ | ended | ⟨u, ended, rfl⟩⟩ := runDriver_next ran <;> rw [ended] at h
  · exact absurd (Unmarked.live h live) stopped
  · exact h
  · exact absurd (silent u (Unmarked.live h live)) stopped

theorem runWireByte_marked {body : State → Flow Unit} {s t : State} (marks : ∀ u, Marks (body u) u)
    (ran : runWireByte body s = .next t) (stopped : ¬ Live t) : Marked s t := by
  have h := marks s
  obtain ⟨live, ⟨u, ended, rfl⟩ | ended | ⟨u, ended, rfl⟩⟩ := runWireByte_next ran <;> rw [ended] at h
  · exact absurd (Unmarked.live h live) stopped
  · exact h
  · exact absurd (Unmarked.live h live) stopped

/-- An operation that ends in a mark stopped where it set it (R124). -/
theorem exec_marked {i : Instr} {s t : State} (ran : exec i s = .next t) (stopped : ¬ Live t) : Marked s t := by
  cases i with
  | busInit => exact runBus_marked busInitBody_marks ran stopped
  | start => exact runBus_marked startBody_marks ran stopped
  | writeBit b => exact runBus_marked (writeBitBody_marks b) ran stopped
  | readAck => exact runBus_marked readAckBody_marks ran stopped
  | writeByte v => exact runBus_marked (writeByteBody_marks v) ran stopped
  | stop => exact runBus_marked stopBody_marks ran stopped
  | sendCommand c => exact runDriver_marked (sendCommandBody_marks c) (fun _ h => h) ran stopped
  | init => exact runDriver_marked (clause := initAbortClause) initBody_marks (fun _ h => h) ran stopped
  | setPosition col row => exact runDriver_marked (setPositionBody_marks col row) (fun _ h => h) ran stopped
  | drawGlyphs src off n => exact runDriver_marked (drawGlyphsBody_marks src off n) (fun _ h => h) ran stopped
  | clear => exact runDriver_marked clearBody_marks (fun _ h => h) ran stopped
  | addressByte a => exact runWireByte_marked (wb_marks _) ran stopped
  | ctrlCmd => exact runWireByte_marked (wb_marks _) ran stopped
  | ctrlData => exact runWireByte_marked (wb_marks _) ran stopped

/-- Settles O19: the operation stopped at the piece that set the one mark, before any `OpEnd`. -/
theorem marksArePrecise : Obligations.MarksArePrecise := by
  intro i s t ran stopped
  obtain ⟨unfaulted, unrefused⟩ := live_of_exec ran
  obtain ⟨events, ⟨fault, refused⟩ | ⟨fault, refused⟩⟩ := exec_marked ran stopped
  · obtain ⟨r, fault⟩ := fault
    exact ⟨events, .inl ⟨r, fault, refused.trans unrefused⟩⟩
  · exact ⟨events, .inr ⟨fault.trans unfaulted, refused⟩⟩

end Sys2Proof.Machine
end

section
/-! PROOFS. The frame of the frame buffer (45_controller_reference R111, R115): which operations leave it, and the one byte the
others can write. -/

namespace Sys2Proof.Machine

variable {α : Type}

/-! ### What the slave makes of one byte -/

theorem controllerHears_gddram (k : SlaveKind) (i : Option Item) (c : Controller) :
    (controllerHears k i c).gddram = c.gddram := by
  unfold controllerHears
  split <;> rfl

theorem executeCommand_gddram {op : Byte} {args : List Byte} {c d : Controller}
    (executed : executeCommand op args c = .ok d) : d.gddram = c.gddram := by
  unfold executeCommand setColumns setPages at executed
  split at executed
  · split at executed <;> cases executed; rfl
  · split at executed
    · split at executed <;> cases executed; rfl
    · split at executed
      · split at executed <;> cases executed; rfl
      · split at executed
        · cases executed; rfl
        · split at executed <;> cases executed <;> rfl

theorem commandByte_gddram {v : Byte} {c d : Controller} (parsed : commandByte v c = .ok d) : d.gddram = c.gddram := by
  unfold commandByte at parsed
  split at parsed
  · split at parsed
    · cases parsed
    · exact executeCommand_gddram parsed
    · cases parsed; rfl
  · simp only at parsed
    split at parsed
    · cases parsed; rfl
    · exact (executeCommand_gddram parsed).trans rfl

/-- Outside a data stream a byte leaves the frame buffer (R111, R112). -/
theorem controllerByte_gddram {addr : BitVec 7} {v : Byte} {c d : Controller} (taken : controllerByte addr v c = .ok d)
    (outside : c.phase ≠ .dataStream) : d.gddram = c.gddram := by
  unfold controllerByte at taken
  split at taken
  · cases taken; rfl
  · split at taken
    · cases taken; rfl
    · split at taken <;> cases taken; rfl
  · exact commandByte_gddram taken
  next stream => exact absurd stream outside
  · cases taken; rfl
  · cases taken; rfl

/-- From `c` to `d` no byte of the frame buffer changed but the one at the pointer, and that one only where the reference
slave was reading data (R115). -/
def PointerOnly (par : Params) (c d : Controller) : Prop :=
  ∀ a, (par.slave = .reference → c.phase = .dataStream → a ≠ gddramAddr c.page c.col) →
    memRead d.gddram a = memRead c.gddram a

theorem pointerOnly_of_eq {par : Params} {c d : Controller} (same : d.gddram = c.gddram) : PointerOnly par c d :=
  fun _ _ => by rw [same]

theorem PointerOnly.hears {par : Params} {c d : Controller} (h : PointerOnly par c d) (k : SlaveKind) (i : Option Item) :
    PointerOnly par c (controllerHears k i d) :=
  fun a away => by rw [controllerHears_gddram]; exact h a away

theorem dataByte_writes {v : Byte} {c d : Controller} (taken : dataByte v c = .ok d) :
    d.gddram = memWrite c.gddram (gddramAddr c.page c.col) v := by
  unfold dataByte at taken
  split at taken
  · cases taken
  · split at taken
    · cases taken
      exact (advancePointer_fields _).1
    · cases taken

/-- One byte handed to the slave writes at the pointer at most (R115). -/
theorem pointerOnly_takes {par : Params} {byte : Option Byte} {c d : Controller}
    (taken : controllerTakes par byte c = .ok d) : PointerOnly par c d := by
  unfold controllerTakes at taken
  split at taken
  next v reference =>
    by_cases stream : c.phase = .dataStream
    · intro a away
      have wrote : dataByte v c = .ok d := by simpa only [controllerByte, stream] using taken
      rw [dataByte_writes wrote, memRead_memWrite, if_neg (away reference stream)]
    · exact pointerOnly_of_eq (controllerByte_gddram taken stream)
  · cases taken
    exact pointerOnly_of_eq rfl

/-! ### The bus operations that pulse the clock -/

/-- The slave of `u` is that of `s`, or has taken one byte since. -/
abbrev OneTaken (s u : State) : Prop := u.ctl = s.ctl ∨ ∃ byte, controllerTakes s.par byte s.ctl = .ok u.ctl

theorem OneTaken.pointerOnly {s u : State} (h : OneTaken s u) : PointerOnly s.par s.ctl u.ctl := by
  obtain same | ⟨byte, taken⟩ := h
  · exact pointerOnly_of_eq (by rw [same])
  · exact pointerOnly_takes taken

/-- After `n` pulses of an open transfer the slave has taken no byte, or one; and then fewer than `n` bits have been read
since, so that nine pulses hand over one byte at most (R81). -/
structure Pulsed (n : Nat) (s u : State) : Prop where
  busOk : BusOk u
  frame : u.frame = .opened
  par   : u.par = s.par
  taken : u.ctl = s.ctl ∨
    (∃ byte, controllerTakes s.par byte s.ctl = .ok u.ctl) ∧ (receiver u.trace).bits.length < n

theorem Pulsed.oneTaken {n : Nat} {s u : State} (h : Pulsed n s u) : OneTaken s u := h.taken.imp_right And.left

/-- What the ninth pulse of a byte would hand over, if a byte is pending. -/
theorem Pulsed.pending {n : Nat} {s u : State} (h : Pulsed n s u) (few : n ≤ 8) :
    u.ctl = s.ctl ∨ pendingByte (receiver u.trace) = none := by
  obtain same | ⟨-, short⟩ := h.taken
  · exact .inl same
  · exact .inr (by rw [pendingByte, if_neg (by omega)])

theorem controllerTakes_none (par : Params) (c : Controller) : controllerTakes par none c = .ok c := by
  unfold controllerTakes
  cases par.slave <;> rfl

/-- The byte handed over at a pulse among the first nine is the first one. -/
theorem Pulsed.oneTaken_takes {n : Nat} {s u : State} {c : Controller} (h : Pulsed n s u) (few : n ≤ 8)
    (takes : controllerTakes u.par (pendingByte (receiver u.trace)) u.ctl = .ok c) :
    c = s.ctl ∨ ∃ byte, controllerTakes s.par byte s.ctl = .ok c := by
  rw [h.par] at takes
  obtain same | none := h.pending few
  · exact .inr ⟨_, same ▸ takes⟩
  · rw [none, controllerTakes_none] at takes
    cases takes
    exact h.oneTaken

theorem writeBitBody_pulsed {n : Nat} {s u : State} (b : Bool) (h : Pulsed n s u) (few : n ≤ 8) :
    (writeBitBody b u).Ends (fun _ t => Pulsed (n + 1) s t) (OneTaken s) (OneTaken s) := by
  cases takes : clockTakes u with
  | error r =>
    rw [writeBitBody_refused b r h.busOk h.frame takes]
    exact h.oneTaken
  | ok c =>
    rw [writeBitBody_ok b c h.busOk h.frame takes]
    refine ⟨busOk_afterBit b c h.busOk h.frame, h.frame, h.par, ?_⟩
    rw [receiver_afterBit b c h.busOk h.frame]
    show c = s.ctl ∨ (∃ byte, controllerTakes s.par byte s.ctl = .ok c) ∧
      (nextBits (receiver u.trace).bits b).length < n + 1
    by_cases full : (receiver u.trace).bits.length = 8
    · have same : u.ctl = s.ctl := h.taken.resolve_right fun short => by omega
      refine .inr ⟨⟨pendingByte (receiver u.trace), ?_⟩, by simp [nextBits, full]⟩
      rw [clockTakes, h.par, same] at takes
      exact takes
    · rw [clockTakes_midByte full] at takes
      cases takes
      refine h.taken.imp_right fun ⟨byte, short⟩ => ⟨byte, ?_⟩
      simp only [nextBits, full, if_false, List.length_append, List.length_cons, List.length_nil]
      omega

theorem writeBits_pulsed {bs : List Bool} {n : Nat} {s u : State} (h : Pulsed n s u) (few : n + bs.length ≤ 8) :
    (writeBits bs u).Ends (fun _ t => Pulsed (n + bs.length) s t) (OneTaken s) (OneTaken s) := by
  induction bs generalizing n u with
  | nil => exact h
  | cons b rest ih =>
    rw [List.length_cons] at few ⊢
    refine Flow.Ends.andThen (writeBitBody_pulsed b h (by omega)) fun _ t pulsed => ?_
    have := ih pulsed (by omega)
    rwa [show n + 1 + rest.length = n + (rest.length + 1) by omega] at this

theorem readAckBody_oneTaken {n : Nat} {s u : State} (h : Pulsed n s u) (few : n ≤ 8) :
    (readAckBody u).All (OneTaken s) := by
  cases answered : slaveAnswer u with
  | error r =>
    rw [readAckBody_refused h.frame answered]
    exact h.oneTaken
  | ok dw =>
    obtain ⟨d, w⟩ := dw
    rw [readAckBody_ok h.busOk h.frame answered]
    obtain ⟨p, answer, rfl⟩ := answerSide_of answered
    exact h.oneTaken_takes few (answerSide_ctl answer)

theorem pulsed_begun {s : State} (i : Instr) (ok : BusOk s) (opened : s.frame = .opened) :
    Pulsed 0 s (beginOp i s) :=
  ⟨busOk_beginOp i ok, opened, rfl, .inl rfl⟩

theorem writeBitBody_pointerOnly {s : State} (b : Bool) (ok : BusOk s) :
    (writeBitBody b (beginOp (.writeBit b) s)).All fun u => PointerOnly s.par s.ctl u.ctl := by
  by_cases opened : s.frame = .opened
  · exact (writeBitBody_pulsed b (pulsed_begun _ ok opened) (by omega)).mono (fun _ _ h => h.oneTaken.pointerOnly)
      (fun _ h => h.pointerOnly) (fun _ h => h.pointerOnly)
  · rw [writeBitBody_framing (s := beginOp (.writeBit b) s) b opened]
    exact pointerOnly_of_eq rfl

theorem readAckBody_pointerOnly {s : State} (ok : BusOk s) :
    (readAckBody (beginOp .readAck s)).All fun u => PointerOnly s.par s.ctl u.ctl := by
  by_cases opened : s.frame = .opened
  · exact (readAckBody_oneTaken (pulsed_begun _ ok opened) (by omega)).mono fun _ h => h.pointerOnly
  · rw [readAckBody_framing (s := beginOp .readAck s) opened]
    exact pointerOnly_of_eq rfl

theorem writeByteBody_pointerOnly {s : State} (v : Byte) (ok : BusOk s) :
    (writeByteBody v (beginOp (.writeByte v) s)).All fun u => PointerOnly s.par s.ctl u.ctl := by
  by_cases opened : s.frame = .opened
  · rw [writeByteBody, if_neg (by exact not_not.2 opened)]
    have bits := writeBits_pulsed (bs := bitsMsb v) (pulsed_begun (.writeByte v) ok opened)
      (by rw [bitsMsb_length])
    have whole := Flow.Ends.andThen bits fun _ t pulsed => readAckBody_oneTaken pulsed (by rw [bitsMsb_length])
    exact Flow.All.mono whole fun _ h => h.pointerOnly
  · rw [writeByteBody_framing (s := beginOp (.writeByte v) s) v opened]
    exact pointerOnly_of_eq rfl

theorem stopBody_pointerOnly {s : State} (ok : BusOk s) :
    (stopBody (beginOp .stop s)).All fun u => PointerOnly s.par s.ctl u.ctl := by
  by_cases opened : s.frame = .opened
  · have begun := busOk_beginOp .stop ok
    cases takes : clockTakes (beginOp .stop s) with
    | error r =>
      rw [stopBody_refused r begun opened takes]
      exact pointerOnly_of_eq rfl
    | ok c =>
      rw [stopBody_ok c begun opened takes]
      exact (pointerOnly_takes takes).hears s.par.slave (some .stop)
  · rw [stopBody_framing (s := beginOp .stop s) opened]
    exact pointerOnly_of_eq rfl

/-! ### Transfers of command bytes -/

/-- What the slave is to keep through a run of symbols, wherever the run ends: `I` holds after each symbol, and after the
stop condition with which a NACK under `ABORT` closes the transfer (R88, R111). -/
def KeptAlong (par : Params) (I : Controller → Prop) : List Sym → Controller → Prop
  | [], c => I c
  | .start :: rest, c => I c ∧ KeptAlong par I rest (controllerHears par.slave (some .start) c)
  | .stop :: rest, c => I c ∧ KeptAlong par I rest (controllerHears par.slave (some .stop) c)
  | .byte v :: rest, c => I c ∧ ∀ d, controllerTakes par (some v) c = .ok d →
      I (controllerHears par.slave (some .stop) d) ∧ KeptAlong par I rest d

theorem KeptAlong.now {par : Params} {I : Controller → Prop} {syms : List Sym} {c : Controller}
    (h : KeptAlong par I syms c) : I c := by
  cases syms with
  | nil => exact h
  | cons x rest => cases x <;> exact h.1

/-- How `WB` of a byte leaves the slave: it has taken the byte, or refused it, or under `ABORT` has also heard the stop
condition (R88). -/
theorem wb_takes {s : State} (v : Byte) (place : AtByte s) :
    (wb v s).Ends (fun _ t => AtByte t ∧ t.par = s.par ∧ controllerTakes s.par (some v) s.ctl = .ok t.ctl)
      (fun t => t.ctl = s.ctl)
      (fun t => ∃ d, controllerTakes s.par (some v) s.ctl = .ok d ∧
        t.ctl = controllerHears s.par.slave (some .stop) d) := by
  cases answer : answerSide s.par (some v) (sideOf s) with
  | error r =>
    have refused : answerByte (some v) s = .error r := by rw [answerByte_eq, answer]
    rw [wb, writeByteBody_refused v place refused]
    exact rfl
  | ok dq =>
    obtain ⟨d, q⟩ := dq
    have taken := answerSide_ctl answer
    by_cases goesOn : d = .low ∨ s.cfg.ackPolicy = .ignore
    · obtain ⟨t, sent, moved, atByte⟩ := wb_ok place answer goesOn
      have side : sideOf t = q := sideOf_of_moved moved (by simp [slaveRun, answer])
      rw [sent]
      exact ⟨atByte, moved.par, by rw [← side] at taken; exact taken⟩
    · rw [not_or] at goesOn
      obtain ⟨nack, abort⟩ := goesOn
      have nack : d = .hiz := by cases d; exacts [absurd rfl nack, rfl]
      have abort : s.cfg.ackPolicy = .abort := (ackPolicy_cases s).resolve_left abort
      subst nack
      obtain ⟨t, cut, moved, -, -⟩ := runSyms_cut (o := true) (pre := []) (rest := []) (ds := []) (v := v) (q := q)
        place rfl (by simp [slaveRun, answer]) rfl abort
      have side : sideOf t = { q with ctl := controllerHears s.par.slave (some .stop) q.ctl } :=
        sideOf_of_moved moved (by simp [slaveRun, answer])
      have cut : wb v s = .aborted t := (Flow.andThen_ok_unit (wb v s)).symm.trans cut
      rw [cut]
      exact ⟨q.ctl, taken, congrArg Side.ctl side⟩

/-- What the slave keeps along a well framed run of symbols it keeps however the run ends. -/
theorem runSyms_keptAlong {I : Controller → Prop} {o : Bool} {syms : List Sym} {s : State} (place : AtPlace o s)
    (whole : framed o syms = true) (kept : KeptAlong s.par I syms s.ctl) :
    (runSyms syms s).All fun t => I t.ctl := by
  induction syms generalizing o s with
  | nil => exact kept
  | cons x rest ih =>
    cases x with
    | start =>
      cases o with
      | true => cases whole
      | false =>
        obtain ⟨started, -, place'⟩ := moved_start (s := s) place
        rw [runSyms, started]
        exact ih (o := true) (s := afterStart s) place' whole kept.2
    | stop =>
      cases o with
      | false => cases whole
      | true =>
        obtain ⟨stopped, -, place'⟩ := moved_stop (s := s) place
        rw [runSyms, stopped]
        exact ih (o := false) (s := afterStop s.ctl s) place' whole kept.2
    | byte v =>
      cases o with
      | false => cases whole
      | true =>
        refine Flow.Ends.andThen ((wb_takes v place).mono (fun _ _ h => h) (fun t same => ?_) fun t closed => ?_)
          fun _ t ⟨place', par, taken⟩ => ih (o := true) place' whole (par ▸ (kept.2 _ taken).2)
        · rw [same]; exact kept.1
        · obtain ⟨d, taken, heard⟩ := closed
          rw [heard]; exact (kept.2 d taken).1

theorem controllerTakes_free {par : Params} (free : par.slave = .free) (byte : Option Byte) (c : Controller) :
    controllerTakes par byte c = .ok c := by
  unfold controllerTakes
  rw [free]

/-- The unconstrained slave keeps whatever holds of the state it does not write (R111). -/
theorem keptAlong_free {par : Params} {I : Controller → Prop} (free : par.slave = .free) (syms : List Sym)
    {c : Controller} (now : I c) : KeptAlong par I syms c := by
  have deaf (i : Option Item) : controllerHears par.slave i c = c := by rw [free]; rfl
  induction syms with
  | nil => exact now
  | cons x rest ih =>
    cases x with
    | start => exact ⟨now, by rw [deaf]; exact ih⟩
    | stop => exact ⟨now, by rw [deaf]; exact ih⟩
    | byte v =>
      refine ⟨now, fun d taken => ?_⟩
      rw [controllerTakes_free free] at taken
      cases taken
      exact ⟨by rw [deaf]; exact now, ih⟩

/-- The address byte opens the transfer to this slave or closes it (R111). -/
theorem controllerByte_address {addr : BitVec 7} {v : Byte} {c d : Controller} (phase : c.phase = .addr)
    (taken : controllerByte addr v c = .ok d) : d.phase = .ctrl ∨ d.phase = .notMe := by
  simp only [controllerByte, phase, Except.ok.injEq] at taken
  subst taken
  by_cases mine : v = addressByteOf addr
  · exact .inl (if_pos mine)
  · exact .inr (if_neg mine)

/-- The control byte 0x00 opens a command stream (R111). -/
theorem controllerByte_ctrlCmd {addr : BitVec 7} {c d : Controller} (phase : c.phase = .ctrl ∨ c.phase = .notMe)
    (taken : controllerByte addr Config.ctrlCmd c = .ok d) : d.phase = .cmdStream ∨ d.phase = .notMe := by
  obtain phase | phase := phase
  · simp only [controllerByte, phase, if_true, Except.ok.injEq] at taken
    subst taken
    exact .inl rfl
  · simp only [controllerByte, phase, Except.ok.injEq] at taken
    subst taken
    exact .inr phase

/-- A command transfer keeps the frame buffer: its second byte makes the transfer a command stream, if it is this slave's
(R111, R112). -/
theorem keptAlong_command {par : Params} {m : List Host.Cell} {rest : List Sym} (ab x : Byte)
    (reference : par.slave = .reference)
    (after : ∀ d : Controller, d.gddram = m → KeptAlong par (fun c => c.gddram = m) rest d) {c : Controller}
    (now : c.gddram = m) : KeptAlong par (fun c => c.gddram = m) (commandOf ab x ++ rest) c := by
  have heard (i : Option Item) {d : Controller} (h : d.gddram = m) : (controllerHears par.slave i d).gddram = m :=
    (controllerHears_gddram _ _ _).trans h
  have byteTaken {v : Byte} {c d : Controller} (taken : controllerTakes par (some v) c = .ok d) :
      controllerByte par.slaveAddr7 v c = .ok d := by
    simpa only [controllerTakes, reference] using taken
  have started : (controllerHears par.slave (some .start) c).phase = .addr := by rw [reference]; rfl
  refine ⟨now, heard _ now, fun d1 address => ?_⟩
  have kept1 := (controllerByte_gddram (byteTaken address) (by rw [started]; decide)).trans (heard _ now)
  have phase1 := controllerByte_address started (byteTaken address)
  refine ⟨heard _ kept1, kept1, fun d2 control => ?_⟩
  have kept2 := (controllerByte_gddram (byteTaken control) (by obtain h | h := phase1 <;> rw [h] <;> decide)).trans kept1
  have phase2 := controllerByte_ctrlCmd phase1 (byteTaken control)
  refine ⟨heard _ kept2, kept2, fun d3 command => ?_⟩
  have kept3 := (controllerByte_gddram (byteTaken command) (by obtain h | h := phase2 <;> rw [h] <;> decide)).trans kept2
  exact ⟨heard _ kept3, kept3, after _ (heard _ kept3)⟩

/-- Command transfers keep the frame buffer, wherever they end. -/
theorem keptAlong_commands {par : Params} {m : List Host.Cell} (ab : Byte) (cs : List Byte) {c : Controller}
    (now : c.gddram = m) : KeptAlong par (fun c => c.gddram = m) (commandsOf ab cs) c := by
  cases slave : par.slave with
  | free => exact keptAlong_free slave _ now
  | reference =>
    induction cs generalizing c with
    | nil => exact now
    | cons x rest ih => exact keptAlong_command ab x slave (fun _ h => ih h) now

/-! ### The requests -/

theorem runSyms_commands_gddram {s : State} (ok : BusOk s) (ab c : Byte) (cs : List Byte) :
    (runSyms (commandsOf ab (c :: cs)) s).All fun t => t.ctl.gddram = s.ctl.gddram := by
  by_cases idle : s.frame = .idle
  · exact runSyms_keptAlong (o := false) ⟨ok, idle⟩ (framed_commandsOf ab (c :: cs)).1 (keptAlong_commands ab _ rfl)
  · have faulted : startBody s = .halted (raise (.framingViolation .start) s) := startBody_framing idle
    rw [commandsOf_cons, commandOf, transferOf, List.cons_append, List.cons_append, runSyms, faulted]
    exact rfl

theorem busInitBody_ctl {s : State} (ok : BusOk s) : (busInitBody s).All fun t => t.ctl = s.ctl := by
  by_cases opened : s.frame = .opened
  · rw [busInitBody_framing opened]; exact rfl
  · rw [busInitBody_ok ok opened]; exact rfl

theorem startBody_gddram {s : State} (ok : BusOk s) : (startBody s).All fun t => t.ctl.gddram = s.ctl.gddram := by
  by_cases idle : s.frame = .idle
  · rw [startBody_ok ok idle]; exact controllerHears_gddram _ _ _
  · rw [startBody_framing idle]; exact rfl

/-- What a bus operation's body does to the slave is what the request does to it (R86). -/
theorem runBus_ctl {P : Controller → Prop} {i : Instr} {body : State → Flow α} {res : α → Result} {s t : State}
    (run : (body (beginOp i s)).All fun u => P u.ctl) (ran : runBus i body res s = .next t) : P t.ctl := by
  obtain ⟨-, ⟨a, u, ended, rfl⟩ | ended | ended⟩ := runBus_next ran
  all_goals rw [ended] at run; exact run

theorem runDriver_ctl {P : Controller → Prop} {i : Instr} {body : State → Flow Unit} {clause : State → State}
    {res : State → Result} {s t : State} (silent : ∀ u, (clause u).ctl = u.ctl)
    (run : (body (begun i s)).All fun u => P u.ctl) (ran : runDriver i body clause res s = .next t) : P t.ctl := by
  obtain ⟨-, ⟨u, ended, rfl⟩ | ended | ⟨u, ended, rfl⟩⟩ := runDriver_next ran <;> rw [ended] at run
  · exact run
  · exact run
  · exact (congrArg P (silent u)).mpr run

theorem whenReady_all {P : Controller → Prop} {body : State → Flow Unit} {s : State} (now : P s.ctl)
    (run : (body s).All fun u => P u.ctl) : (whenReady body s).All fun u => P u.ctl := by
  unfold whenReady
  split
  · exact now
  · exact run

theorem busOk_begun {s : State} (i : Instr) (ok : BusOk s) : BusOk (begun i s) := busOk_beginOp i ok

theorem sendCommandBody_gddram {s : State} (c : Byte) (ok : BusOk s) :
    (sendCommandBody c s).All fun t => t.ctl.gddram = s.ctl.gddram := by
  refine whenReady_all (P := fun d => d.gddram = s.ctl.gddram) rfl ?_
  have run := runSyms_commands_gddram ok (blockAddressByte s) c []
  rw [commandsOf_cons, show commandsOf (blockAddressByte s) [] = [] from rfl, List.append_nil] at run
  rw [sendCommandTransfer_script]
  exact run

theorem initBody_gddram {s : State} (ok : BusOk s) : (initBody s).All fun t => t.ctl.gddram = s.ctl.gddram := by
  by_cases admitted : s.dstate = .configuring
  · rw [initBody, if_pos admitted]; exact rfl
  · obtain ⟨c, cs, sequence⟩ := initSeq_cons s.par.initBytes s.cfg.shape s.cfg.power
    have busOk : BusOk { s with dstate := .configuring } := ok
    rw [initBody_script admitted, scriptOf, sequence]
    exact Flow.Ends.andThen (runSyms_commands_gddram busOk _ c cs) fun _ _ h => h

theorem setPositionBody_gddram (col row : Byte) (s : State) :
    (setPositionBody col row s).All fun t => t.ctl.gddram = s.ctl.gddram :=
  whenReady_all (P := fun d => d.gddram = s.ctl.gddram) rfl rfl

/-- Settles O18: command bytes and conditions leave the frame buffer; nine pulses hand the slave one byte at most, which it
writes at the pointer or not at all. -/
theorem memoryFrame : Obligations.MemoryFrame := by
  intro s t ok
  refine ⟨fun i quiet ran => ?_, fun i pulses ran => ?_⟩
  · obtain rfl | rfl | ⟨c, rfl⟩ | rfl | ⟨col, row, rfl⟩ := quiet
    · have same := runBus_ctl (P := fun d => d = s.ctl) (busInitBody_ctl (busOk_beginOp .busInit ok)) ran
      rw [same]
    · exact runBus_ctl (P := fun d => d.gddram = s.ctl.gddram) (startBody_gddram (busOk_beginOp .start ok)) ran
    · exact runDriver_ctl (P := fun d => d.gddram = s.ctl.gddram) (fun _ => rfl)
        (sendCommandBody_gddram c (busOk_begun (.sendCommand c) ok)) ran
    · exact runDriver_ctl (P := fun d => d.gddram = s.ctl.gddram) (clause := initAbortClause) (fun _ => rfl)
        (initBody_gddram (busOk_begun .init ok)) ran
    · exact runDriver_ctl (P := fun d => d.gddram = s.ctl.gddram) (fun _ => rfl)
        (setPositionBody_gddram col row (begun (.setPosition col row) s)) ran
  · obtain rfl | rfl | ⟨v, rfl⟩ | ⟨b, rfl⟩ := pulses
    · exact runBus_ctl (P := PointerOnly s.par s.ctl) (readAckBody_pointerOnly ok) ran
    · exact runBus_ctl (P := PointerOnly s.par s.ctl) (stopBody_pointerOnly ok) ran
    · exact runBus_ctl (P := PointerOnly s.par s.ctl) (writeByteBody_pointerOnly v ok) ran
    · exact runBus_ctl (P := PointerOnly s.par s.ctl) (writeBitBody_pointerOnly b ok) ran

end Sys2Proof.Machine
end

section
/-! PROOFS. What the bus operations answer (41_bus R71 to R76): their results, their faults, and what a receiver reads of a
byte (R81). -/

namespace Sys2Proof.Machine

/-! ### Results -/

/-- Settles O20: from lines that are high nothing moves but the drivers and the two settle delays. -/
theorem busInitResult : Obligations.BusInitResult := fun _ live ok closed =>
  runBus_ok live (busInitBody_ok (busOk_beginOp .busInit ok) closed)

/-- Settles O21: on an idle bus both edges of the start condition are made. -/
theorem startResult : Obligations.StartResult := fun _ live idle => exec_start_idle live idle

/-- What the slave makes of a rising clock is the same once the request has begun (R86). -/
theorem clockTakes_beginOp (i : Instr) (s : State) : clockTakes (beginOp i s) = clockTakes s :=
  clockTakes_congr rfl rfl (by rw [receiver_beginOp])

/-- Only the ninth pulse of a byte hands the slave anything (R81; log 17). -/
theorem ctl_of_clockTakes {s : State} {c : Controller} (takes : clockTakes s = .ok c)
    (midByte : (receiver s.trace).bits.length ≠ 8) : c = s.ctl := by
  rw [clockTakes_midByte midByte] at takes
  exact (Except.ok.inj takes).symm

/-- Settles O22: one pulse of the clock after the data line is set, and the slave takes what the pulse completes. -/
theorem writeBitResult : Obligations.WriteBitResult := fun s b c live ok opened takes =>
  ⟨runBus_ok live (writeBitBody_ok b c (busOk_beginOp (.writeBit b) ok) opened
    ((clockTakes_beginOp (.writeBit b) s).trans takes)), ctl_of_clockTakes takes⟩

/-- Settles O25: the pulse of the stop condition is one the slave can take a byte at, as that of a data bit is. -/
theorem stopResult : Obligations.StopResult := fun s c live ok opened takes =>
  ⟨runBus_ok live (stopBody_ok c (busOk_beginOp .stop ok) opened ((clockTakes_beginOp .stop s).trans takes)),
    ctl_of_clockTakes takes⟩

/-- Settles O23: the answer to a begun request is the answer at the state before it. -/
theorem readAckResult : Obligations.ReadAckResult := by
  intro s d p live ok opened answer
  have answered : slaveAnswer (beginOp .readAck s) = .ok (d, withSide p (beginOp .readAck s)) := by
    rw [slaveAnswer, receiver_beginOp, answerByte_beginOp, answer]; rfl
  exact runBus_ok live (readAckBody_ok (busOk_beginOp .readAck ok) opened answered)

/-- Settles O24: both clauses are the request run to its end, where a byte begins and from any place in one. -/
theorem writeByteResult : Obligations.WriteByteResult :=
  ⟨fun _ _ _ _ live place answer => exec_writeByte_answered live place answer,
    fun _ _ _ _ _ live ok opened bits answer => exec_writeByte_from live ok opened bits answer⟩

/-! ### Faults and refusals -/

/-- Settles O26: each operation's check comes before its first micro-step. -/
theorem busOperationFaults : Obligations.BusOperationFaults := by
  intro s live
  refine ⟨fun opened => ?_, fun notIdle => ?_, fun idle busy => ?_, fun closed => ⟨fun b => ?_, ?_, fun v => ?_, ?_⟩⟩
  · exact runBus_halted live (busInitBody_framing (s := beginOp .busInit s) opened)
  · exact runBus_halted live (startBody_framing (s := beginOp .start s) notIdle)
  · exact runBus_halted live (startBody_faulted (startFault_busy (s := beginOp .start s) idle busy))
  · exact runBus_halted live (writeBitBody_framing (s := beginOp (.writeBit b) s) b closed)
  · exact runBus_halted live (readAckBody_framing (s := beginOp .readAck s) closed)
  · exact runBus_halted live (writeByteBody_framing (s := beginOp (.writeByte v) s) v closed)
  · exact runBus_halted live (stopBody_framing (s := beginOp .stop s) closed)

theorem wb_framing {s : State} (v : Byte) (closed : s.frame ≠ .opened) :
    wb v s = .halted (raise (.framingViolation .writeByte) s) := by
  rw [wb, writeByteBody_framing v closed]; rfl

/-- Settles O27: every driver operation that moves the lines begins with a `START`, before which nothing of the driver but
its own fields is written; a framing byte begins with a `WRITE_BYTE`. -/
theorem driverFramingFaults : Obligations.DriverFramingFaults := by
  intro s live
  refine ⟨fun r found => ?_, fun closed i wire => ?_⟩
  · have faulted : startFault s = some r := by
      obtain ⟨notIdle, rfl⟩ | ⟨idle, busy, rfl⟩ := found
      · exact startFault_framing notIdle
      · exact startFault_busy idle busy
    refine ⟨fun ready => ⟨fun c => ?_, fun src off n some => ?_, ?_⟩, fun admitted => ?_⟩
    · refine runDriver_halted live ((whenReady_ready (s := begun (.sendCommand c) s) ready _).trans ?_)
      exact sendCommandTransfer_faulted (s := begun (.sendCommand c) s) c faulted
    · exact runDriver_halted live (drawGlyphsBody_faulted (s := begun (.drawGlyphs src off n) s) src off some ready faulted)
    · exact runDriver_halted live (clearBody_faulted (s := begun .clear s) ready faulted)
    · exact runDriver_halted live (initBody_faulted (s := begun .init s) faulted admitted)
  · obtain ⟨a, rfl⟩ | rfl | rfl := wire
    all_goals exact runWireByte_halted live (wb_framing _ closed)

/-- A data line driven high against the slave's low (R22, R66; log 21). -/
theorem setLine_contention {s : State} (held : s.slSda = .low) :
    setLine .sda .high s = .halted (raise (.busContention .sda) { s with drvSda := .high }) := by
  have contends : contention (setDriver .sda .high s) .sda = true := by
    simp [contention, driver, slaveDriver, held]
  rw [setLine, if_pos contends]
  rfl

/-- Settles O28: the first micro-step of the bit drives the line high. -/
theorem contentionFaults : Obligations.ContentionFaults := by
  intro s live opened drives held
  have high : dataDrive (beginOp (.writeBit true) s).cfg true = .high := by
    simp [dataDrive, highDrive, drives]
  have body : writeBitBody true (beginOp (.writeBit true) s) =
      .halted (raise (.busContention .sda) { beginOp (.writeBit true) s with drvSda := .high }) := by
    rw [writeBitBody, if_neg (by exact not_not.2 opened), setData_eq, high,
      setLine_contention (s := beginOp (.writeBit true) s) held]
    rfl
  exact runBus_halted live body

/-- Settles O29: the eight bits take 48 micro-steps and the refusal writes its mark alone. -/
theorem refusedByteStops : Obligations.RefusedByteStops := by
  intro s v r live place answer
  refine ⟨_, exec_writeByte_refused live place answer, rfl, live.1, place.2.1, rfl, rfl, ?_⟩
  have request : requestOf (.writeByte v) s = { op := .writeByte v, buf := [] } := rfl
  have data : level (beginOp (.writeByte v) s) .sda = level s .sda := rfl
  simp [afterBits, request, data]

/-! ### What a receiver reads -/

theorem decodeTrace_beginOp (i : Instr) (s : State) : decodeTrace (beginOp i s).trace = decodeTrace s.trace := by
  rw [beginOp, emit_trace, decodeTrace_append]
  exact List.append_nil _

theorem decodeTrace_endOp (r : Result) (s : State) : decodeTrace (endOp r s).trace = decodeTrace s.trace := by
  rw [endOp_trace, decodeTrace_append]
  exact List.append_nil _

theorem receiver_endOp (r : Result) (s : State) : receiver (endOp r s).trace = receiver s.trace := by
  rw [endOp_trace, receiver_append]; rfl

/-- A byte sent where a byte begins is read as that byte (R58, R81). -/
theorem decodeTrace_afterByte {s : State} {v : Byte} {d : SDrive} (p : Side) (place : AtByte s) :
    decodeTrace (afterByte v d (withSide p s)).trace = decodeTrace s.trace ++ [.byte v (d == .hiz)] := by
  obtain ⟨ok, opened, noBits⟩ := place
  have data : level (withSide p s) .sda = (receiver s.trace).sda := ok.data.symm
  have trace : (withSide p s).trace = s.trace := rfl
  simp only [afterByte, data, trace, decodeTrace_append,
    decodeFrom_byteEvents _ v d (ok.rcvLow opened) (ok.active opened) noBits, releasedLevel_eq_beq_hiz]

/-- Settles O31: where a byte begins a receiver reads that byte; from any place in one, the nine bits of the request complete
one byte. -/
theorem byteReadFromTheWire : Obligations.ByteReadFromTheWire := by
  refine ⟨fun s v d p live place answer => ?_, fun s u v d p live ok opened bits answer => ?_⟩
  · have begun := atByte_beginOp (.writeByte v) place
    have answered : answerByte (some v) (beginOp (.writeByte v) s) = .ok (d, withSide p (beginOp (.writeByte v) s)) := by
      rw [answerByte_beginOp, answer]; rfl
    refine ⟨_, exec_writeByte_answered live place answer, ?_, atByte_endOp _ (atByte_afterByte v begun answered)⟩
    rw [decodeTrace_endOp, decodeTrace_afterByte p begun, decodeTrace_beginOp]
  · obtain ⟨busOk, decoded, left⟩ := byte_read (busOk_beginOp (.writeByte v) ok) opened bits answer
    refine ⟨_, exec_writeByte_from live ok opened bits answer, busOk_endOp _ busOk, ?_⟩
    rw [decodeTrace_beginOp, receiver_beginOp, releasedLevel_eq_beq_hiz] at decoded
    rw [receiver_beginOp, releasedLevel_eq_beq_hiz] at left
    rw [decodeTrace_endOp, receiver_endOp]
    exact ⟨decoded, left⟩

/-! ### The framing bytes -/

/-- `WB` whose answer lets the transfer go on: the byte sent, a NACK noted (R88, R89). -/
theorem wb_goesOn {s : State} {v : Byte} {d : SDrive} {p : Side} (place : AtByte s)
    (answer : answerSide s.par (some v) (sideOf s) = .ok (d, p)) (goesOn : d = .low ∨ s.cfg.ackPolicy = .ignore) :
    wb v s = .ok () { afterByte v d (withSide p s) with opNack := s.opNack || (d == .hiz) } := by
  obtain ⟨written, -, -⟩ := moved_byte place answer
  cases d with
  | low => simp [wb, written, afterByte, withSide]
  | hiz =>
    have ignore : (afterByte v .hiz (withSide p s)).cfg.ackPolicy = .ignore := goesOn.resolve_left (by decide)
    simp [wb, written, applyNackPolicy, ignore, noteNack]

/-- `WB` that a NACK ends under `ABORT`: the byte sent, the NACK noted, the transfer closed (R88, R89). -/
theorem wb_aborts {s : State} {v : Byte} {p : Side} (place : AtByte s)
    (answer : answerSide s.par (some v) (sideOf s) = .ok (.hiz, p)) (abort : s.cfg.ackPolicy = .abort) :
    wb v s = .aborted { afterStop p.ctl (afterByte v .hiz (withSide p s)) with opNack := true } := by
  obtain ⟨written, -, atByte⟩ := moved_byte place answer
  have abort : (afterByte v .hiz (withSide p s)).cfg.ackPolicy = .abort := abort
  obtain ⟨stopped, -, -⟩ := moved_stop (s := noteNack (afterByte v .hiz (withSide p s))) atByte
  simp only [wb, written, Flow.bind_ok, sdrive_hiz_beq_low, applyNackPolicy, abort, stopped, Flow.andThen_ok]
  rfl

/-- The three wire bytes are the `WB` of their byte (R60, R61; log 11). -/
theorem exec_wireByte {i : Instr} {v : Byte}
    (wire : (∃ a, i = .addressByte a ∧ v = a ++ 0#1) ∨ (i = .ctrlCmd ∧ v = 0x00#8) ∨ (i = .ctrlData ∧ v = 0x40#8))
    (s : State) : exec i s = runWireByte (wb v) s := by
  obtain ⟨a, rfl, rfl⟩ | ⟨rfl, rfl⟩ | ⟨rfl, rfl⟩ := wire <;> rfl

/-- Settles O33: the framing byte is the `WB` of the driver; an answer that lets the transfer go on leaves it open, and a NACK
under `ABORT` closes it. -/
theorem wireByteResult : Obligations.WireByteResult := by
  intro s d p i v live place wire answer
  rw [exec_wireByte wire]
  refine ⟨fun goesOn => runWireByte_ok live (wb_goesOn place answer goesOn), fun nack abort => ?_⟩
  subst nack
  exact runWireByte_aborted live (wb_aborts place answer abort)

end Sys2Proof.Machine
end

section
/-! PROOFS. What the driver operations answer when nothing cuts them short (42_driver R93 to R105), the operands they read
(R95, R99, R40), and the position (R98). -/

namespace Sys2Proof.Machine

/-! ### Operands -/

/-- Settles O38: the bytes depend on the shape in the COM argument and on the power mode in two more (R95). -/
theorem initSequenceBytes : Obligations.InitSequenceBytes := by
  refine ⟨initSeq_length, fun shape listed => ?_, fun shape power => ?_⟩
  · simp only [List.mem_cons, List.not_mem_nil, or_false] at listed
    obtain rfl | rfl := listed <;> rfl
  · cases shape <;> cases power <;> rfl

/-- The byte at an index of a source, or the fault of an index off its end (R40). -/
theorem glyphByte_eq (src : Source) (off : Byte) (k j : Nat) (s : State) :
    glyphByte src off k j s =
      if h : glyphIndex s.cfg.bufBase src off k j < (sourceBytes src s).length then
        .ok (sourceBytes src s)[glyphIndex s.cfg.bufBase src off k j]
      else .error (indexFault src (glyphIndex s.cfg.bufBase src off k j)) := by
  split
  next inside => exact glyphByte_ok inside
  next outside => exact glyphByte_error (Nat.le_of_not_lt outside)

theorem glyphIndex_buffer (base : BufBase) (off : Byte) (k j : Nat) :
    glyphIndex base .buffer off k j = if base = .withOffset then off.toNat + 5 * k + j else 5 * k + j := by
  cases base <;> rfl

/-- Settles O40: the windows are those of byte arithmetic, and the index of R40 is read from the selected source. -/
theorem windowOfCursor : Obligations.WindowOfCursor := by
  refine ⟨fun col => ⟨windowStart_eq col, windowEnd_eq col⟩, windowPage_eq, by decide, by decide, by decide, by decide,
    by decide, fun s off k j => ⟨glyphByte_eq .store off k j s, ?_⟩⟩
  rw [← glyphIndex_buffer]
  exact glyphByte_eq .buffer off k j s

/-! ### The position -/

/-- Settles O39: the one thing `SET_POSITION` does in `READY` is to store the cursor, and outside it to set the mark. -/
theorem setPositionResult : Obligations.SetPositionResult := by
  intro s col row live
  have request : requestOf (.setPosition col row) s = { op := .setPosition col row, buf := [] } := rfl
  refine ⟨fun ready => ?_, fun outside => ?_⟩
  · rw [exec_setPosition_ready col row live ready]
    simp [positioned, endOp, emit, begun, beginOp, request]
  · exact notReady_request (.setPosition col row) _ noResult live outside

/-! ### Transfers that go through -/

/-- The status is that of the answers since the request began (R30, R86). -/
theorem statusResult_afterTransfers (i : Instr) (syms : List Sym) (ds : List SDrive) (q : Side) (s : State) :
    statusResult (afterTransfers syms ds q (begun i s)) = .status (statusAfter ds) := rfl

/-- Settles O35: the body is one command transfer. -/
theorem sendCommandResult : Obligations.SendCommandResult := by
  intro s c ds q ⟨live, idle, ready⟩ answers goesOn
  have body := sendCommandBody_script (s := begun (.sendCommand c) s) c ready
  have sent := runSyms_after (atIdle_begun (.sendCommand c) idle) (framed_commandOf _ c) (commandOf_ne _ c) answers goesOn
  exact runDriver_ok (res := statusResult) live (body.trans sent)

/-- Settles O36: the body is the command transfers of the sequence, between two writes of the driver state. -/
theorem initResult : Obligations.InitResult := fun _ _ _ live idle admitted answers goesOn =>
  exec_init_done live idle admitted answers goesOn

/-- Settles O46: the body is the transfers of a clear. -/
theorem clearResult : Obligations.ClearResult := fun _ _ _ can answers goesOn => exec_clear_done can answers goesOn

/-- The begun request of a run of glyphs sends what the state before it would (R102). -/
theorem glyphsOf_begun (i : Instr) (src : Source) (off : Byte) (s : State) (row : Byte) (m k : Nat) (col : Byte) :
    glyphsOf src off (begun i s) row m k col = glyphsOf src off s row m k col :=
  glyphsOf_kept (s := s) (t := begun i s) rfl rfl rfl src off row m k col

theorem sourceBytes_begun (i : Instr) (src : Source) (s : State) : sourceBytes src (begun i s) = sourceBytes src s :=
  sourceBytes_kept rfl rfl src

theorem drawGlyphsBody_ready {s : State} (src : Source) (off n : Byte) (ready : s.dstate = .ready) :
    drawGlyphsBody src off n (begun (.drawGlyphs src off n) s) =
      drawGlyphsFrom src off n.toNat 0 (begun (.drawGlyphs src off n) s) :=
  whenReady_ready (s := begun (.drawGlyphs src off n) s) ready _

/-- Settles O41: the glyphs are drawn one after the other, and of the state after their transfers only the cursor column is
another. -/
theorem drawGlyphsResult : Obligations.DrawGlyphsResult := by
  intro s src off n col row ds q ⟨live, idle, ready⟩ someGlyph curCol curRow inRange answers goesOn
  have drawsOne : n.toNat ≠ 0 := fun zero => someGlyph (BitVec.eq_of_toNat_eq zero)
  have begunIdle := atIdle_begun (.drawGlyphs src off n) idle
  have answers' : slaveRun s.par (glyphsOf src off (begun (.drawGlyphs src off n) s) row n.toNat 0 col) (sideOf s) =
      .ok (ds, q) := by rw [glyphsOf_begun]; exact answers
  obtain ⟨t, drawn, moved, endIdle, released, lastCol⟩ := drawGlyphsFrom_done begunIdle curCol curRow
    (fun k hk j hj => by rw [sourceBytes_begun, Nat.zero_add]; exact inRange k hk j hj) answers' goesOn
  have result := moved.eq_after begunIdle endIdle (released drawsOne)
  rw [sideOf_of_moved moved answers', lastCol, glyphsOf_begun, BitVec.ofNat_toNat, BitVec.setWidth_eq] at result
  subst result
  exact runDriver_ok (res := statusResult) live ((drawGlyphsBody_ready src off n ready).trans drawn)

/-- A glyph with the cursor not set is not begun (R102, R126; log 27). -/
theorem drawGlyph_unset {s : State} (src : Source) (off : Byte) (k : Nat) (unset : s.curCol = none ∨ s.curRow = none) :
    drawGlyph src off k s = .halted (raise (cursorFault s) s) := by
  unfold drawGlyph
  split
  next col row curCol curRow =>
    rw [curCol, curRow] at unset
    obtain unset | unset := unset <;> cases unset
  · rfl

theorem cursorFault_idle {s : State} (idle : AtIdle s) : cursorFault s = .cursorUnset := by
  rw [cursorFault, startFault_idle idle]; rfl

/-- Settles O42: a run of no glyph is empty; the first glyph of any other finds the cursor not set, and on an idle bus `START`
has nothing to report before it. -/
theorem drawWithoutCursor : Obligations.DrawWithoutCursor := by
  intro s src off n live ready
  refine ⟨fun noGlyph => ?_, fun someGlyph idle unset => ?_⟩
  · subst noGlyph
    exact runDriver_ok (res := statusResult) live (drawGlyphsBody_ready src off 0#8 ready)
  · have drawsOne : n.toNat ≠ 0 := fun zero => someGlyph (BitVec.eq_of_toNat_eq zero)
    obtain ⟨m, count⟩ := Nat.exists_eq_succ_of_ne_zero drawsOne
    refine runDriver_halted live ((drawGlyphsBody_ready src off n ready).trans ?_)
    rw [count, drawGlyphsFrom, drawGlyph_unset (s := begun (.drawGlyphs src off n) s) src off 0 unset,
       cursorFault_idle (atIdle_begun _ idle)]; rfl

/-! ### An index off the end of its source -/

theorem stepsOf_commandsOf (ab : Byte) (cs : List Byte) : stepsOf (commandsOf ab cs) = 178 * cs.length := by
  induction cs with
  | nil => rfl
  | cons c rest ih =>
    rw [commandsOf_cons, stepsOf_append, ih, List.length_cons, show stepsOf (commandOf ab c) = 178 from rfl]
    omega

theorem stepsOf_bytes (vs : List Byte) : stepsOf (vs.map .byte) = 56 * vs.length := by
  induction vs with
  | nil => rfl
  | cons v rest ih => rw [List.map_cons, stepsOf, ih, List.length_cons]; omega

/-- The micro-steps of one glyph (R145). -/
theorem stepsOf_glyphOf (par : Params) (ab col row : Byte) {vs : List Byte} (five : vs.length = 5) :
    stepsOf (glyphOf par ab col row vs) = 1470 := by
  have data : dataOf ab vs = [.start, .byte ab, .byte Config.ctrlData] ++ (vs.map .byte ++ [.stop]) := by
    simp [dataOf, transferOf]
  simp only [glyphOf, data, stepsOf_append, stepsOf_commandsOf, stepsOf_bytes, five, stepsOf, List.length_cons,
    List.length_nil]

/-- The micro-steps of a glyph up to the bytes sent of it (R145). -/
theorem stepsOf_glyphOpenOf (par : Params) (ab col row : Byte) (vs : List Byte) :
    stepsOf (glyphOpenOf par ab col row vs) = 6 * 178 + 4 + 56 * (2 + vs.length) := by
  simp only [glyphOpenOf, stepsOf_append, stepsOf_commandsOf, stepsOf, stepsOf_bytes, List.length_cons, List.length_nil]
  omega

theorem stepsOf_glyphsOf {src : Source} {off row : Byte} {s : State} {m k : Nat} {col : Byte}
    (five : ∀ i < m, (glyphBytes src off (k + i) s).length = 5) : stepsOf (glyphsOf src off s row m k col) = 1470 * m := by
  induction m generalizing k col with
  | zero => rfl
  | succ m ih =>
    have rest := ih (k := k + 1) (col := nextColumn col) fun i hi => by
      rw [Nat.add_assoc, Nat.add_comm 1 i]; exact five (i + 1) (by omega)
    have first : (glyphBytes src off k s).length = 5 := five 0 (by omega)
    rw [glyphsOf, stepsOf_append, stepsOf_glyphOf _ _ _ _ first, rest]
    omega

/-- Where byte `j` is the first off the end, `j` bytes of the glyph are in its source (R40). -/
theorem glyphBytes_short_length {src : Source} {off : Byte} {k j : Nat} {s : State} (inGlyph : j < 5)
    (inside : ∀ j' < j, glyphIndex s.cfg.bufBase src off k j' < (sourceBytes src s).length)
    (outside : (sourceBytes src s).length ≤ glyphIndex s.cfg.bufBase src off k j) :
    (glyphBytes src off k s).length = j := by
  have first := glyphIndex_eq_first_add s.cfg.bufBase src off k
  rw [glyphBytes_eq_take_drop, List.length_take, List.length_drop]
  rw [first] at outside
  cases j with
  | zero => omega
  | succ j =>
    have last := inside j (by omega)
    rw [first] at last
    omega

/-- A run of glyphs and the beginning of one more are well framed (R102, R124). -/
theorem framed_glyphsOf_open (src : Source) (off row : Byte) (s : State) (m : Nat) (col col' : Byte) (vs : List Byte) :
    framed false (glyphsOf src off s row m 0 col ++ glyphOpenOf s.par (blockAddressByte s) col' row vs) = true := by
  obtain ⟨whole, closed⟩ := framed_glyphsOf src off s row m 0 col
  rw [framed_append, whole, closed]
  exact (framed_glyphOpenOf s.par (blockAddressByte s) col' row vs).1

/-- The body of a run of glyphs whose glyph `i` has its first index off the end at byte `j`. -/
theorem drawGlyphsBody_short {s : State} {src : Source} {off n col row : Byte} {i j : Nat} {ds : List SDrive} {q : Side}
    (can : CanSend s) (curCol : s.curCol = some col) (curRow : s.curRow = some row) (hi : i < n.toNat) (hj : j < 5)
    (before : GlyphsIn src off i s)
    (inside : ∀ j' < j, glyphIndex s.cfg.bufBase src off i j' < (sourceBytes src s).length)
    (outside : (sourceBytes src s).length ≤ glyphIndex s.cfg.bufBase src off i j)
    (answers : slaveRun s.par (glyphsOf src off s row i 0 col ++
      glyphOpenOf s.par (blockAddressByte s) (col + BitVec.ofNat 8 i) row (glyphBytes src off i s)) (sideOf s) = .ok (ds, q))
    (goesOn : GoesOn s ds) :
    ∃ t, drawGlyphsBody src off n (begun (.drawGlyphs src off n) s) =
        .halted (raise (indexFault src (glyphIndex s.cfg.bufBase src off i j)) t) ∧
      Moved (glyphsOf src off s row i 0 col ++
        glyphOpenOf s.par (blockAddressByte s) (col + BitVec.ofNat 8 i) row (glyphBytes src off i s)) ds
        { begun (.drawGlyphs src off n) s with curCol := t.curCol } t ∧
      AtByte t ∧ t.curCol = some (col + BitVec.ofNat 8 i) := by
  obtain ⟨m, count⟩ : ∃ m, n.toNat = i + (m + 1) := ⟨n.toNat - i - 1, by omega⟩
  have bytes (k : Nat) : glyphBytes src off k (begun (.drawGlyphs src off n) s) = glyphBytes src off k s := by
    rw [glyphBytes, sourceBytes_begun]; rfl
  obtain ⟨t, drawn, moved, place, lastCol⟩ := drawGlyphsFrom_fault (m := m) (k := 0)
    (atIdle_begun (.drawGlyphs src off n) can.2.1) curCol curRow hj
    (fun k hk j hj => by rw [sourceBytes_begun, Nat.zero_add]; exact before k hk j hj)
    (fun j' hj' => by rw [sourceBytes_begun, Nat.zero_add]; exact inside j' hj')
    (by rw [sourceBytes_begun, Nat.zero_add]; exact outside)
    (by rw [glyphsOf_begun, bytes, Nat.zero_add]; exact answers) goesOn
  rw [glyphsOf_begun, bytes, Nat.zero_add] at moved
  rw [Nat.zero_add, ← count] at drawn
  exact ⟨t, (drawGlyphsBody_ready src off n can.2.2).trans drawn, moved, place, lastCol⟩

/-- Settles O43: the glyphs before it are drawn whole, and of the glyph itself what comes before the byte. -/
theorem drawOffTheEnd : Obligations.DrawOffTheEnd := by
  intro s src off n col row i j ds q can curCol curRow hi hj before inside outside answers goesOn
  obtain ⟨t, body, moved, place, lastCol⟩ :=
    drawGlyphsBody_short can curCol curRow hi hj before inside outside answers goesOn
  have onWire := moved.sent (o := false) (atIdle_begun (.drawGlyphs src off n) can.2.1)
    (framed_glyphsOf_open src off row s i col _ _)
  have steps := moved.mpc
  have whole : ∀ k < i, (glyphBytes src off (0 + k) s).length = 5 := fun k hk =>
    glyphBytes_length (by rw [Nat.zero_add]; exact before k hk)
  rw [stepsOf_append, stepsOf_glyphOpenOf, glyphBytes_short_length hj inside outside, stepsOf_glyphsOf whole] at steps
  refine ⟨_, runDriver_halted can.1 body, ?_, place.2.1, lastCol, moved.curRow.trans curRow, ?_⟩
  · have start : (begun (.drawGlyphs src off n) s).mpc = s.mpc := rfl
    rw [raise_fault, steps, start]
    congr 2
    omega
  · rw [List.append_assoc]
    exact onWire.trans (congrArg (· ++ _) (sent_begun (.drawGlyphs src off n) s))

end Sys2Proof.Machine
end

section
/-! PROOFS. The ACK policy and the status of a driver operation (42_driver R86, R88, R89, 10_state R30). -/

namespace Sys2Proof.Machine

/-! ### Cut short under `ABORT` -/

/-- The slave once a NACK under `ABORT` has closed the transfer: it has heard the stop condition too (R88, R111). -/
def closedSide (par : Params) (q : Side) : Side := { q with ctl := controllerHears par.slave (some .stop) q.ctl }

theorem slaveRun_closed {par : Params} {syms : List Sym} {ds : List SDrive} {p q : Side}
    (answers : slaveRun par syms p = .ok (ds, q)) : slaveRun par (syms ++ [.stop]) p = .ok (ds, closedSide par q) := by
  have stop : slaveRun par [.stop] q = .ok ([], closedSide par q) := rfl
  have run := slaveRun_append answers stop
  rwa [List.append_nil] at run

/-- A beginning of a well framed run of symbols is well framed. -/
theorem framed_beginning {o : Bool} {pre rest : List Sym} {v : Byte} (whole : framed o (pre ++ .byte v :: rest) = true) :
    framed o (pre ++ [.byte v]) = true := by
  rw [show pre ++ .byte v :: rest = (pre ++ [.byte v]) ++ rest by simp, framed_append, Bool.and_eq_true] at whole
  exact whole.1

/-- Under `ABORT` the first NACK of whole transfers from an idle bus leaves the state after those sent and a stop condition
(R88, R89). -/
theorem runSyms_cut_after {pre rest : List Sym} {v : Byte} {s : State} {ds : List SDrive} {q : Side} (idle : AtIdle s)
    (whole : framed false (pre ++ .byte v :: rest) = true) (abort : s.cfg.ackPolicy = .abort)
    (answers : slaveRun s.par (pre ++ [.byte v]) (sideOf s) = .ok (ds ++ [.hiz], q)) (acked : nacked ds = false) :
    runSyms (pre ++ .byte v :: rest) s =
      .aborted (afterTransfers (pre ++ [.byte v, .stop]) (ds ++ [.hiz]) (closedSide s.par q) s) := by
  obtain ⟨t, cut, moved, endIdle, released⟩ := runSyms_cut (o := false) (rest := rest) idle (framed_beginning whole)
    answers acked abort
  have closed := slaveRun_closed answers
  rw [List.append_assoc] at closed
  have result := moved.eq_after idle endIdle released
  rw [sideOf_of_moved moved closed] at result
  rw [cut, result]

/-- Settles O48: the body of each of the three operations is its script, and the first NACK cuts a script short. -/
theorem abortAtFirstNack : Obligations.AbortAtFirstNack := by
  intro s i pre rest v ds q one live idle admitted abort script answers acked
  have whole : framed false (pre ++ .byte v :: rest) = true := script ▸ (framed_scriptOf i s).1
  have begunIdle := atIdle_begun i idle
  have cut := runSyms_cut_after (s := begun i s) begunIdle whole abort answers acked
  obtain ⟨c, rfl⟩ | rfl | rfl := one
  · have body := sendCommandBody_script (s := begun (.sendCommand c) s) c admitted
    rw [scriptOf_begun, script, cut] at body
    exact runDriver_aborted live body
  · have body := initBody_begun admitted
    have cut := runSyms_cut_after (s := configuring s) (atIdle_configuring idle) whole abort answers acked
    rw [script, cut] at body
    exact (runDriver_aborted (clause := initAbortClause) (res := statusResult) live body).trans rfl
  · have body := clearBody_script (s := begun .clear s) admitted
    rw [scriptOf_begun, script, cut] at body
    exact runDriver_aborted live body

/-- Settles O49: the glyphs before it are drawn whole, and its own transfers are cut short with the cursor not moved on. -/
theorem abortInGlyph : Obligations.AbortInGlyph := by
  intro s src off n col row v i pre rest d0 d1 p q ⟨live, idle, ready⟩ abort curCol curRow hi inRange drawn acked0 glyph
    answers acked1
  obtain ⟨m, count⟩ : ∃ m, n.toNat = i + (m + 1) := ⟨n.toNat - i - 1, by omega⟩
  have begunIdle := atIdle_begun (.drawGlyphs src off n) idle
  have bytes (k : Nat) : glyphBytes src off k (begun (.drawGlyphs src off n) s) = glyphBytes src off k s := by
    rw [glyphBytes, sourceBytes_begun]; rfl
  obtain ⟨t, cut, moved, endIdle, released, lastCol⟩ := drawGlyphsFrom_cut (i := i) (m := m) (k := 0) (rest := rest)
    (p := p) (q := q) begunIdle curCol curRow abort
    (fun k hk j hj => by rw [sourceBytes_begun, Nat.zero_add]; exact inRange k (by omega) j hj)
    (by rw [glyphsOf_begun]; exact drawn) acked0 (by rw [bytes, Nat.zero_add]; exact glyph) answers acked1
  have closed := slaveRun_append drawn (slaveRun_closed answers)
  rw [List.append_assoc] at closed
  rw [glyphsOf_begun] at moved
  have result := moved.eq_after begunIdle endIdle released
  rw [sideOf_of_moved moved closed, lastCol] at result
  rw [← count] at cut
  subst result
  exact runDriver_aborted live ((drawGlyphsBody_ready src off n ready).trans cut)

/-! ### A driver operation that ends with no mark -/

/-- What a driver operation that ends with no mark has done: it put the symbols `syms` on the wire, each byte answered in turn
by `ds`, and under `IGNORE` all of its script (R30, R86, R89). -/
structure Completed (i : Instr) (syms : List Sym) (ds : List SDrive) (s t : State) : Prop where
  trace    : t.trace = s.trace ++ .opBegin (requestOf i s) :: eventsOf true syms ds ++ [.opEnd (statusResult t)]
  opNack   : t.opNack = nacked ds
  mpc      : t.mpc = 0
  answered : answered syms ds
  ignore   : s.cfg.ackPolicy = .ignore → syms = scriptOf i s

/-- A body that only moved from the begun request, and then `OpEnd` with the status of its answers; the cursor, the driver
state and an abort clause are of no matter. -/
theorem completed_of_moved {i : Instr} {syms : List Sym} {ds : List SDrive} {s w u v : State} {res : Result}
    (idle : AtIdle s) (start : w.trace = (begun i s).trace ∧ level w .sda = level s .sda ∧ w.opNack = false)
    (moved : Moved syms ds w u) (clause : v.trace = u.trace ∧ v.opNack = u.opNack) (status : res = statusResult v)
    (ignore : s.cfg.ackPolicy = .ignore → syms = scriptOf i s) : Completed i syms ds s (endOp res v) := by
  obtain ⟨trace, data, clear⟩ := start
  obtain ⟨-, dataHigh, -⟩ := idle.1.2.2.1 (by rw [idle.2]; decide)
  subst status
  refine ⟨?_, ?_, rfl, answered_of_run moved.side, ignore⟩
  · have result : statusResult (endOp (statusResult v) v) = statusResult v := rfl
    rw [endOp_trace, clause.1, moved.trace, trace, data, dataHigh, result]
    simp [begun, beginOp, emit]
  · exact clause.2.trans (by rw [moved.opNack, clear, Bool.false_or])

/-- An operation cut short by a NACK has the status `NACK`. -/
theorem status_of_cut {syms : List Sym} {ds : List SDrive} {w u : State} (moved : Moved syms (ds ++ [.hiz]) w u) :
    Result.status .nack = statusResult u := by
  have nack : u.opNack = true := by
    rw [moved.opNack, nacked_append, nacked_single]
    simp
  rw [statusResult, statusOf, nack]; rfl

/-- A request whose body is its script, an unmarked end of it; around the script only the driver state is written. -/
theorem completed_of_script {i : Instr} {body : State → Flow Unit} {clause finish : State → State} {s t : State}
    (d : DState) (idle : AtIdle s)
    (script : body (begun i s) =
      (runSyms (scriptOf i s) { begun i s with dstate := d }).andThen fun u => .ok () (finish u))
    (finished : ∀ u, (finish u).trace = u.trace ∧ (finish u).opNack = u.opNack)
    (silent : ∀ u, (clause u).trace = u.trace ∧ (clause u).opNack = u.opNack)
    (marks : Marks (body (begun i s)) (begun i s)) (ran : runDriver i body clause statusResult s = .next t)
    (unmarked : Live t) : ∃ syms ds, Completed i syms ds s t := by
  have place : AtIdle { begun i s with dstate := d } := atIdle_begun i idle
  obtain ⟨ends, -⟩ := runSyms_ends (o := false) place (framed_scriptOf i s).1
  obtain ⟨-, ending⟩ := runDriver_next ran
  rw [script] at ending marks
  generalize runSyms (scriptOf i s) { begun i s with dstate := d } = run at ends ending marks
  cases ends with
  | done ds u moved =>
    obtain ⟨v, ended, rfl⟩ | ended | ⟨v, ended, -⟩ := ending <;> cases ended
    exact ⟨_, ds, completed_of_moved (w := { begun i s with dstate := d }) idle ⟨rfl, rfl, rfl⟩ moved (finished u) rfl
      fun _ => rfl⟩
  | cut ds pre rest v u whole abort moved =>
    obtain ⟨_, ended, -⟩ | ended | ⟨_, ended, rfl⟩ := ending <;> cases ended
    refine ⟨_, _, completed_of_moved (w := { begun i s with dstate := d }) idle ⟨rfl, rfl, rfl⟩ moved (silent u) ?_
      fun ignore => ?_⟩
    · have same : statusResult (clause u) = statusResult u := by simp only [statusResult, statusOf, (silent u).2]
      rw [same]; exact status_of_cut moved
    · have abort : s.cfg.ackPolicy = .abort := abort
      rw [ignore] at abort; cases abort
  | marked u =>
    obtain ⟨_, ended, -⟩ | ended | ⟨_, ended, -⟩ := ending <;> cases ended
    exact absurd unmarked (Marked.notLive marks)

/-- With the cursor not set a run of no glyph ends with nothing sent, and any other sets a mark (R102). -/
theorem drawGlyphsFrom_unset {src : Source} {off : Byte} {m k : Nat} {s : State}
    (unset : s.curCol = none ∨ s.curRow = none) :
    drawGlyphsFrom src off m k s = .ok () s ∨ ∃ t, drawGlyphsFrom src off m k s = .halted t := by
  cases m with
  | zero => exact .inl rfl
  | succ m => exact .inr ⟨_, by rw [drawGlyphsFrom, drawGlyph_unset src off k unset, Flow.andThen_halted]⟩

theorem scriptOf_drawGlyphs_unset {src : Source} {off n : Byte} {s : State} (unset : s.curCol = none ∨ s.curRow = none) :
    scriptOf (.drawGlyphs src off n) s = [] := by
  simp only [scriptOf]
  split
  next col row curCol curRow =>
    rw [curCol, curRow] at unset
    obtain unset | unset := unset <;> cases unset
  · rfl

/-- A run of glyphs, an unmarked end of it. -/
theorem completed_drawGlyphs {src : Source} {off n : Byte} {s t : State} (idle : AtIdle s) (ready : s.dstate = .ready)
    (ran : exec (.drawGlyphs src off n) s = .next t) (unmarked : Live t) :
    ∃ syms ds, Completed (.drawGlyphs src off n) syms ds s t := by
  have marks := drawGlyphsBody_marks src off n (begun (.drawGlyphs src off n) s)
  obtain ⟨-, ending⟩ := runDriver_next ran
  rw [drawGlyphsBody_ready src off n ready] at ending marks
  by_cases unset : s.curCol = none ∨ s.curRow = none
  · obtain empty | ⟨u, halted⟩ := drawGlyphsFrom_unset (src := src) (off := off) (m := n.toNat) (k := 0)
      (s := begun (.drawGlyphs src off n) s) unset
    · rw [empty] at ending
      obtain ⟨_, ended, rfl⟩ | ended | ⟨_, ended, -⟩ := ending <;> cases ended
      exact ⟨[], [], completed_of_moved idle ⟨rfl, rfl, rfl⟩ (Moved.refl _) ⟨rfl, rfl⟩ rfl
        fun _ => (scriptOf_drawGlyphs_unset unset).symm⟩
    · rw [halted] at ending marks
      obtain ⟨_, ended, -⟩ | ended | ⟨_, ended, -⟩ := ending <;> cases ended
      exact absurd unmarked (Marked.notLive marks)
  · rw [not_or, ← Ne, ← Ne, Option.ne_none_iff_exists', Option.ne_none_iff_exists'] at unset
    obtain ⟨⟨col, curCol⟩, row, curRow⟩ := unset
    have script : scriptOf (.drawGlyphs src off n) s = glyphsOf src off s row n.toNat 0 col := by
      simp only [scriptOf, curCol, curRow]
    have ends := drawGlyphsFrom_ends (src := src) (off := off) (m := n.toNat) (k := 0)
      (atIdle_begun (.drawGlyphs src off n) idle) curCol curRow
    generalize drawGlyphsFrom src off n.toNat 0 (begun (.drawGlyphs src off n) s) = run at ends ending marks
    cases ends with
    | done ds u moved =>
      obtain ⟨_, ended, rfl⟩ | ended | ⟨_, ended, -⟩ := ending <;> cases ended
      rw [glyphsOf_begun, ← script] at moved
      exact ⟨_, ds, completed_of_moved (w := { begun (.drawGlyphs src off n) s with curCol := u.curCol })
        idle ⟨rfl, rfl, rfl⟩ moved ⟨rfl, rfl⟩ rfl fun _ => rfl⟩
    | cut syms ds u abort moved =>
      obtain ⟨_, ended, -⟩ | ended | ⟨_, ended, rfl⟩ := ending <;> cases ended
      have abort : s.cfg.ackPolicy = .abort := abort
      refine ⟨_, _, completed_of_moved (w := { begun (.drawGlyphs src off n) s with curCol := u.curCol }) (u := u)
        idle ⟨rfl, rfl, rfl⟩ moved ⟨rfl, rfl⟩ (status_of_cut moved) fun ignore => ?_⟩
      rw [ignore] at abort; cases abort
    | marked u =>
      obtain ⟨_, ended, -⟩ | ended | ⟨_, ended, -⟩ := ending <;> cases ended
      exact absurd unmarked (Marked.notLive marks)

/-- Every way a driver operation that moves the lines can end with no mark. -/
theorem exec_completed {i : Instr} {s t : State} (moves : MovesLines i) (idle : AtIdle s) (admitted : Admitted i s)
    (ran : exec i s = .next t) (unmarked : Live t) : ∃ syms ds, Completed i syms ds s t := by
  cases i with
  | sendCommand c =>
    refine completed_of_script (finish := id) s.dstate idle ?_ (fun _ => ⟨rfl, rfl⟩) (fun _ => ⟨rfl, rfl⟩)
      (sendCommandBody_marks c _) ran unmarked
    rw [sendCommandBody_script (s := begun (.sendCommand c) s) c admitted, scriptOf_begun]
    exact (Flow.andThen_ok_unit _).symm
  | init =>
    exact completed_of_script (clause := initAbortClause) .configuring idle (initBody_begun admitted)
      (fun _ => ⟨rfl, rfl⟩) (fun _ => ⟨rfl, rfl⟩) (initBody_marks _) ran unmarked
  | drawGlyphs src off n => exact completed_drawGlyphs idle admitted ran unmarked
  | clear =>
    refine completed_of_script (finish := id) s.dstate idle ?_ (fun _ => ⟨rfl, rfl⟩) (fun _ => ⟨rfl, rfl⟩)
      (clearBody_marks _) ran unmarked
    rw [clearBody_script (s := begun .clear s) admitted, scriptOf_begun]
    exact (Flow.andThen_ok_unit _).symm
  | _ => exact moves.elim

/-- Settles O50: under `IGNORE` no NACK cuts the script short, and its events put its symbols on the wire. -/
theorem ignoreSendsEverything : Obligations.IgnoreSendsEverything := by
  intro s t i moves _ idle admitted ignore ran unmarked
  obtain ⟨syms, ds, done⟩ := exec_completed moves idle admitted ran unmarked
  have begunIdle := atIdle_begun i idle
  obtain ⟨-, dataHigh, -⟩ := begunIdle.1.2.2.1 (by rw [begunIdle.2]; decide)
  have trace : t.trace = ((begun i s).trace ++ eventsOf (level (begun i s) .sda) syms ds) ++ [.opEnd (statusResult t)] := by
    rw [done.trace, dataHigh]
    simp [begun, beginOp, emit]
  have script := done.ignore ignore
  rw [trace, sent_emit (.opEnd _) _ fun _ => rfl,
    sent_events (o := false) begunIdle (script ▸ (framed_scriptOf i s).1) done.answered, sent_begun, script]

/-- Settles O51: the samples among the operation's events are the answers to its bytes, and `op_nack` and the status are made
of them. -/
theorem statusFromAcks : Obligations.StatusFromAcks := by
  intro s t i moves _ idle admitted ran unmarked
  obtain ⟨syms, ds, done⟩ := exec_completed moves idle admitted ran unmarked
  refine ⟨_, done.trace, ?_, done.mpc⟩
  rw [done.opNack]
  exact (sample_mem_eventsOf true done.answered).symm

end Sys2Proof.Machine
end

section
/-! PROOFS. The micro-steps and the settle delays of every operation (70_reset_and_hazards R145). -/

namespace Sys2Proof.Machine

/-! ### Micro-steps and settle delays -/

theorem setPositionBody_counts (col row : Byte) (s : State) : (setPositionBody col row s).Counts 0 0 s :=
  whenReady_counts (body := fun s => .ok () { s with curCol := some col, curRow := some row }) ⟨rfl, rfl⟩

theorem sendCommandBody_counts (c : Byte) (s : State) : (sendCommandBody c s).Counts 178 86 s :=
  whenReady_counts (sendCommandTransfer_counts c s)

theorem drawGlyphsBody_counts (src : Source) (off n : Byte) (s : State) :
    (drawGlyphsBody src off n s).Counts (1470 * n.toNat) (710 * n.toNat) s :=
  whenReady_counts (drawGlyphsFrom_counts src off n.toNat 0 s)

/-- `CLEAR` counts by the bytes of the panel, and the table of R145 has a row for each shape. -/
theorem clearBody_settles (s : State) :
    settlesOf .clear s.cfg.shape = some (6 * 86 + 5 + 27 * (clearCount s.cfg.shape + 2)) := by
  cases s.cfg.shape <;> rfl

/-- `SET_POSITION` makes no settle delay, in `READY` or outside it (R98, R145). -/
theorem exec_setPosition_settles {col row : Byte} {s t : State} (ran : exec (.setPosition col row) s = .next t)
    (unmarked : Live t) : t.trace.count .settle = s.trace.count .settle := by
  obtain ⟨live, -⟩ := runDriver_next ran
  by_cases ready : s.dstate = .ready
  · rw [exec_setPosition_ready col row live ready] at ran
    cases ran
    simp [positioned, endOp, emit, begun, beginOp]
  · have outside := notReady_request (.setPosition col row)
      (fun s => .ok () { s with curCol := some col, curRow := some row }) noResult live ready
    cases ran.symm.trans outside
    exact absurd unmarked (by simp [Live, raise])

/-- Settles O52: the pieces of each body count its micro-steps and its settle delays, and around the body a request records
no settle delay. -/
theorem microStepCounts : Obligations.MicroStepCounts := by
  refine ⟨fun s t => ⟨(busInitBody_ticks s).ok, (startBody_ticks s).ok, fun b => (writeBitBody_ticks b s).ok,
    fun a => (readAckBody_ticks s).ok, fun v a => (writeByteBody_ticks v s).ok, (stopBody_ticks s).ok,
    fun c => (sendCommandTransfer_counts c s).ok, fun vs => (dataTransfer_counts vs s).ok,
    fun c => (sendCommandBody_counts c s).ok, (initBody_counts s).ok, fun col row => (setPositionBody_counts col row s).ok,
    fun src off n => (drawGlyphsBody_counts src off n s).ok, fun ended => ?_⟩, fun s t i k ran unmarked settles through => ?_⟩
  · have spent := (clearBody_counts s).ok ended
    refine ⟨fun shape => ?_, fun shape => ?_, fun shape => ?_⟩ <;> rw [shape] at spent <;> exact spent
  · have policy : t.cfg = s.cfg := (exec_coreKept ran).cfg
    rw [← policy] at through
    cases i with
    | busInit => cases settles; exact runBus_settles busInitBody_ticks busInitBody_marks ran unmarked
    | start => cases settles; exact runBus_settles startBody_ticks startBody_marks ran unmarked
    | writeBit b => cases settles; exact runBus_settles (writeBitBody_ticks b) (writeBitBody_marks b) ran unmarked
    | readAck => cases settles; exact runBus_settles readAckBody_ticks readAckBody_marks ran unmarked
    | writeByte v => cases settles; exact runBus_settles (writeByteBody_ticks v) (writeByteBody_marks v) ran unmarked
    | stop => cases settles; exact runBus_settles stopBody_ticks stopBody_marks ran unmarked
    | sendCommand c =>
      cases settles
      exact runDriver_settles (sendCommandBody_counts c _) (sendCommandBody_marks c) (fun _ => ⟨rfl, rfl⟩) ran unmarked
        (through trivial)
    | init =>
      cases settles
      exact runDriver_settles (clause := initAbortClause) (initBody_counts _) initBody_marks (fun _ => ⟨rfl, rfl⟩) ran
        unmarked (through trivial)
    | setPosition col row => cases settles; exact exec_setPosition_settles ran unmarked
    | drawGlyphs src off n =>
      cases settles
      exact runDriver_settles (drawGlyphsBody_counts src off n _) (drawGlyphsBody_marks src off n) (fun _ => ⟨rfl, rfl⟩)
        ran unmarked (through trivial)
    | clear =>
      rw [clearBody_settles] at settles
      cases settles
      exact runDriver_settles (clearBody_counts _) clearBody_marks (fun _ => ⟨rfl, rfl⟩) ran unmarked (through trivial)
    | addressByte a => cases settles
    | ctrlCmd => cases settles
    | ctrlData => cases settles

end Sys2Proof.Machine
end

section
/-! PROOFS. What the slave makes of the bytes it is sent: its answers, the commands it parses and what they do
(45_controller_reference). -/

namespace Sys2Proof.Machine

/-! ### The reference slave at its reset, and the unconstrained one -/

/-- Settles O10: nothing has been written yet, so a byte of the frame buffer is its free value. -/
theorem slaveResetValues : Obligations.SlaveResetValues := by
  refine ⟨rfl, rfl, rfl, rfl, rfl, rfl, rfl, rfl, rfl, rfl, rfl, fun p x => ?_⟩
  have inside : gddramHas p x = true ↔ p < 8 ∧ x < 128 := gddramHas_iff
  by_cases has : gddramHas p x = true
  · rw [gddramRead_of_has has, if_pos (inside.1 has)]; rfl
  · rw [gddramRead_outside has, if_neg (mt inside.2 has)]

/-- Settles O53: every answer is a draw. -/
theorem freeSlaveAnswers : Obligations.FreeSlaveAnswers := fun _ syms p free => slaveRun_free_ctl free syms p

/-! ### The ACK of the reference slave -/

/-- Where R110 gives the answer, it is the answer to the byte. -/
theorem answerSide_ackDrive {par : Params} {v : Byte} {p q : Side} {d e : SDrive} (reference : par.slave = .reference)
    (drive : ackDrive par.slaveAddr7 p.ctl v = some e) (answer : answerSide par (some v) p = .ok (d, q)) : d = e := by
  simp only [answerSide, controllerDrive, reference, drive] at answer
  split at answer
  · cases answer
  · cases answer; rfl

/-- A byte taken has its ACK in `last_ack`. -/
theorem lastAck_of_ackDrive {s t : State} {v : Byte} {e : SDrive} (place : AtByte s) (reference : s.par.slave = .reference)
    (drive : ackDrive s.par.slaveAddr7 s.ctl v = some e) (ran : exec (.writeByte v) s = .next t) (unmarked : Live t) :
    t.lastAck = some (e == .low) := by
  have live := live_of_exec ran
  cases answer : answerSide s.par (some v) (sideOf s) with
  | error r =>
    cases ran.symm.trans (exec_writeByte_refused live place answer)
    exact absurd unmarked (by simp [Live, refuse])
  | ok answered =>
    obtain ⟨d, q⟩ := answered
    cases ran.symm.trans (exec_writeByte_answered live place answer)
    rw [← answerSide_ackDrive reference drive answer]; rfl

/-- Settles O54: the phase gives the drive, and the drive the ACK. -/
theorem slaveAck : Obligations.SlaveAck := by
  intro s t v place reference ran unmarked
  have ack (e : SDrive) (drive : ackDrive s.par.slaveAddr7 s.ctl v = some e) : t.lastAck = some (e == .low) :=
    lastAck_of_ackDrive place reference drive ran unmarked
  refine ⟨fun phase => ?_, fun phase => ack .low ?_, fun phase => ack .hiz ?_⟩
  · rw [ack (if v = addressByteOf s.par.slaveAddr7 then .low else .hiz) (by rw [ackDrive, phase])]
    by_cases mine : v = s.par.slaveAddr7 ++ 0#1 <;> simp [addressByteOf, mine]
  · obtain phase | phase | phase := phase <;> rw [ackDrive, phase]
  · rw [ackDrive, phase]

/-! ### Commands across transfers -/

/-- An opcode with arguments waits for them (R112). -/
theorem commandByte_opcode {c : Controller} {v : Byte} {n : Nat} (fresh : c.pending = none)
    (count : argCount v = some (n + 1)) :
    commandByte v c = .ok { c with pending := some { opcode := v, args := [], needed := n + 1 } } := by
  simp only [commandByte, fresh, count]

/-- An opcode without arguments is executed at once (R112). -/
theorem commandByte_complete {c : Controller} {v : Byte} (fresh : c.pending = none) (count : argCount v = some 0) :
    commandByte v c = executeCommand v [] c := by
  simp only [commandByte, fresh, count]

/-- An opcode that is not modelled (R113). -/
theorem commandByte_unmodelled {c : Controller} {v : Byte} (fresh : c.pending = none) (count : argCount v = none) :
    commandByte v c = .error (.command v) := by
  simp only [commandByte, fresh, count]

/-- An argument after which the command lacks more (R112). -/
theorem commandByte_argument {c : Controller} {v : Byte} {p : Partial} (waiting : c.pending = some p)
    (lacks : p.args.length + 1 < p.needed) :
    commandByte v c = .ok { c with pending := some { p with args := p.args ++ [v] } } := by
  simp only [commandByte, waiting, List.length_append, List.length_singleton, if_pos lacks]

/-- The last argument executes the command (R112). -/
theorem commandByte_lastArgument {c : Controller} {v : Byte} {p : Partial} (waiting : c.pending = some p)
    (last : p.needed ≤ p.args.length + 1) :
    commandByte v c = executeCommand p.opcode (p.args ++ [v]) { c with pending := none } := by
  simp only [commandByte, waiting, List.length_append, List.length_singleton, if_neg (Nat.not_lt.2 last)]

/-- The block addresses the slave that is paired with it (R60). -/
theorem blockAddressByte_of_paired {s : State} (paired : Paired s) : blockAddressByte s = addressByteOf s.par.slaveAddr7 := by
  rw [blockAddressByte, paired.2]

/-- A `SEND_COMMAND` whose byte the slave takes: acknowledged throughout, and the slave as the byte leaves it. -/
theorem exec_sendCommand_taken {s : State} {c : Byte} {d : Controller} (can : CanSend s) (paired : Paired s)
    (taken : commandByte c s.ctl = .ok d) :
    ∃ t, exec (.sendCommand c) s = .next t ∧ Live t ∧ t.ctl = { d with phase := .waitStart } := by
  have answers := slaveRun_command (p := sideOf s) paired.1 taken
  rw [← blockAddressByte_of_paired paired] at answers
  exact ⟨_, sendCommandResult s c _ _ can answers (.inl rfl), can.1, rfl⟩

/-- A `SEND_COMMAND` whose byte the slave refuses. -/
theorem exec_sendCommand_refused {s : State} {c : Byte} {r : ControllerReason} (can : CanSend s) (paired : Paired s)
    (refused : commandByte c s.ctl = .error r) :
    ∃ t, exec (.sendCommand c) s = .next t ∧ t.refused = some (.controllerUnmodelled r) := by
  obtain ⟨answers, answer⟩ := slaveRun_command_refused (p := sideOf s) paired.1 refused
  rw [← blockAddressByte_of_paired paired] at answers
  obtain ⟨live, idle, ready⟩ := can
  obtain ⟨u, halted, -⟩ := runSyms_refused (o := false) (rest := [.stop]) (atIdle_begun (.sendCommand c) idle) rfl
    answers (.inl rfl) answer
  have body := sendCommandBody_script (s := begun (.sendCommand c) s) c ready
  exact ⟨_, runDriver_halted live (body.trans halted), rfl⟩

/-- One command byte sent, taken or refused. -/
theorem exec_sendCommand_command {s : State} (c : Byte) (can : CanSend s) (paired : Paired s) :
    ∃ t, exec (.sendCommand c) s = .next t ∧
      (∀ d, commandByte c s.ctl = .ok d → Live t ∧ t.ctl = { d with phase := .waitStart }) ∧
      ∀ r, commandByte c s.ctl = .error r → t.refused = some (.controllerUnmodelled r) := by
  cases parsed : commandByte c s.ctl with
  | ok d =>
    obtain ⟨t, ran, result⟩ := exec_sendCommand_taken can paired parsed
    exact ⟨t, ran, fun _ same => by cases same; exact result, fun _ same => nomatch same⟩
  | error r =>
    obtain ⟨t, ran, result⟩ := exec_sendCommand_refused can paired parsed
    exact ⟨t, ran, fun _ same => (nomatch same), fun _ same => by cases same; exact result⟩

/-- Settles O55: the slave does with the byte of a `SEND_COMMAND` what R112 says of a byte of a command stream. -/
theorem commandsAcrossTransfers : Obligations.CommandsAcrossTransfers := by
  intro s c can paired
  obtain ⟨t, ran, taken, refused⟩ := exec_sendCommand_command c can paired
  exact ⟨t, ran,
    fun n fresh count => taken _ (commandByte_opcode fresh count),
    fun d fresh count executed => taken d ((commandByte_complete fresh count).trans executed),
    fun fresh count => refused _ (commandByte_unmodelled fresh count),
    fun p waiting lacks => taken _ (commandByte_argument waiting lacks),
    fun p d waiting last executed => taken d ((commandByte_lastArgument waiting last).trans executed),
    fun p r waiting last failed => refused r ((commandByte_lastArgument waiting last).trans failed)⟩

/-! ### What a complete command does -/

/-- A command of no window, mode or display is recorded (R114; log 20). -/
theorem executeCommand_setting {op : Byte} (args : List Byte) (c : Controller)
    (other : op ∉ [0x20#8, 0x21#8, 0x22#8, 0xAE#8, 0xAF#8]) :
    executeCommand op args c = .ok { c with settings := putSetting c.settings op args } := by
  simp only [List.mem_cons, List.not_mem_nil, or_false, not_or] at other
  obtain ⟨mode, columns, pages, off, on⟩ := other
  simp only [executeCommand, mode, columns, pages, off, on, if_false]

/-- In settings that hold one entry an opcode, the one just recorded is the opcode's (R108). -/
theorem putSetting_unique {l : List (Byte × List Byte)} {op : Byte} {args x : List Byte}
    (rising : l.Pairwise fun a b => a.1.toNat < b.1.toNat) (holds : (op, x) ∈ putSetting l op args) : x = args := by
  have nodup : ((putSetting l op args).map Prod.fst).Nodup := by
    refine List.pairwise_map.2 ((putSetting_rising op args rising).imp fun lt same => ?_)
    rw [same] at lt; exact lt.false
  exact (Prod.ext_iff.1 (List.inj_on_of_nodup_map nodup holds mem_putSetting.1 rfl)).2

/-- A byte of 3 and above selects no addressing mode (R114; log 15). -/
theorem addrModeOf_above {a : Byte} (above : 3 ≤ a.toNat) : addrModeOf a = none := by
  have other (m : Byte) (below : m.toNat < 3) : a ≠ m := fun same => by rw [same] at above; omega
  rw [addrModeOf, if_neg (other _ (by decide)), if_neg (other _ (by decide)), if_neg (other _ (by decide))]

/-- Settles O56: each opcode of R114 by its branch, the settings by what recording one does, and the counts of R113 by
their lists. -/
theorem commandEffects : Obligations.CommandEffects := by
  refine ⟨fun c a b => ⟨rfl, rfl, rfl, rfl, rfl, fun above => ?_, rfl, rfl, fun op args other => ?_⟩, fun v => ?_⟩
  · simp [executeCommand, addrModeOf_above above]
  · obtain ⟨recorded, others⟩ := mem_putSetting (l := c.settings) (op := op) (args := args)
    exact ⟨_, executeCommand_setting args c other, recorded, others, fun ok x holds => putSetting_unique ok holds⟩
  · by_cases startLine : 0x40 ≤ v.toNat ∧ v.toNat ≤ 0x7F <;> simp [argCount, startLine]

/-! ### `INIT` -/

/-- The default sequence, from no partial command: horizontal addressing, display on, and settings (R95, R112, R114). -/
theorem parse_defaultInit {c : Controller} (shape : Shape) (power : Power) (fresh : c.pending = none) :
    ∃ l, parseCommands (initSeq defaultInitBytes shape power) c =
      .ok { c with addrMode := .horizontal, displayOn := true, settings := l } := by
  obtain ⟨phase, pending, addrMode, colStart, colEnd, pageStart, pageEnd, col, page, gddram, displayOn, settings⟩ := c
  cases fresh
  cases shape <;> cases power <;> exact ⟨_, rfl⟩

/-- Settles O58: every byte of the sequence is acknowledged, and the slave is as the commands leave it. -/
theorem initPreparesSlave : Obligations.InitPreparesSlave := by
  intro s live idle admitted paired bytes fresh
  obtain ⟨l, parsed⟩ := parse_defaultInit s.cfg.shape s.cfg.power fresh
  have answers := slaveRun_commands_from (p := sideOf s) paired.1 parsed
  rw [← blockAddressByte_of_paired paired, ← bytes] at answers
  have ran := exec_init_done live idle admitted answers (.inl (nacked_replicate_low _))
  exact ⟨_, ran, canSend_of_exec idle.1 ran live rfl rfl, nacked_replicate_low _, rfl, fresh, rfl, rfl, rfl, rfl, rfl, rfl,
    rfl, rfl, rfl⟩

end Sys2Proof.Machine
end
